-- ==== Sys2Proof/Word.lean ====
section
/-! DEFINITION. The words of the block (00_scope.md R7): bit 0 is the least significant bit. -/

namespace Sys2Proof

/-- A byte or pixel, 0 to 0xFF (R7). -/
abbrev Byte := BitVec 8

/-- A bus word, `P_WORD` = 16 bits (R5, R7, R101). -/
abbrev Word := BitVec 16

/-- The width of `IMG_ADDR` (10_state.md R39) and of `TMO` (`P_TMO_BITS` = 32, R36). -/
abbrev Word32 := BitVec 32

end Sys2Proof
end

