-- ==== Sys2Proof/Config.lean ====
section
/-! DEFINITION. Configuration: the constants the source states, the parameters of 00_scope.md R5 as one record,
and the free values of the environment (uninterpreted constants: no body, so nothing can be proved of them). -/

namespace Sys2Proof

/-- The two readings of the 3 bpp nibble, `P_PACK3` (41_pixel_packer.md R182, D19). -/
inductive Pack3Rule where
  | maskFirst
  | shiftFirst
  deriving DecidableEq, Repr, Inhabited

/-- (Logs 4 and 14.) The parameters of R5 whose value is general knowledge (GK), a decision, or open with a default. The defaults are
those of R5. The block never writes them (R6, R51). What the source itself states (preambles, reply length, VCOM range)
stands below as constants. -/
structure Params where
  /-- `P_CHUNK`: maximum payload words of a data transaction (default of D16). -/
  chunk : Nat := 1024
  /-- `P_DUMMY` (D10). -/
  dummy : Word := 0x0000
  /-- `P_PACK3` (D19). -/
  pack3 : Pack3Rule := .maskFirst
  /-- `P_CMD_SYS_RUN` (GK, D4), and so on for the ten command codes of 30_encoding.md R105. -/
  cmdSysRun : Word := 0x0001
  cmdSleep : Word := 0x0003
  cmdRegRd : Word := 0x0010
  cmdRegWr : Word := 0x0011
  cmdLdImg : Word := 0x0020
  cmdLdImgArea : Word := 0x0021
  cmdLdImgEnd : Word := 0x0022
  cmdDpyArea : Word := 0x0034
  cmdVcom : Word := 0x0039
  cmdGetDevInfo : Word := 0x0302
  /-- `P_VCOM_GET`, `P_VCOM_SET` (GK, D8). -/
  vcomGet : Word := 0x0000
  vcomSet : Word := 0x0001
  /-- `P_REG_LISAR_L`, `P_REG_LISAR_H`, `P_REG_I80CPCR`, `P_PACKED_ON`, `P_REG_STATUS` (GK, D5). -/
  regLisarL : Word := 0x0208
  regLisarH : Word := 0x020A
  regI80cpcr : Word := 0x0004
  packedOn : Word := 0x0001
  regStatus : Word := 0x1224
  /-- `P_FMT_2BPP` to `P_FMT_8BPP` (GK, D6). -/
  fmt2 : BitVec 4 := 0
  fmt3 : BitVec 4 := 1
  fmt4 : BitVec 4 := 2
  fmt8 : BitVec 4 := 3
  /-- `P_ROT` (GK, D6): the codes of no rotation, 90 degrees clockwise, 180 degrees and 270 degrees. -/
  rotNone : BitVec 4 := 0
  rotRight : BitVec 4 := 1
  rotHalf : BitVec 4 := 2
  rotLeft : BitVec 4 := 3
  /-- `P_ENDIAN` (GK, D28). -/
  endian : BitVec 8 := 0
  /-- `P_MODES`, `P_MODE_FAST`, `P_MODE_INIT` (GK, D7). -/
  modes : List Int := [0, 1, 2, 3, 4, 5, 6, 7]
  modeFast : Int := 1
  modeInit : Int := 0
  /-- `P_AREA_ALIGN` (D42). -/
  areaAlign : Nat := 4
  /-- The host's parameters `P_ALIGN`, `P_THRESH`, `P_WHITE`, `P_HOST_FMT`, `P_ROT180` (49_host_diff_engine.md). -/
  align : Nat := 4
  thresh : Nat := 128
  white : Byte := 0xFF
  hostFmt : Int := 4
  rot180 : Bool := false
  deriving DecidableEq, Repr, Inhabited

/-- Every parameter at the default of R5. -/
def Params.default : Params := {}

/-- What the environment may do between two atomic steps of the sequencer (10_state.md R37, 60_exceptions.md R304). -/
inductive EnvMove where
  /-- The controller drives HRDY to this level. -/
  | pin (level : Bool)
  /-- The edge agent takes its one atomic step. -/
  | edge
  deriving DecidableEq, Repr, Inhabited

/-- One interleaving point: the moves that fall before the sequencer's next atomic step, and whether that step, if it is
the startup wait, is its timeout (40_transport.md R157 enables both). -/
structure Slot where
  moves : List EnvMove := []
  expire : Bool := false
  deriving DecidableEq, Repr, Inhabited

namespace Config

/-- `P_PRE_CMD`, `P_PRE_DATA`, `P_PRE_READ`: the three preambles (30_encoding.md R102; the source's values, C4). -/
def preCmd : Word := 0x6000
def preData : Word := 0x0000
def preRead : Word := 0x1000

/-- `P_INFO_WORDS`: length of the device-info reply (source, C3). -/
def infoWords : Nat := 20

/-- `P_VCOM_LO`, `P_VCOM_HI`: the open interval of legal VCOM volts (source, C5). -/
def vcomLo : Rat := -5
def vcomHi : Rat := 0

/-- `P_VCOM_SCALE`: millivolts per volt (source). -/
def vcomScale : Rat := 1000

/-- Free value: what the environment does before the n-th atomic step once `State.script` is used up (log 2). -/
opaque freeSlot : Nat → Slot

/-- Free value: the n-th byte received, once `State.rx` is used up (10_state.md R37: an oracle draw; log 2). -/
opaque freeByte : Nat → Byte

/-- Free value: the level of HRDY at power-on (10_state.md R35, R52; log 3). -/
opaque hrdyAtPowerOn : Bool

end Config

end Sys2Proof
end

