-- ==== Sys2Proof/Syntax.lean ====
section
/-! DEFINITION. Syntax: the rows of spec/opcode_table.json as one inductive, the names of operands, and the forms an
instruction is handed over in (a host request, or a unit on the wire). -/

namespace Sys2Proof

/-- The operand names of 30_encoding.md R120, as `F_OPERAND(op, operand)` reports them (R121, R300). -/
inductive OperandName where
  | ws | code | wait | w | chunk | count | pix | addr | value | v | bpp | rot | origin | dims | x | y | h | mode | vcom
  deriving DecidableEq, Repr

/-- The instructions. Host operations carry their operands by value (R31, R121): numbers are integers, so that one out of
range can be handed over and faults (log 6). Wire rows are the frames and the argument word the block sends (log 7). -/
inductive Instr where
  -- Transport (40_transport.md)
  | xfer (ws : List Int)
  | wcmd (code wait : Int)
  | wdata (w : Int)
  | wwords (ws : List Int) (chunk : Int)
  | rwords (count : Int)
  | hwreset
  | rdstat
  -- Pixel packer (41_pixel_packer.md)
  | pack2 (pix : List Int)
  | pack3 (pix : List Int)
  | pack4 (pix : List Int)
  | pack8 (pix : List Int)
  -- Protocol engine (42_protocol.md)
  | qinfo
  | rdreg (addr : Int)
  | wrreg (addr value : Int)
  | getvcom
  | setvcom (v : Rat)
  | loadimgFull (bpp rot : Int) (pix : List Int)
  | loadimgArea (bpp rot : Int) (origin dims : Option (Int × Int)) (pix : List Int)
  | dpyarea (x y w h mode : Int)
  | waitdpy
  | sleep
  | wake
  | init (vcom : Rat)
  -- CMD frames (30_encoding.md R103, R105)
  | cmdSysRun
  | cmdSleep
  | cmdRegRd
  | cmdRegWr
  | cmdLdImg
  | cmdLdImgArea
  | cmdLdImgEnd
  | cmdDpyArea
  | cmdVcom
  | cmdGetDevInfo
  -- DATA and READ frames (R103), and the image-load argument word (R106)
  | frameData (payload : List Word)
  | frameRead (count : Nat)
  | ldarg (endian : BitVec 8) (fmt rot : BitVec 4)
  deriving DecidableEq, Repr

/-- The operands of a host request, by name (R120); `none` is an operand left out (its default, or absent: R121). -/
structure Operands where
  ws : Option (List Int) := none
  code : Option Int := none
  wait : Option Int := none
  w : Option Int := none
  chunk : Option Int := none
  count : Option Int := none
  pix : Option (List Int) := none
  addr : Option Int := none
  value : Option Int := none
  v : Option Rat := none
  bpp : Option Int := none
  rot : Option Int := none
  origin : Option (Int × Int) := none
  dims : Option (Int × Int) := none
  x : Option Int := none
  y : Option Int := none
  h : Option Int := none
  mode : Option Int := none
  vcom : Option Rat := none
  deriving DecidableEq, Repr

/-- A host operation as the host names it: an 8-bit opcode and its operands (R120; the form is log 5). -/
structure HostReq where
  opc : Byte
  operands : Operands := {}
  deriving DecidableEq, Repr

/-- What goes out on the wire as one gated transaction: a frame (R103), or a command's image-load argument word, which
travels in a one-word DATA frame of its own (R104, R106). -/
inductive WireUnit where
  | frame (ws : List Word)
  | loadArg (w : Word)
  deriving DecidableEq, Repr

/-- An instruction as it is handed to its decoder. -/
inductive Encoded where
  | host (r : HostReq)
  | wire (u : WireUnit)
  deriving DecidableEq, Repr

end Sys2Proof
end

