-- ==== Sys2Proof/WellFormed.lean ====
section
/-! DEFINITION. Well-formedness: the operand ranges of 30_encoding.md R121 for host operations, and the lengths and field
values of 30_encoding.md R103, R106 for the wire rows. -/

namespace Sys2Proof

/-- A word operand: 0 to 0xFFFF. -/
def wordOk (n : Int) : Bool := decide (0 ≤ n ∧ n ≤ 0xFFFF)

/-- A pixel operand element: 0 to 0xFF. -/
def pixelOk (n : Int) : Bool := decide (0 ≤ n ∧ n ≤ 0xFF)

/-- A width or height: 1 to 0xFFFF; also the range of `chunk`. -/
def sizeOk (n : Int) : Bool := decide (1 ≤ n ∧ n ≤ 0xFFFF)

def bitOk (n : Int) : Bool := decide (n = 0 ∨ n = 1)

def bppOk (n : Int) : Bool := decide (n = 2 ∨ n = 3 ∨ n = 4 ∨ n = 8)

/-- A rotation, by its number in 30_encoding.md R108 (R121; its code is `P_ROT`'s, log 28). -/
def rotOk (n : Int) : Bool := decide (0 ≤ n ∧ n ≤ 3)

def originOk (o : Option (Int × Int)) : Bool := o.all fun q => wordOk q.1 && wordOk q.2

def dimsOk (o : Option (Int × Int)) : Bool := o.all fun q => sizeOk q.1 && sizeOk q.2

/-- Well-formed under the parameters `p` (only `P_MODES` matters). The lengths of the frames: log 20. -/
def Instr.wf (p : Params) : Instr → Bool
  | .xfer ws => ws.all wordOk
  | .wcmd code wait => wordOk code && bitOk wait
  | .wdata w => wordOk w
  | .wwords ws chunk => ws.all wordOk && sizeOk chunk
  | .rwords count => wordOk count
  | .hwreset => true
  | .rdstat => true
  | .pack2 pix => pix.all pixelOk
  | .pack3 pix => pix.all pixelOk
  | .pack4 pix => pix.all pixelOk
  | .pack8 pix => pix.all pixelOk
  | .qinfo => true
  | .rdreg addr => wordOk addr
  | .wrreg addr value => wordOk addr && wordOk value
  | .getvcom => true
  | .setvcom _ => true
  | .loadimgFull bpp rot pix => bppOk bpp && rotOk rot && pix.all pixelOk
  | .loadimgArea bpp rot origin dims pix =>
      bppOk bpp && rotOk rot && originOk origin && (origin.isSome || dims.isSome) && dimsOk dims && pix.all pixelOk
  | .dpyarea x y w h mode => wordOk x && wordOk y && sizeOk w && sizeOk h && p.modes.contains mode
  | .waitdpy => true
  | .sleep => true
  | .wake => true
  | .init _ => true
  | .cmdSysRun => true
  | .cmdSleep => true
  | .cmdRegRd => true
  | .cmdRegWr => true
  | .cmdLdImg => true
  | .cmdLdImgArea => true
  | .cmdLdImgEnd => true
  | .cmdDpyArea => true
  | .cmdVcom => true
  | .cmdGetDevInfo => true
  | .frameData payload => decide (1 ≤ payload.length ∧ payload.length ≤ 65535)
  | .frameRead count => decide (count ≤ 65535)
  | .ldarg endian fmt rot => decide (endian.toNat ≤ 1 ∧ fmt.toNat ≤ 3 ∧ rot.toNat ≤ 3)

/-- The ten command codes in the order of 30_encoding.md R105. -/
def Params.cmdCodes (p : Params) : List Word :=
  [p.cmdSysRun, p.cmdSleep, p.cmdRegRd, p.cmdRegWr, p.cmdLdImg, p.cmdLdImgArea, p.cmdLdImgEnd, p.cmdDpyArea, p.cmdVcom,
   p.cmdGetDevInfo]

/-- Parameters the spec's rules can be read with: the ten codes are distinct (R105), and so are the format codes, the rotation
codes and the two VCOM selector words; the format, rotation and endianness codes fit the fields of R106 as that rule says,
the chunk is a legal chunk (R121), and the alignments are positive. -/
def Params.wf (p : Params) : Bool :=
  decide (p.cmdCodes.Nodup ∧ [p.fmt2, p.fmt3, p.fmt4, p.fmt8].Nodup) &&
  decide ([p.rotNone, p.rotRight, p.rotHalf, p.rotLeft].Nodup ∧ p.vcomGet ≠ p.vcomSet) &&
  decide (p.rotNone.toNat ≤ 3 ∧ p.rotRight.toNat ≤ 3 ∧ p.rotHalf.toNat ≤ 3 ∧ p.rotLeft.toNat ≤ 3) &&
  decide (1 ≤ p.chunk ∧ p.chunk ≤ 65535 ∧ 1 ≤ p.areaAlign ∧ 1 ≤ p.align) &&
  decide (p.fmt2.toNat ≤ 3 ∧ p.fmt3.toNat ≤ 3 ∧ p.fmt4.toNat ≤ 3 ∧ p.fmt8.toNat ≤ 3 ∧ p.endian.toNat ≤ 1)

end Sys2Proof
end

