-- ==== Sys2Proof/Decode.lean ====
section
/-! DEFINITION. Encoding (30_encoding.md): byte order, the decoders of host requests and of wire units (total, rejecting by
name), then the encoder, the decoder of a trace of R113, and the host's `decodeTableWord`. -/

namespace Sys2Proof

/-! ### Words and bytes -/

/-- `hi8(w) = w[15:8]` (00_scope.md R7). -/
def hi8 (w : Word) : Byte := w.extractLsb' 8 8

/-- `lo8(w) = w[7:0]` (R7). -/
def lo8 (w : Word) : Byte := w.extractLsb' 0 8

/-- The word of a byte pair in arrival order, `(b0 << 8) | b1` (20_memory.md R74). -/
def wordOfBytes (b0 b1 : Byte) : Word := (b0.zeroExtend 16 <<< 8) ||| b1.zeroExtend 16

/-- Words as bytes on the wire, high byte first (R74). -/
def bytesOfWords (ws : List Word) : List Byte := ws.flatMap fun w => [hi8 w, lo8 w]

/-- A number as a 16-bit word; a well-formed word operand is sent exactly as it is (R114). -/
def wordOf (n : Int) : Word := BitVec.ofInt 16 n

/-- A pixel operand element as a byte. -/
def byteOf (n : Int) : Byte := BitVec.ofInt 8 n

/-! ### Opcodes -/

/-- The 8-bit opcode of a host operation (R120); a wire row has none. -/
def Instr.opc? : Instr → Option Byte
  | .xfer _ => some 0x01
  | .wcmd _ _ => some 0x02
  | .wdata _ => some 0x03
  | .wwords _ _ => some 0x04
  | .rwords _ => some 0x05
  | .hwreset => some 0x06
  | .rdstat => some 0x07
  | .pack2 _ => some 0x10
  | .pack3 _ => some 0x11
  | .pack4 _ => some 0x12
  | .pack8 _ => some 0x13
  | .qinfo => some 0x20
  | .rdreg _ => some 0x21
  | .wrreg _ _ => some 0x22
  | .getvcom => some 0x23
  | .setvcom _ => some 0x24
  | .loadimgFull _ _ _ => some 0x25
  | .loadimgArea _ _ _ _ _ => some 0x26
  | .dpyarea _ _ _ _ _ => some 0x27
  | .waitdpy => some 0x28
  | .sleep => some 0x29
  | .wake => some 0x2A
  | .init _ => some 0x2F
  | .cmdSysRun => none
  | .cmdSleep => none
  | .cmdRegRd => none
  | .cmdRegWr => none
  | .cmdLdImg => none
  | .cmdLdImgArea => none
  | .cmdLdImgEnd => none
  | .cmdDpyArea => none
  | .cmdVcom => none
  | .cmdGetDevInfo => none
  | .frameData _ => none
  | .frameRead _ => none
  | .ldarg _ _ _ => none

/-- The opcode a host operation's faults record (R303); 0x00, which is reserved (R122), for a wire row, which never faults. -/
def Instr.opc (i : Instr) : Byte := i.opc?.getD 0x00

/-! ### Decoding -/

/-- Why something handed to a decoder is no instruction. The first two become faults of the block (R122, R121); the rest
are the names a trace decoder gives to what it cannot read (R113, R115). -/
inductive Reject where
  /-- An opcode outside R120: reserved (R122). -/
  | illegalOp (opc : Byte)
  /-- A host request without an operand that has no default (log 5). -/
  | missingOperand (opc : Byte) (name : OperandName)
  | emptyFrame
  | reservedPreamble (w : Word)
  | unknownCommand (code : Word)
  | badCommandLength (n : Nat)
  | emptyData
  | emptyRead
  | notDummy
  | reservedArgBits (w : Word)
  | oddBytes (n : Nat)
  deriving DecidableEq, Repr

/-- An operand that must be given. -/
def HostReq.need {α : Type} (r : HostReq) (name : OperandName) (o : Option α) : Except Reject α :=
  match o with
  | some a => .ok a
  | none => .error (.missingOperand r.opc name)

/-- Host-operation decoding (R120, R122): the opcode selects the operation, which takes its own operands, with the
defaults of R121 for `wait`, `chunk` and `bpp`; `origin` and `dims` may be absent. -/
def decodeHost (p : Params) (r : HostReq) : Except Reject Instr :=
  let a := r.operands
  match r.opc.toNat with
  | 0x01 => do return .xfer (← r.need .ws a.ws)
  | 0x02 => do return .wcmd (← r.need .code a.code) (a.wait.getD 1)
  | 0x03 => do return .wdata (← r.need .w a.w)
  | 0x04 => do return .wwords (← r.need .ws a.ws) (a.chunk.getD p.chunk)
  | 0x05 => do return .rwords (← r.need .count a.count)
  | 0x06 => .ok .hwreset
  | 0x07 => .ok .rdstat
  | 0x10 => do return .pack2 (← r.need .pix a.pix)
  | 0x11 => do return .pack3 (← r.need .pix a.pix)
  | 0x12 => do return .pack4 (← r.need .pix a.pix)
  | 0x13 => do return .pack8 (← r.need .pix a.pix)
  | 0x20 => .ok .qinfo
  | 0x21 => do return .rdreg (← r.need .addr a.addr)
  | 0x22 => do return .wrreg (← r.need .addr a.addr) (← r.need .value a.value)
  | 0x23 => .ok .getvcom
  | 0x24 => do return .setvcom (← r.need .v a.v)
  | 0x25 => do return .loadimgFull (a.bpp.getD 4) (← r.need .rot a.rot) (← r.need .pix a.pix)
  | 0x26 => do return .loadimgArea (a.bpp.getD 4) (← r.need .rot a.rot) a.origin a.dims (← r.need .pix a.pix)
  | 0x27 => do
      return .dpyarea (← r.need .x a.x) (← r.need .y a.y) (← r.need .w a.w) (← r.need .h a.h) (← r.need .mode a.mode)
  | 0x28 => .ok .waitdpy
  | 0x29 => .ok .sleep
  | 0x2A => .ok .wake
  | 0x2F => do return .init (← r.need .vcom a.vcom)
  | _ => .error (.illegalOp r.opc)

/-- The command table of R105: code and command. -/
def commandTable (p : Params) : List (Word × Instr) :=
  [(p.cmdSysRun, .cmdSysRun), (p.cmdSleep, .cmdSleep), (p.cmdRegRd, .cmdRegRd), (p.cmdRegWr, .cmdRegWr),
   (p.cmdLdImg, .cmdLdImg), (p.cmdLdImgArea, .cmdLdImgArea), (p.cmdLdImgEnd, .cmdLdImgEnd),
   (p.cmdDpyArea, .cmdDpyArea), (p.cmdVcom, .cmdVcom), (p.cmdGetDevInfo, .cmdGetDevInfo)]

/-- Word 1 of a CMD frame against the command table (R105, R115). -/
def decodeCommand (p : Params) (code : Word) : Except Reject Instr :=
  match (commandTable p).find? fun e => e.1 == code with
  | some e => .ok e.2
  | none => .error (.unknownCommand code)

/-- What follows the command preamble: one code. -/
def decodeCmdRest (p : Params) : List Word → Except Reject Instr
  | [code] => decodeCommand p code
  | rest => .error (.badCommandLength rest.length)

/-- What follows the data preamble: at least one word of payload. -/
def decodeDataRest : List Word → Except Reject Instr
  | [] => .error .emptyData
  | w :: ws => .ok (.frameData (w :: ws))

/-- What follows the read preamble: `count + 1` dummy words. -/
def decodeReadRest (p : Params) : List Word → Except Reject Instr
  | [] => .error .emptyRead
  | w :: ws => if (w :: ws).all (· == p.dummy) then .ok (.frameRead ws.length) else .error .notDummy

/-- A frame by its preamble (R102, R103): CMD `[P_PRE_CMD, code]`, DATA `[P_PRE_DATA, d0, ..]`, READ
`[P_PRE_READ] ++ rep(count + 1, P_DUMMY)`. -/
def decodeFrame (p : Params) : List Word → Except Reject Instr
  | [] => .error .emptyFrame
  | w :: rest =>
    if w = Config.preCmd then decodeCmdRest p rest
    else if w = Config.preData then decodeDataRest rest
    else if w = Config.preRead then decodeReadRest p rest
    else .error (.reservedPreamble w)

/-- The image-load argument word (R106): END [15:8], FMT [7:4], ROT [3:0], with bits [15:9], [7:6] and [3:2] zero (the
table's mask 0xFECC). -/
def decodeLoadArg (w : Word) : Except Reject Instr :=
  if w &&& 0xFECC = 0 then .ok (.ldarg (w.extractLsb' 8 8) (w.extractLsb' 4 4) (w.extractLsb' 0 4))
  else .error (.reservedArgBits w)

def decodeWire (p : Params) : WireUnit → Except Reject Instr
  | .frame ws => decodeFrame p ws
  | .loadArg w => decodeLoadArg w

/-- The decoder: total on anything handed to it. -/
def decode (p : Params) : Encoded → Except Reject Instr
  | .host r => decodeHost p r
  | .wire u => decodeWire p u

/-- Bytes as they arrive, two to a word (R74, R79). -/
def wordsOfBytes : List Byte → Option (List Word)
  | [] => some []
  | [_] => none
  | b0 :: b1 :: rest => (wordsOfBytes rest).map (wordOfBytes b0 b1 :: ·)

/-- The bytes of one transaction as a frame. -/
def decodeFrameBytes (p : Params) (bs : List Byte) : Except Reject Instr :=
  match wordsOfBytes bs with
  | some ws => decodeFrame p ws
  | none => .error (.oddBytes bs.length)

/-! ### Encoding -/

/-- `arg = (END << 8) | (FMT << 4) | ROT` (R106). -/
def loadArgWord (endian : BitVec 8) (fmt rot : BitVec 4) : Word :=
  (endian.zeroExtend 16 <<< 8) ||| (fmt.zeroExtend 16 <<< 4) ||| rot.zeroExtend 16

/-- The READ frame that fetches `count` words (R103, R151). -/
def readFrame (p : Params) (count : Nat) : List Word := Config.preRead :: List.replicate (count + 1) p.dummy

/-- A host request with this opcode and these operands. -/
def hostReq (opc : Byte) (a : Operands) : Encoded := .host ⟨opc, a⟩

def cmdFrame (code : Word) : Encoded := .wire (.frame [Config.preCmd, code])

/-- The encoder, from the same tables (R103, R105, R106, R120). -/
def encode (p : Params) : Instr → Encoded
  | .xfer ws => hostReq 0x01 { ws := some ws }
  | .wcmd code wait => hostReq 0x02 { code := some code, wait := some wait }
  | .wdata w => hostReq 0x03 { w := some w }
  | .wwords ws chunk => hostReq 0x04 { ws := some ws, chunk := some chunk }
  | .rwords count => hostReq 0x05 { count := some count }
  | .hwreset => hostReq 0x06 {}
  | .rdstat => hostReq 0x07 {}
  | .pack2 pix => hostReq 0x10 { pix := some pix }
  | .pack3 pix => hostReq 0x11 { pix := some pix }
  | .pack4 pix => hostReq 0x12 { pix := some pix }
  | .pack8 pix => hostReq 0x13 { pix := some pix }
  | .qinfo => hostReq 0x20 {}
  | .rdreg addr => hostReq 0x21 { addr := some addr }
  | .wrreg addr value => hostReq 0x22 { addr := some addr, value := some value }
  | .getvcom => hostReq 0x23 {}
  | .setvcom v => hostReq 0x24 { v := some v }
  | .loadimgFull bpp rot pix => hostReq 0x25 { bpp := some bpp, rot := some rot, pix := some pix }
  | .loadimgArea bpp rot origin dims pix =>
      hostReq 0x26 { bpp := some bpp, rot := some rot, origin := origin, dims := dims, pix := some pix }
  | .dpyarea x y w h mode =>
      hostReq 0x27 { x := some x, y := some y, w := some w, h := some h, mode := some mode }
  | .waitdpy => hostReq 0x28 {}
  | .sleep => hostReq 0x29 {}
  | .wake => hostReq 0x2A {}
  | .init vcom => hostReq 0x2F { vcom := some vcom }
  | .cmdSysRun => cmdFrame p.cmdSysRun
  | .cmdSleep => cmdFrame p.cmdSleep
  | .cmdRegRd => cmdFrame p.cmdRegRd
  | .cmdRegWr => cmdFrame p.cmdRegWr
  | .cmdLdImg => cmdFrame p.cmdLdImg
  | .cmdLdImgArea => cmdFrame p.cmdLdImgArea
  | .cmdLdImgEnd => cmdFrame p.cmdLdImgEnd
  | .cmdDpyArea => cmdFrame p.cmdDpyArea
  | .cmdVcom => cmdFrame p.cmdVcom
  | .cmdGetDevInfo => cmdFrame p.cmdGetDevInfo
  | .frameData payload => .wire (.frame (Config.preData :: payload))
  | .frameRead count => .wire (.frame (readFrame p count))
  | .ldarg endian fmt rot => .wire (.loadArg (loadArgWord endian fmt rot))

/-! ### The decoder of a trace (R113; log 24) -/

/-- What a frame means in the command sequence it stands in (R104). `unplaced` is a DATA or READ frame that no command before
it has due there, as a raw operation can send. -/
inductive Role where
  | command
  | addr
  | value
  | selector
  | millivolts
  | loadArg
  | x
  | y
  | w
  | h
  | mode
  | payload
  | registerReply
  | infoReply
  | vcomReply
  | unplaced
  deriving DecidableEq, Repr

/-- The command sequences of R104: the DATA and READ frames that follow each command. What follows a VCOM command depends on
its selector word; `payload` stands for any number of frames. -/
def sequenceTable : List (Instr × List Role) :=
  [(.cmdSysRun, []), (.cmdSleep, []), (.cmdRegRd, [.addr, .registerReply]), (.cmdRegWr, [.addr, .value]),
   (.cmdLdImg, [.loadArg, .payload]), (.cmdLdImgArea, [.loadArg, .x, .y, .w, .h, .payload]), (.cmdLdImgEnd, []),
   (.cmdDpyArea, [.x, .y, .w, .h, .mode]), (.cmdVcom, [.selector]), (.cmdGetDevInfo, [.infoReply])]

/-- What follows a VCOM selector word (R104). -/
def afterSelector (p : Params) (v : Word) : List Role :=
  if v = p.vcomGet then [.vcomReply] else if v = p.vcomSet then [.millivolts] else []

/-- The words a reply's READ frame fetches (R104, R112). -/
def Role.replyWords : Role → Option Nat
  | .registerReply => some 1
  | .vcomReply => some 1
  | .infoReply => some Config.infoWords
  | _ => none

/-- A one-word DATA frame where `due` comes next: its role, and what is due after it. The load argument is told before, by
`traceUnit`. -/
def wordRole (p : Params) (v : Word) : List Role → Role × List Role
  | .payload :: rest => (.payload, .payload :: rest)
  | .selector :: _ => (.selector, afterSelector p v)
  | r :: rest => if r.replyWords = none ∧ r ≠ .command ∧ r ≠ .unplaced then (r, rest) else (.unplaced, [])
  | [] => (.unplaced, [])

/-- A longer DATA frame: payload, if that is due. -/
def payloadRole : List Role → Role × List Role
  | .payload :: rest => (.payload, .payload :: rest)
  | _ => (.unplaced, [])

/-- A READ frame for `n` words: the reply that is due, if that has as many. -/
def readRole (n : Nat) : List Role → Role × List Role
  | r :: rest => if r.replyWords = some n then (r, rest) else (.unplaced, [])
  | [] => (.unplaced, [])

/-- A decoded frame's role where `due` comes next, and what is due after it (R113). A command begins a sequence of its own. -/
def roleOf (p : Params) (due : List Role) (i : Instr) : Role × List Role :=
  match i with
  | .frameData [v] => wordRole p v due
  | .frameData _ => payloadRole due
  | .frameRead n => readRole n due
  | .ldarg _ _ _ => (.loadArg, due.tail)
  | i => (.command, ((sequenceTable.find? fun e => e.1 == i).map Prod.snd).getD [])

/-- A frame read back: its row, its role, and the words it carries: a DATA frame's payload, the words a READ frame fetched
(R152). -/
structure Decoded where
  row : Instr
  role : Role
  words : List Word
  deriving DecidableEq, Repr

def carried (i : Instr) (received : List Word) : List Word :=
  match i with
  | .frameData ws => ws
  | .frameRead _ => received.drop 2
  | .ldarg endian fmt rot => [loadArgWord endian fmt rot]
  | _ => []

/-- The unit a frame is: a one-word DATA frame where a load argument is due is that argument (R104, R106). -/
def traceUnit (due : List Role) (sent : List Word) : WireUnit :=
  match due, sent with
  | .loadArg :: _, [w0, w] => if w0 = Config.preData then .loadArg w else .frame sent
  | _, _ => .frame sent

/-- The decoder of a trace (R113), on the words sent and received by successive transactions: the kind from word 0, the command
from word 1, the meaning of what follows from the table of R104. `due` is what that table has still to come. -/
def decodeTraceFrom (p : Params) (due : List Role) : List (List Word × List Word) → List (Except Reject Decoded)
  | [] => []
  | (sent, received) :: rest =>
    match decodeWire p (traceUnit due sent) with
    | .ok i => .ok ⟨i, (roleOf p due i).1, carried i received⟩ :: decodeTraceFrom p (roleOf p due i).2 rest
    | .error e => .error e :: decodeTraceFrom p [] rest

def decodeTrace (p : Params) (frames : List (List Word × List Word)) : List (Except Reject Decoded) :=
  decodeTraceFrom p [] frames

/-! ### The words of spec/opcode_table.json -/

/-- Every operand at zero: what the bits the table does not give a host-operation row stand for (log 5). -/
def Operands.zero : Operands where
  ws := some []
  code := some 0
  wait := some 0
  w := some 0
  chunk := some 0
  count := some 0
  pix := some []
  addr := some 0
  value := some 0
  v := some 0
  bpp := some 0
  rot := some 0
  origin := none
  dims := none
  x := some 0
  y := some 0
  h := some 0
  mode := some 0
  vcom := some 0

/-- A table row's bits as what is handed to the decoder. 8 bits: a host opcode. 16 bits: word 0 of a DATA or READ frame,
followed by one word of zeros (their shortest length), or else an image-load argument word (log 8). 32 bits: a CMD frame as
the table numbers it, `word0<<16|word1`. -/
def tableEncoded (nbits w : Nat) : Option Encoded :=
  if w < 2 ^ nbits then
    match nbits with
    | 8 => some (.host ⟨BitVec.ofNat 8 w, Operands.zero⟩)
    | 16 =>
      let w0 : Word := BitVec.ofNat 16 w
      if w0 = Config.preData ∨ w0 = Config.preRead then some (.wire (.frame [w0, 0])) else some (.wire (.loadArg w0))
    | 32 => some (.wire (.frame [BitVec.ofNat 16 (w / 65536), BitVec.ofNat 16 w]))
    | _ => none
  else none

/-- The instruction the decoder reads from a table row's bits, at the parameters' defaults. -/
def decodeTableWord (nbits w : Nat) : Option Instr :=
  match tableEncoded nbits w with
  | some e => (decode Params.default e).toOption
  | none => none

end Sys2Proof
end

