-- ==== Sys2Proof/Machine/State.lean ====
section
/-! DEFINITION. State (10_state.md): the block's record of R30, the parameters, and the model's own fields for the
environment (log 2, log 10, log 17), all plain data; the state after a power-on reset (R52); the reasons a step stops. -/

namespace Sys2Proof.Machine

open Sys2Proof

/-- The named delays of R155: `P_T_RESET_LOW`, `P_T_POST_RESET`, `P_T_POLL`. No rule reads their length (R365). -/
inductive DelayName where
  | resetLow
  | postReset
  | poll
  deriving DecidableEq, Repr

/-- The two kinds of timeout (R144, R157, R300). -/
inductive TimeoutKind where
  | data
  | reset
  deriving DecidableEq, Repr

/-- The reasons of `F_PRECOND`, numbered as in 60_exceptions.md R300. -/
inductive Reason where
  | notConfigured
  | alreadyConfigured
  | infoRepeated
  | infoMissing
  | asleep
  | refreshMayBeActive
  | panelEmpty
  | areaOutOfPanel
  | areaMisaligned
  | pixelCount
  deriving DecidableEq, Repr

/-- A fault of the spec (R300, codes 3 to 6) with what it records. These are not the stops of a step (`Machine.Fault`):
the block TAKES them (R303), which is a next state. -/
inductive Cause where
  /-- Code 3. -/
  | precond (r : Reason)
  /-- Code 4, `F_PACK(MISALIGNED)`, with `N` and `G`. -/
  | packMisaligned (n g : Nat)
  /-- Code 5, with the operand's name. -/
  | operand (name : OperandName)
  /-- Code 6. -/
  | illegalOp
  deriving DecidableEq, Repr

/-- An element of `FAULT` (R45, R303; log 23): the cause (its code and reason) and the opcode. -/
structure FaultRec where
  cause : Cause
  opc : Byte
  deriving DecidableEq, Repr

/-- The status an `END` event carries (R48, R301, R303). -/
inductive EndStatus where
  | ok
  | config
  | fault (c : Cause)
  deriving DecidableEq, Repr

/-- The events of `TRACE` (R48). -/
inductive Event where
  | frame (sent received : List Word)
  | sigResetN (level : Bool)
  | delay (d : DelayName)
  | edge
  | prime
  | awaitOk
  | timeout (kind : TimeoutKind)
  | op (i : Instr)
  | endOp (st : EndStatus)
  deriving DecidableEq, Repr

/-- Where an operation's result (R47) comes from when it ends. -/
inductive ResultSpec where
  | none
  /-- PACK: the packed words. -/
  | packed (ws : List Word)
  /-- XFER: every word received. -/
  | rxAll
  /-- RWORDS: the words received from the third on (R152). -/
  | rxData
  /-- RDREG: the one data word. -/
  | rxWord
  /-- GETVCOM: that word as volts (R212). -/
  | rxVolts
  | deviceInfo
  | status
  deriving DecidableEq, Repr

/-- The atomic steps of the sequencer (R32, R88; log 18): the parts of a leg, in the order `SEQ` takes them. -/
inductive Act where
  /-- `Prime()` (R143). -/
  | prime
  /-- `Xfer(ws)` (R141): one transaction, indivisible with respect to other operations (R83). That it is one atomic step
  towards the edge agent too, with no interleaving point between its bytes, is the model's choice (log 29). -/
  | xfer (ws : List Word)
  /-- `Xfer` of a one-word DATA frame that carries the image-load argument (R104, R106). -/
  | xferArg (w : Word)
  /-- `Xfer` of a one-word DATA frame that carries a half of `IMG_ADDR` (R75, R124 SETBASE); `true` is the high half. -/
  | xferBase (high : Bool)
  /-- `Await(P_T_DATA)` (R144); sub-state AWAITING. -/
  | await
  /-- `Drive(RESET_N, v)` (R154). -/
  | drive (v : Bool)
  /-- `Delay` (R155); sub-state DELAYING. -/
  | delay (d : DelayName)
  /-- `StartupWait(P_T_RESET)` (R157); sub-state POLLING. -/
  | startupWait
  /-- The flag and DeviceInfo writes HWRESET begins with (R156). -/
  | beginReset
  /-- The QINFO body's writes (R201). -/
  | storeInfo
  | setRma (v : Bool)
  | setAsleep (v : Bool)
  | setConfigured
  /-- WAITDPY's test of the status word (R232): leave the poll loop or go round it again. -/
  | pollCheck
  /-- The end of the operation: response, `END(OK)`, `SEQ` back to IDLE (R46, R47). -/
  | finish (r : ResultSpec)
  deriving DecidableEq, Repr

/-- `SEQ` (R46). `busy opc todo`: the operation in progress by its opcode, and its position as the atomic steps still to
do. -/
inductive Seq where
  | idle
  | busy (opc : Byte) (todo : List Act)
  | halted
  deriving DecidableEq, Repr

/-- Eight version words (R39: `FWV[0..7]`, `LUTV[0..7]`). -/
structure VersionWords where
  w0 : Word
  w1 : Word
  w2 : Word
  w3 : Word
  w4 : Word
  w5 : Word
  w6 : Word
  w7 : Word
  deriving DecidableEq, Repr

/-- The DeviceInfo registers (R39), written all at once. -/
structure DeviceInfo where
  panelW : Word
  panelH : Word
  imgAddr : Word32
  fwv : VersionWords
  lutv : VersionWords
  deriving DecidableEq, Repr

/-- The result of an operation (R47). -/
inductive Result where
  | none
  | words (ws : List Word)
  | word (w : Word)
  | volts (q : Rat)
  /-- QINFO: the DeviceInfo record, versions as strings (R41, R201). -/
  | info (panelW panelH : Word) (imgAddr : Word32) (fw lut : List Char)
  /-- RDSTAT (R159). -/
  | status (tmo : Word32) (infoValid configured rma asleep : Bool)
  /-- `E_CONFIG`: the rejected value (R300, R301). -/
  | rejected (v : Rat)
  deriving DecidableEq, Repr

/-- The status of a response (R47). -/
inductive Status where
  | ok
  | config
  deriving DecidableEq, Repr

structure Response where
  status : Status
  result : Result
  deriving DecidableEq, Repr

/-- The state. The first group is R30's record, field by field (PANEL_W, PANEL_H, IMG_ADDR, FWV and LUTV are `info`, absent
while they hold no value: R40); `params` is configuration (R51, log 4); the rest is the model's own. -/
structure State where
  /-- RDY -/
  rdy : Bool
  /-- HPREV -/
  hprev : Bool
  /-- TMO -/
  tmo : Word32
  /-- RESET_N -/
  resetN : Bool
  /-- PANEL_W, PANEL_H, IMG_ADDR, FWV, LUTV -/
  info : Option DeviceInfo
  /-- INFO_VALID -/
  infoValid : Bool
  /-- CONFIGURED -/
  configured : Bool
  /-- RMA -/
  rma : Bool
  /-- ASLEEP -/
  asleep : Bool
  /-- FAULT, a set: no repeats -/
  faults : List FaultRec
  /-- SEQ -/
  seq : Seq
  /-- TRACE, oldest event first -/
  trace : List Event
  /-- The parameters of R5; nothing writes them. -/
  params : Params
  /-- The words the last transaction received (`rs` of R141). -/
  rdata : List Word
  /-- The response last given to the host (R47); none while an operation runs and after a fault. -/
  resp : Option Response
  /-- The present level of the HRDY input (R37). -/
  hrdy : Bool
  /-- What the environment does before each coming atomic step; then `Config.freeSlot slots`. -/
  script : List Slot
  slots : Nat
  /-- The bytes the controller sends next; then `Config.freeByte draws`. -/
  rx : List Byte
  draws : Nat
  /-- Operations the host has issued, in order, that the block has not accepted. -/
  requests : List HostReq
  deriving DecidableEq, Repr

/-- The block after a power-on reset (R52), with the parameters at their defaults, no request and nothing scripted. -/
def State.reset : State where
  rdy := false
  hprev := Config.hrdyAtPowerOn
  tmo := 0
  resetN := true
  info := none
  infoValid := false
  configured := false
  rma := true
  asleep := false
  faults := []
  seq := .idle
  trace := []
  params := Params.default
  rdata := []
  resp := none
  hrdy := Config.hrdyAtPowerOn
  script := []
  slots := 0
  rx := []
  draws := 0
  requests := []

/-- The reasons a step stops. Both are safe: the spec gives no step there. -/
inductive Fault where
  /-- Raised by `step` and by every meaning in the state HALTED: "After a fault the block takes no step and answers no host
  operation" (R303, log 11). Safe. -/
  | halted
  /-- Raised by the meaning of a host operation outside IDLE: while BUSY "the block accepts no host operation" (R46).
  `step` never raises it, since it takes a request only when IDLE (log 13). Safe. -/
  | notAccepted
  deriving DecidableEq, Repr

/-- Refusals. -/
inductive Refusal where
  /-- Raised by `exec` for an instruction that has no meaning in the model yet; safe. No arm of `exec` uses it. -/
  | notModelled (mnemonic : String)
  deriving DecidableEq, Repr

end Sys2Proof.Machine
end

