-- ==== Sys2Proof/Machine/Operands.lean ====
section
/-! DEFINITION. Operands: the range checks of 30_encoding.md R121 in the order of R306, the VCOM conversions (R110, R212,
R213, R219), the pixel-format operand (R107, R186), the split of a payload into chunks (R150), the views of DeviceInfo. -/

namespace Sys2Proof.Machine

/-! ### Ranges -/

/-- An operand's name if its range check failed. -/
def badUnless (ok : Bool) (name : OperandName) : Option OperandName := if ok then none else some name

/-- The first operand out of range, left to right in the order of the `operands` column of R120 (R121, R306). A wire row is
what the block itself sends: it has no operand to check. -/
def operandFault (p : Params) : Instr → Option OperandName
  | .xfer ws => badUnless (ws.all wordOk) .ws
  | .wcmd code wait => (badUnless (wordOk code) .code).or (badUnless (bitOk wait) .wait)
  | .wdata w => badUnless (wordOk w) .w
  | .wwords ws chunk => (badUnless (ws.all wordOk) .ws).or (badUnless (sizeOk chunk) .chunk)
  | .rwords count => badUnless (wordOk count) .count
  | .hwreset => none
  | .rdstat => none
  | .pack2 pix => badUnless (pix.all pixelOk) .pix
  | .pack3 pix => badUnless (pix.all pixelOk) .pix
  | .pack4 pix => badUnless (pix.all pixelOk) .pix
  | .pack8 pix => badUnless (pix.all pixelOk) .pix
  | .qinfo => none
  | .rdreg addr => badUnless (wordOk addr) .addr
  | .wrreg addr value => (badUnless (wordOk addr) .addr).or (badUnless (wordOk value) .value)
  | .getvcom => none
  | .setvcom _ => none
  | .loadimgFull bpp rot pix =>
      (badUnless (bppOk bpp) .bpp).or ((badUnless (rotOk rot) .rot).or (badUnless (pix.all pixelOk) .pix))
  | .loadimgArea bpp rot origin dims pix =>
      (badUnless (bppOk bpp) .bpp).or ((badUnless (rotOk rot) .rot).or
        ((badUnless (originOk origin && (origin.isSome || dims.isSome)) .origin).or
          ((badUnless (dimsOk dims) .dims).or (badUnless (pix.all pixelOk) .pix))))
  | .dpyarea x y w h mode =>
      (badUnless (wordOk x) .x).or ((badUnless (wordOk y) .y).or ((badUnless (sizeOk w) .w).or
        ((badUnless (sizeOk h) .h).or (badUnless (p.modes.contains mode) .mode))))
  | .waitdpy => none
  | .sleep => none
  | .wake => none
  | .init _ => none
  | .cmdSysRun => none
  | .cmdSleep => none
  | .cmdRegRd => none
  | .cmdRegWr => none
  | .cmdLdImg => none
  | .cmdLdImgArea => none
  | .cmdLdImgEnd => none
  | .cmdDpyArea => none
  | .cmdVcom => none
  | .cmdGetDevInfo => none
  | .frameData _ => none
  | .frameRead _ => none
  | .ldarg _ _ _ => none

/-! ### VCOM -/

/-- `trunc0(q)`: truncation toward zero (00_scope.md R8). -/
def trunc0 (q : Rat) : Int := q.num.tdiv q.den

/-- `m = trunc0(-P_VCOM_SCALE * v)`, exactly (R213, R219). -/
def millivolts (v : Rat) : Int := trunc0 (-Config.vcomScale * v)

/-- The VCOM word of SETVCOM (R110). -/
def vcomWord (v : Rat) : Word := wordOf (millivolts v)

/-- GETVCOM's result, `-sext_16(r) / P_VCOM_SCALE`, exactly (R212, R219). -/
def voltsOf (r : Word) : Rat := -(r.toInt : Rat) / Config.vcomScale

/-- `P_VCOM_LO < v < P_VCOM_HI` (R213, C5). -/
def vcomOk (v : Rat) : Bool := decide (Config.vcomLo < v ∧ v < Config.vcomHi)

/-! ### Pixel formats -/

/-- The pixel formats of R107. -/
inductive PixelFormat where
  | bpp2
  | bpp3
  | bpp4
  | bpp8
  deriving DecidableEq, Repr

/-- The `bpp` operand; every legal value is one of the first three or 8 (R121, R186). -/
def formatOf (bpp : Int) : PixelFormat :=
  if bpp = 2 then .bpp2 else if bpp = 3 then .bpp3 else if bpp = 4 then .bpp4 else .bpp8

/-- The group size `G`: pixels per word (R80, R107). -/
def PixelFormat.group : PixelFormat → Nat
  | .bpp2 => 8
  | .bpp3 => 4
  | .bpp4 => 4
  | .bpp8 => 2

/-- The width `B = 16 / G` of a pixel's field (R107, R180). -/
def PixelFormat.fieldBits : PixelFormat → Nat
  | .bpp2 => 2
  | .bpp3 => 4
  | .bpp4 => 4
  | .bpp8 => 8

/-- The `FMT` code (R107). -/
def PixelFormat.code (p : Params) : PixelFormat → BitVec 4
  | .bpp2 => p.fmt2
  | .bpp3 => p.fmt3
  | .bpp4 => p.fmt4
  | .bpp8 => p.fmt8

/-- The `ROT` code of a rotation operand: `P_ROT`, in the order of 30_encoding.md R108 (log 28). At the defaults it is the
operand itself, as R221 writes it. -/
def rotCode (p : Params) (rot : Int) : BitVec 4 :=
  if rot = 0 then p.rotNone else if rot = 1 then p.rotRight else if rot = 2 then p.rotHalf else p.rotLeft

/-- `arg(bpp, rot)` (42_protocol.md R221). -/
def loadArg (p : Params) (bpp rot : Int) : Word := loadArgWord p.endian ((formatOf bpp).code p) (rotCode p rot)

/-! ### Chunks and groups -/

/-- A list cut into runs of `k`, the last one shorter if need be; the first argument bounds the number of runs. -/
def chunksFrom {α : Type} : Nat → Nat → List α → List (List α)
  | 0, _, _ => []
  | fuel + 1, k, l => if l.isEmpty then [] else l.take k :: chunksFrom fuel k (l.drop k)

/-- The runs `l[0..k), l[k..2k), ...` of a list (the chunk loop of R150, the groups of R180). -/
def chunksOf {α : Type} (k : Nat) (l : List α) : List (List α) := chunksFrom l.length k l

/-! ### DeviceInfo -/

/-- `r[2] | (r[3] << 16)`: low word first (20_memory.md R75). -/
def imgAddrOf (lo hi : Word) : Word32 := lo.zeroExtend 32 ||| (hi.zeroExtend 32 <<< 16)

/-- `IMG_ADDR[31:16]` or `IMG_ADDR[15:0]` (R75). -/
def addrHalf (high : Bool) (a : Word32) : Word := if high then a.extractLsb' 16 16 else a.extractLsb' 0 16

/-- DeviceInfo from what the GET_DEV_INFO READ frame received: two words to discard (R152) and the 20-word reply of R112.
Any other number of words is no reply. -/
def deviceInfoOf : List Word → Option DeviceInfo
  | [_, _, r0, r1, r2, r3, r4, r5, r6, r7, r8, r9, r10, r11, r12, r13, r14, r15, r16, r17, r18, r19] =>
    some { panelW := r0, panelH := r1, imgAddr := imgAddrOf r2 r3
           fwv := ⟨r4, r5, r6, r7, r8, r9, r10, r11⟩, lutv := ⟨r12, r13, r14, r15, r16, r17, r18, r19⟩ }
  | _ => none

/-- A version array as its words in order. -/
def VersionWords.toList (v : VersionWords) : List Word := [v.w0, v.w1, v.w2, v.w3, v.w4, v.w5, v.w6, v.w7]

/-- `str(V)`: 16 characters, each word's high byte first, kept as they are (10_state.md R41, 20_memory.md R76; log 19). -/
def VersionWords.chars (v : VersionWords) : List Char :=
  (bytesOfWords v.toList).map fun b => Char.ofNat b.toNat

end Sys2Proof.Machine
end

