-- ==== Sys2Proof/Machine/Flags.lean ====
section
/-! DEFINITION. The block flags as the checks read them (10_state.md R33): the preconditions of 42_protocol.md R200, the
DeviceInfo guard (10_state.md R40) and the rectangle checks (42_protocol.md R220, 20_memory.md R81). The block has no
arithmetic condition codes (R33). Each check is `none` when it passes. Then the cause
codes of 60_exceptions.md R300. -/

namespace Sys2Proof.Machine

/-- The column `CONFIGURED = 1` of R200. -/
def State.needConfigured (s : State) : Option Reason := if s.configured then none else some .notConfigured

/-- The column `ASLEEP = 0`. -/
def State.needAwake (s : State) : Option Reason := if s.asleep then some .asleep else none

/-- The column `RMA = 0` (R43). -/
def State.needNoRefresh (s : State) : Option Reason := if s.rma then some .refreshMayBeActive else none

/-- QINFO's own column: `INFO_VALID = 0` (R201, D24). -/
def State.needNoInfo (s : State) : Option Reason := if s.infoValid then some .infoRepeated else none

/-- INIT's row: `CONFIGURED` must be 0 (R240). -/
def State.needUnconfigured (s : State) : Option Reason := if s.configured then some .alreadyConfigured else none

/-- Register access and VCOM: the first two columns. -/
def State.needReady (s : State) : Option Reason := s.needConfigured.or s.needAwake

/-- Load, display and sleep: all three columns, left to right. -/
def State.needReadyIdle (s : State) : Option Reason := s.needReady.or s.needNoRefresh

/-- DeviceInfo as an operation may read it: no value while `INFO_VALID = 0` (R40). -/
def State.readInfo (s : State) : Option DeviceInfo := if s.infoValid then s.info else none

/-- A check that reads DeviceInfo; without a value it is `INFO_MISSING` (R40, log 12). -/
def State.withInfo (s : State) (check : DeviceInfo → Option Reason) : Option Reason :=
  match s.readInfo with
  | some d => check d
  | none => some .infoMissing

/-- `PANEL_EMPTY` (R220). -/
def panelEmpty (d : DeviceInfo) : Option Reason := if d.panelW = 0 ∨ d.panelH = 0 then some .panelEmpty else none

/-- One direction of the alignment rule (R81): the origin is a multiple, and the size is one or reaches the panel's edge. -/
def edgeAligned (align : Nat) (start size panel : Int) : Bool :=
  decide (start % align = 0 ∧ (size % align = 0 ∨ start + size = panel))

/-- The rectangle checks of R220, in order; the sums do not wrap. -/
def rectReason (p : Params) (d : DeviceInfo) (x y w h : Int) : Option Reason :=
  (panelEmpty d).or
    (if x + w > d.panelW.toNat ∨ y + h > d.panelH.toNat then some .areaOutOfPanel
     else if edgeAligned p.areaAlign x w d.panelW.toNat && edgeAligned p.areaAlign y h d.panelH.toNat then none
     else some .areaMisaligned)

/-- `PIXEL_COUNT` (R224). -/
def pixelCount (n : Nat) (w h : Int) : Option Reason := if (n : Int) = w * h then none else some .pixelCount

/-- `F_PACK(MISALIGNED)` (R180, R80). -/
def packCause (f : PixelFormat) (n : Nat) : Option Cause :=
  if n % f.group = 0 then none else some (.packMisaligned n f.group)

/-! ### Cause codes (60_exceptions.md R300) -/

/-- The cause code of a fault (codes 3 to 6). -/
def Cause.code : Cause → Nat
  | .precond _ => 3
  | .packMisaligned _ _ => 4
  | .operand _ => 5
  | .illegalOp => 6

/-- The number of an `F_PRECOND` reason. -/
def Reason.number : Reason → Nat
  | .notConfigured => 1
  | .alreadyConfigured => 2
  | .infoRepeated => 3
  | .infoMissing => 4
  | .asleep => 5
  | .refreshMayBeActive => 6
  | .panelEmpty => 7
  | .areaOutOfPanel => 8
  | .areaMisaligned => 9
  | .pixelCount => 10

/-- The cause code an operation ends with, if it has one: `E_CONFIG` is code 1. -/
def EndStatus.code : EndStatus → Option Nat
  | .ok => none
  | .config => some 1
  | .fault c => some c.code

/-- The cause code of a response's status. -/
def Status.code : Status → Option Nat
  | .ok => none
  | .config => some 1

/-- The cause code an event reports: `EV_TIMEOUT` is code 2, of either kind. -/
def Event.code : Event → Option Nat
  | .timeout _ => some 2
  | .endOp st => st.code
  | _ => none

end Sys2Proof.Machine
end

