-- ==== Sys2Proof/Machine/Ops.lean ====
section
/-! DEFINITION. The shared operations: the environment and the edge agent at an interleaving point, taking a fault
(60_exceptions.md R303) and a configuration error (R301), the transport primitives as atomic steps of the sequencer
(40_transport.md), the legs the operations are built of, and the running of one host operation (R306, R46). There is no
return from a fault (R309). -/

namespace Sys2Proof.Machine

/-! ### The environment and the edge agent -/

/-- What the environment and the edge agent share: the HRDY level, HPREV, RDY, and the edges seen so far. -/
structure ReadyPath where
  hrdy : Bool
  hprev : Bool
  rdy : Bool
  edges : Nat
  deriving DecidableEq, Repr

/-- `EdgeStep` (R304): a sample of 1 with HPREV 0 sets RDY and emits EDGE; every sample writes HPREV. -/
def edgeStep (r : ReadyPath) : ReadyPath :=
  let rising := r.hrdy && !r.hprev
  { r with rdy := r.rdy || rising, edges := r.edges + rising.toNat, hprev := r.hrdy }

def envMove (r : ReadyPath) : EnvMove → ReadyPath
  | .pin level => { r with hrdy := level }
  | .edge => edgeStep r

/-- What happens at the coming interleaving point: scripted, or free (log 2). -/
def nextSlot (s : State) : Slot :=
  match s.script with
  | [] => Config.freeSlot s.slots
  | slot :: _ => slot

/-- The ready path after the moves of the coming interleaving point. -/
def readyAfter (s : State) : ReadyPath := (nextSlot s).moves.foldl envMove ⟨s.hrdy, s.hprev, s.rdy, 0⟩

/-- One interleaving point (R88): the environment's moves, each edge step atomic, before the sequencer's next atomic
step. Only RDY, HPREV and TRACE of the block can change (R304, R53). -/
def environment (s : State) : State :=
  { s with
    rdy := (readyAfter s).rdy
    hprev := (readyAfter s).hprev
    hrdy := (readyAfter s).hrdy
    trace := s.trace ++ List.replicate (readyAfter s).edges .edge
    script := s.script.tail
    slots := s.slots + 1 }

/-! ### Events, faults, errors -/

/-- `emit Ev` (R48). -/
def emit (e : Event) (s : State) : State := { s with trace := s.trace ++ [e] }

/-- A fault added to the set `FAULT` (R45). -/
def addFault (f : FaultRec) (fs : List FaultRec) : List FaultRec := if fs.contains f then fs else fs ++ [f]

/-- `fault F(reason)` (R303), one atomic step: FAULT, the END event, SEQ; no response. -/
def takeFault (opc : Byte) (c : Cause) (s : State) : State :=
  { s with faults := addFault ⟨c, opc⟩ s.faults, trace := s.trace ++ [.endOp (.fault c)], seq := .halted }

/-- `raise ConfigError(v)` (R301): the response `(E_CONFIG, v)`, `END(E_CONFIG)`, SEQ back to IDLE. -/
def configError (v : Rat) (s : State) : State :=
  { s with resp := some ⟨.config, .rejected v⟩, trace := s.trace ++ [.endOp .config], seq := .idle }

/-! ### The legs (40_transport.md, 30_encoding.md R104, R124) -/

/-- `GX` of a transaction (R147): `Prime`, `Xfer`, `Await`. -/
def gated (x : Act) : List Act := [.prime, x, .await]

/-- A CMD frame (R103). -/
def cmdActs (code : Word) : List Act := gated (.xfer [Config.preCmd, code])

/-- An argument word in a one-word DATA frame of its own (R104). -/
def argActs (w : Word) : List Act := gated (.xfer [Config.preData, w])

/-- `CMDARGS c, a1, ..., an` (R124). -/
def cmdArgs (code : Word) (args : List Word) : List Act := cmdActs code ++ args.flatMap argActs

/-- `READ(count)` (R151). -/
def readActs (p : Params) (count : Nat) : List Act := gated (.xfer (readFrame p count))

/-- The chunk loop of WWORDS (R150). -/
def payloadActs (chunk : Nat) (ws : List Word) : List Act :=
  (chunksOf chunk ws).flatMap fun c => gated (.xfer (Config.preData :: c))

/-- The RDREG body (R210). -/
def rdregActs (p : Params) (addr : Word) : List Act := cmdArgs p.cmdRegRd [addr] ++ readActs p 1

/-- The WRREG body (R211). -/
def wrregActs (p : Params) (addr value : Word) : List Act := cmdArgs p.cmdRegWr [addr, value]

/-- One round of WAITDPY's poll loop, with the end it leads to (R232). -/
def pollActs (p : Params) : List Act := rdregActs p p.regStatus ++ [.pollCheck, .finish .none]

/-! ### The atomic steps -/

/-- The `j`-th byte received from now on: an oracle draw (R37, R141). -/
def rxByte (s : State) (j : Nat) : Byte := s.rx.getD j (Config.freeByte (s.draws + j))

/-- The words an `Xfer` of `n` words receives: `rs[i] = (b[2i] << 8) | b[2i+1]` (R141, log 21). -/
def receive (s : State) (n : Nat) : List Word :=
  (List.range n).map fun i => wordOfBytes (rxByte s (2 * i)) (rxByte s (2 * i + 1))

/-- `Xfer(ws)` (R141): as many words received as sent, one FRAME event; an empty `ws` does nothing (D17). It is one atomic
step (log 29). -/
def transact (ws : List Word) (s : State) : State :=
  { s with
    rdata := receive s ws.length
    rx := s.rx.drop (2 * ws.length)
    draws := s.draws + 2 * ws.length
    trace := s.trace ++ (if ws.isEmpty then [] else [.frame ws (receive s ws.length)]) }

/-- The result an operation ends with (R47). The words of a READ frame after its first two are the data (R152). -/
def resultOf (s : State) : ResultSpec → Result
  | .none => .none
  | .packed ws => .words ws
  | .rxAll => .words s.rdata
  | .rxData => .words (s.rdata.drop 2)
  | .rxWord =>
    match s.rdata.drop 2 with
    | r :: _ => .word r
    | [] => .none
  | .rxVolts =>
    match s.rdata.drop 2 with
    | r :: _ => .volts (voltsOf r)
    | [] => .none
  | .deviceInfo =>
    match s.info with
    | some d => .info d.panelW d.panelH d.imgAddr d.fwv.chars d.lutv.chars
    | none => .none
  | .status => .status s.tmo s.infoValid s.configured s.rma s.asleep

/-- One atomic step of the sequencer, for the operation `opc`. `expire` is the environment's choice of the timeout where
the startup wait could also end (R157; no time, log 15). -/
def perform (opc : Byte) (a : Act) (expire : Bool) (s : State) : State :=
  match a with
  | .prime => { s with rdy := false, trace := s.trace ++ [.prime] }
  | .xfer ws => transact ws s
  | .xferArg w => transact [Config.preData, w] s
  | .xferBase high =>
    match s.readInfo with
    | some d => transact [Config.preData, addrHalf high d.imgAddr] s
    | none => takeFault opc (.precond .infoMissing) s
  | .await =>
    { s with
      rdy := false
      tmo := if s.rdy then s.tmo else s.tmo + 1
      trace := s.trace ++ [if s.rdy then .awaitOk else .timeout .data] }
  | .drive v => { s with resetN := v, trace := s.trace ++ [.sigResetN v] }
  | .delay d => emit (.delay d) s
  | .startupWait =>
    let ok := s.hrdy && !expire
    { s with
      tmo := if ok then s.tmo else s.tmo + 1
      trace := s.trace ++ (if ok then [] else [.timeout .reset]) }
  | .beginReset =>
    { s with infoValid := false, configured := false, asleep := false, rma := true, info := none }
  | .storeInfo =>
    match deviceInfoOf s.rdata with
    | some d => { s with info := some d, infoValid := true }
    | none => takeFault opc (.precond .infoMissing) s
  | .setRma v => { s with rma := v }
  | .setAsleep v => { s with asleep := v }
  | .setConfigured => { s with configured := true }
  | .pollCheck =>
    if s.rdata[2]? = some 0 then { s with rma := false }
    else { s with seq := .busy opc (.delay .poll :: pollActs s.params) }
  | .finish r =>
    { s with seq := .idle, resp := some ⟨.ok, resultOf s r⟩, trace := s.trace ++ [.endOp .ok] }

/-- An interleaving point and then one atomic step. -/
def stepAct (opc : Byte) (a : Act) (s : State) : State := perform opc a (nextSlot s).expire (environment s)

/-- The sequencer's next atomic step (R32, R46). An operation with nothing left to do ends; IDLE and HALTED take none. -/
def tick (s : State) : State :=
  match s.seq with
  | .busy opc (a :: rest) => stepAct opc a { s with seq := .busy opc rest }
  | .busy opc [] => stepAct opc (.finish .none) s
  | .idle => s
  | .halted => s

/-- Up to `n` atomic steps: fewer when the operation ends or faults on the way. -/
def ticks : Nat → State → State
  | 0, s => s
  | n + 1, s => ticks n (tick s)

/-- The sub-states of BUSY (R46). -/
inductive SubState where
  | awaiting
  | polling
  | delaying
  deriving DecidableEq, Repr

/-- The sub-state the sequencer is in, read off its position (R46). -/
def Seq.subState : Seq → Option SubState
  | .busy _ (.await :: _) => some .awaiting
  | .busy _ (.startupWait :: _) => some .polling
  | .busy _ (.delay _ :: _) => some .delaying
  | _ => none

/-! ### One host operation -/

/-- What an operation's rule gives beside its operands: its preconditions, its packing check, its configuration check (the
value rejected), and its legs. -/
structure Plan where
  precond : Option Reason := none
  pack : Option Cause := none
  config : Option Rat := none
  prog : List Act

/-- The first check that fails, in the order of R306: operands, preconditions, packing. -/
def firstFault (i : Instr) (plan : Plan) (s : State) : Option Cause :=
  ((operandFault s.params i).map .operand).or ((plan.precond.map .precond).or plan.pack)

/-- The operation is accepted: `OP` is emitted (R48, log 9); no operand or word of an earlier one is left (R31). -/
def accept (i : Instr) (s : State) : State := { s with trace := s.trace ++ [.op i], resp := none, rdata := [] }

/-- BUSY at the first of `prog` (R46). -/
def load (opc : Byte) (prog : List Act) (s : State) : State := { s with seq := .busy opc prog }

/-- A host operation that IDLE accepts: the checks of R306, then its legs to their end. That `OP`, the checks and an `END` that
a check leads to are one step, with no interleaving point between them, is the model's choice (log 26): 60_exceptions.md
R303 makes one step of the fault alone, and 20_memory.md R88 and 60_exceptions.md R304 leave the rest open. -/
def runPlan (i : Instr) (plan : Plan) (s : State) : State :=
  match firstFault i plan s with
  | some c => takeFault i.opc c (accept i s)
  | none =>
    match plan.config with
    | some v => configError v (accept i s)
    | none => ticks plan.prog.length (load i.opc plan.prog (accept i s))

/-- A host operation in any state: HALTED takes no step (R303), BUSY accepts none (R46). -/
def runOp (i : Instr) (plan : Plan) (s : State) : Host.Outcome State Fault Refusal :=
  match s.seq with
  | .idle => .next (runPlan i plan s)
  | .busy _ _ => .fault .notAccepted
  | .halted => .fault .halted

/-- `GX` (R147) of one transaction, with its three interleaving points. -/
def gx (x : Act) (s : State) : State := stepAct 0x00 .await (stepAct 0x00 x (stepAct 0x00 .prime s))

/-- A wire row (log 7): its frame is sent as one gated transaction. HALTED takes no step (R303). -/
def runWire (x : Act) (s : State) : Host.Outcome State Fault Refusal :=
  match s.seq with
  | .halted => .fault .halted
  | .idle => .next (gx x s)
  | .busy _ _ => .next (gx x s)

end Sys2Proof.Machine
end

