-- ==== Sys2Proof/Machine/Packer.lean ====
section
/-! DEFINITION. The Pixel Packer (41_pixel_packer.md R180 to R186), and the test-only inverse of R185. -/

namespace Sys2Proof.Machine

/-! ### The packing functions -/

/-- `q3(p)` under the two readings of `P_PACK3` (R182). -/
def q3 (r : Pack3Rule) (p : Byte) : Byte :=
  match r with
  | .maskFirst => (p &&& 0xFE) >>> 4
  | .shiftFirst => (p >>> 4) &&& 0x0E

/-- The field a pixel contributes (R181 to R184). -/
def pixelField (r : Pack3Rule) (f : PixelFormat) (p : Byte) : Byte :=
  match f with
  | .bpp2 => p >>> 6
  | .bpp3 => q3 r p
  | .bpp4 => p >>> 4
  | .bpp8 => p

/-- One word from one group: pixel `j` in the bits from `B*j` up, the first pixel least significant (R180, R77, C1). -/
def packGroup (r : Pack3Rule) (f : PixelFormat) : List Byte → Word
  | [] => 0
  | p :: ps => (pixelField r f p).zeroExtend 16 ||| (packGroup r f ps <<< f.fieldBits)

/-- Word `i` from the group `PIX[G*i .. G*i + G)` alone, in order (R180). -/
def packPixels (r : Pack3Rule) (f : PixelFormat) (pix : List Byte) : List Word :=
  (chunksOf f.group pix).map (packGroup r f)

/-! ### The inverse (R185; test only, not part of the block) -/

/-- Field `j` of `B` bits of a word. -/
def wordField (w : Word) (b j : Nat) : Byte := (w >>> (b * j)).setWidth 8 &&& BitVec.ofNat 8 (2 ^ b - 1)

/-- `unpack_f(w)` (R185). -/
def unpackWord : PixelFormat → Word → List Byte
  | .bpp2, w => (List.range 8).map fun j => wordField w 2 j <<< 6
  | .bpp3, w => (List.range 4).map fun j => (wordField w 4 j &&& 0x0E) <<< 4
  | .bpp4, w => (List.range 4).map fun j => wordField w 4 j <<< 4
  | .bpp8, w => (List.range 2).map fun j => wordField w 8 j

/-- The pixel bits a format keeps (R185). -/
def keptMask : PixelFormat → Byte
  | .bpp2 => 0xC0
  | .bpp3 => 0xE0
  | .bpp4 => 0xF0
  | .bpp8 => 0xFF

/-! ### The operations -/

/-- The plan of a PACK operation: the multiple-of-`G` check, then the words as the result (R180). -/
def packPlan (s : State) (f : PixelFormat) (pix : List Int) : Plan :=
  { pack := packCause f pix.length
    prog := [.finish (.packed (packPixels s.params.pack3 f (pix.map byteOf)))] }

/-- PACK2 (R181). -/
def execPack2 (pix : List Int) (s : State) : Host.Outcome State Fault Refusal :=
  runOp (.pack2 pix) (packPlan s .bpp2 pix) s

/-- PACK3 (R182). -/
def execPack3 (pix : List Int) (s : State) : Host.Outcome State Fault Refusal :=
  runOp (.pack3 pix) (packPlan s .bpp3 pix) s

/-- PACK4 (R183). -/
def execPack4 (pix : List Int) (s : State) : Host.Outcome State Fault Refusal :=
  runOp (.pack4 pix) (packPlan s .bpp4 pix) s

/-- PACK8 (R184). -/
def execPack8 (pix : List Int) (s : State) : Host.Outcome State Fault Refusal :=
  runOp (.pack8 pix) (packPlan s .bpp8 pix) s

end Sys2Proof.Machine
end

