-- ==== Sys2Proof/Machine/Transport.lean ====
section
/-! DEFINITION. The host operations of the Transport (40_transport.md R141, R148 to R151, R156, R159). The raw ones check
nothing but their operands and set RMA when they end (R158). -/

namespace Sys2Proof.Machine

/-- XFER (R141). -/
def xferActs (ws : List Int) : List Act := [.xfer (ws.map wordOf), .setRma true, .finish .rxAll]

def execXfer (ws : List Int) (s : State) : Host.Outcome State Fault Refusal :=
  runOp (.xfer ws) { prog := xferActs ws } s

/-- WCMD (R148); with `wait = 0` neither `Prime` nor `Await` (R153). -/
def wcmdActs (code wait : Int) : List Act :=
  (if wait = 1 then cmdActs (wordOf code) else [.xfer [Config.preCmd, wordOf code]]) ++ [.setRma true, .finish .none]

def execWcmd (code wait : Int) (s : State) : Host.Outcome State Fault Refusal :=
  runOp (.wcmd code wait) { prog := wcmdActs code wait } s

/-- WDATA (R149). -/
def wdataActs (w : Int) : List Act := argActs (wordOf w) ++ [.setRma true, .finish .none]

def execWdata (w : Int) (s : State) : Host.Outcome State Fault Refusal :=
  runOp (.wdata w) { prog := wdataActs w } s

/-- WWORDS (R150). -/
def wwordsActs (ws : List Int) (chunk : Int) : List Act :=
  payloadActs chunk.toNat (ws.map wordOf) ++ [.setRma true, .finish .none]

def execWwords (ws : List Int) (chunk : Int) (s : State) : Host.Outcome State Fault Refusal :=
  runOp (.wwords ws chunk) { prog := wwordsActs ws chunk } s

/-- RWORDS (R151, R152). -/
def rwordsActs (p : Params) (count : Int) : List Act := readActs p count.toNat ++ [.setRma true, .finish .rxData]

def execRwords (count : Int) (s : State) : Host.Outcome State Fault Refusal :=
  runOp (.rwords count) { prog := rwordsActs s.params count } s

/-- The HWRESET body (R156): pulse, post-reset delay, startup wait. -/
def hwresetBody : List Act :=
  [.beginReset, .drive false, .delay .resetLow, .drive true, .delay .postReset, .startupWait]

/-- HWRESET (R156). -/
def execHwreset (s : State) : Host.Outcome State Fault Refusal :=
  runOp .hwreset { prog := hwresetBody ++ [.finish .none] } s

/-- RDSTAT (R159). -/
def execRdstat (s : State) : Host.Outcome State Fault Refusal :=
  runOp .rdstat { prog := [.finish .status] } s

end Sys2Proof.Machine
end

