-- ==== Sys2Proof/Machine/Protocol.lean ====
section
/-! DEFINITION. The Controller Protocol engine (42_protocol.md R200 to R240). -/

namespace Sys2Proof.Machine

/-! ### Device information, registers, VCOM -/

/-- The QINFO body (R201). -/
def qinfoBody (p : Params) : List Act := cmdArgs p.cmdGetDevInfo [] ++ readActs p Config.infoWords ++ [.storeInfo]

/-- QINFO (R201; admitted at power-on, log 25). -/
def execQinfo (s : State) : Host.Outcome State Fault Refusal :=
  runOp .qinfo
    { precond := s.needAwake.or s.needNoInfo
      prog := qinfoBody s.params ++ [.finish .deviceInfo] } s

/-- RDREG (R210). -/
def execRdreg (addr : Int) (s : State) : Host.Outcome State Fault Refusal :=
  runOp (.rdreg addr)
    { precond := s.needReady
      prog := rdregActs s.params (wordOf addr) ++ [.finish .rxWord] } s

/-- WRREG (R211). -/
def execWrreg (addr value : Int) (s : State) : Host.Outcome State Fault Refusal :=
  runOp (.wrreg addr value)
    { precond := s.needReady
      prog := wrregActs s.params (wordOf addr) (wordOf value) ++ [.finish .none] } s

/-- GETVCOM (R212). -/
def execGetvcom (s : State) : Host.Outcome State Fault Refusal :=
  runOp .getvcom
    { precond := s.needReady
      prog := cmdArgs s.params.cmdVcom [s.params.vcomGet] ++ readActs s.params 1 ++ [.finish .rxVolts] } s

/-- The SETVCOM body (R213). -/
def setvcomBody (p : Params) (v : Rat) : List Act := cmdArgs p.cmdVcom [p.vcomSet, vcomWord v]

/-- The configuration check of SETVCOM and INIT (R213, R240, R301). -/
def vcomCheck (v : Rat) : Option Rat := if vcomOk v then none else some v

/-- SETVCOM (R213). -/
def execSetvcom (v : Rat) (s : State) : Host.Outcome State Fault Refusal :=
  runOp (.setvcom v)
    { precond := s.needReady
      config := vcomCheck v
      prog := setvcomBody s.params v ++ [.finish .none] } s

/-! ### Image load -/

/-- A load's legs (R222, R223, R225): the command, its argument words with the load argument first, every payload chunk,
the end command. -/
def loadActs (p : Params) (code : Word) (bpp rot : Int) (rect : List Word) (pix : List Int) : List Act :=
  cmdActs code ++ gated (.xferArg (loadArg p bpp rot)) ++ rect.flatMap argActs ++
    payloadActs p.chunk (packPixels p.pack3 (formatOf bpp) (pix.map byteOf)) ++
    cmdActs p.cmdLdImgEnd ++ [.finish .none]

/-- LOADIMG.FULL (R222). -/
def execLoadimgFull (bpp rot : Int) (pix : List Int) (s : State) : Host.Outcome State Fault Refusal :=
  runOp (.loadimgFull bpp rot pix)
    { precond := s.needReadyIdle.or
        (s.withInfo fun d => (panelEmpty d).or (pixelCount pix.length d.panelW.toNat d.panelH.toNat))
      pack := packCause (formatOf bpp) pix.length
      prog := loadActs s.params s.params.cmdLdImg bpp rot [] pix } s

/-- The rectangle of LOADIMG.AREA: a missing origin is (0, 0), missing dims are the panel's (R223, D27). -/
def areaRect (origin dims : Option (Int × Int)) (d : Option DeviceInfo) : (Int × Int) × (Int × Int) :=
  (origin.getD (0, 0),
   dims.getD (match d with
     | some d => (d.panelW.toNat, d.panelH.toNat)
     | none => (0, 0)))

/-- LOADIMG.AREA (R223). -/
def execLoadimgArea (bpp rot : Int) (origin dims : Option (Int × Int)) (pix : List Int) (s : State) :
    Host.Outcome State Fault Refusal :=
  let r := areaRect origin dims s.readInfo
  runOp (.loadimgArea bpp rot origin dims pix)
    { precond := s.needReadyIdle.or
        (s.withInfo fun d =>
          (rectReason s.params d r.1.1 r.1.2 r.2.1 r.2.2).or (pixelCount pix.length r.2.1 r.2.2))
      pack := packCause (formatOf bpp) pix.length
      prog := loadActs s.params s.params.cmdLdImgArea bpp rot
        [wordOf r.1.1, wordOf r.1.2, wordOf r.2.1, wordOf r.2.2] pix } s

/-! ### Display and refresh -/

/-- DPYAREA (R230). -/
def execDpyarea (x y w h mode : Int) (s : State) : Host.Outcome State Fault Refusal :=
  runOp (.dpyarea x y w h mode)
    { precond := s.needReadyIdle.or (s.withInfo fun d => rectReason s.params d x y w h)
      prog := cmdArgs s.params.cmdDpyArea [wordOf x, wordOf y, wordOf w, wordOf h, wordOf mode] ++
        [.setRma true, .finish .none] } s

/-- WAITDPY (R232): its first poll. A nonzero status leaves it BUSY in the poll loop, past the poll delay; the following
steps go on with the loop, for ever if the controller never answers zero (R233, log 1). -/
def execWaitdpy (s : State) : Host.Outcome State Fault Refusal :=
  runOp .waitdpy { precond := s.needReady, prog := pollActs s.params } s

/-! ### Power state -/

/-- SLEEP (R234). -/
def execSleep (s : State) : Host.Outcome State Fault Refusal :=
  runOp .sleep
    { precond := s.needReadyIdle
      prog := cmdArgs s.params.cmdSleep [] ++ [.setAsleep true, .finish .none] } s

/-- WAKE (R235). -/
def execWake (s : State) : Host.Outcome State Fault Refusal :=
  runOp .wake
    { precond := s.needConfigured
      prog := cmdArgs s.params.cmdSysRun [] ++ [.setAsleep false, .finish .none] } s

/-! ### Initialisation -/

/-- SETBASE IMG_ADDR (R124): the high half to `P_REG_LISAR_H`, then the low half to `P_REG_LISAR_L` (R75). -/
def setBaseActs (p : Params) : List Act :=
  cmdArgs p.cmdRegWr [p.regLisarH] ++ gated (.xferBase true) ++
    (cmdArgs p.cmdRegWr [p.regLisarL] ++ gated (.xferBase false))

/-- ENPACKED (R124). -/
def enPackedActs (p : Params) : List Act := wrregActs p p.regI80cpcr p.packedOn

/-- INIT's legs (R240): reset, SYS_RUN, QINFO, SETBASE, ENPACKED, SETVCOM, then CONFIGURED. -/
def initActs (p : Params) (vcom : Rat) : List Act :=
  hwresetBody ++ cmdArgs p.cmdSysRun [] ++ qinfoBody p ++ setBaseActs p ++ enPackedActs p ++ setvcomBody p vcom ++
    [.setConfigured, .finish .none]

/-- INIT (R240). -/
def execInit (vcom : Rat) (s : State) : Host.Outcome State Fault Refusal :=
  runOp (.init vcom)
    { precond := s.needUnconfigured
      config := vcomCheck vcom
      prog := initActs s.params vcom } s

end Sys2Proof.Machine
end

