-- ==== Sys2Proof/Machine/Wire.lean ====
section
/-! DEFINITION. The wire rows (30_encoding.md R102 to R106): each is what the block sends as one gated transaction, a leg of
the operation in progress (R103, R104, R147; log 7). Executing one sends it. -/

namespace Sys2Proof.Machine

/-- A CMD frame `[P_PRE_CMD, code]`. -/
def sendCmd (code : Word) (s : State) : Host.Outcome State Fault Refusal := runWire (.xfer [Config.preCmd, code]) s

/-- SYS_RUN (R105, R235, R240). -/
def execCmdSysRun (s : State) : Host.Outcome State Fault Refusal := sendCmd s.params.cmdSysRun s

/-- SLEEP (R105, R234). -/
def execCmdSleep (s : State) : Host.Outcome State Fault Refusal := sendCmd s.params.cmdSleep s

/-- REG_RD (R105, R210). -/
def execCmdRegRd (s : State) : Host.Outcome State Fault Refusal := sendCmd s.params.cmdRegRd s

/-- REG_WR (R105, R211). -/
def execCmdRegWr (s : State) : Host.Outcome State Fault Refusal := sendCmd s.params.cmdRegWr s

/-- LD_IMG (R105, R222). -/
def execCmdLdImg (s : State) : Host.Outcome State Fault Refusal := sendCmd s.params.cmdLdImg s

/-- LD_IMG_AREA (R105, R223). -/
def execCmdLdImgArea (s : State) : Host.Outcome State Fault Refusal := sendCmd s.params.cmdLdImgArea s

/-- LD_IMG_END (R105, R222). -/
def execCmdLdImgEnd (s : State) : Host.Outcome State Fault Refusal := sendCmd s.params.cmdLdImgEnd s

/-- DPY_AREA (R105, R230). -/
def execCmdDpyArea (s : State) : Host.Outcome State Fault Refusal := sendCmd s.params.cmdDpyArea s

/-- VCOM (R105, R212, R213). -/
def execCmdVcom (s : State) : Host.Outcome State Fault Refusal := sendCmd s.params.cmdVcom s

/-- GET_DEV_INFO (R105, R201). -/
def execCmdGetDevInfo (s : State) : Host.Outcome State Fault Refusal := sendCmd s.params.cmdGetDevInfo s

/-- A DATA frame `[P_PRE_DATA, d0, .., d(n-1)]` (R103); the words received are of no use to the operation. -/
def execFrameData (payload : List Word) (s : State) : Host.Outcome State Fault Refusal :=
  runWire (.xfer (Config.preData :: payload)) s

/-- A READ frame for `count` words (R103); the operation in progress takes the words received from the third on (R152). -/
def execFrameRead (count : Nat) (s : State) : Host.Outcome State Fault Refusal :=
  runWire (.xfer (readFrame s.params count)) s

/-- The image-load argument word, in a one-word DATA frame of its own (R104, R106). -/
def execLdarg (endian : BitVec 8) (fmt rot : BitVec 4) (s : State) : Host.Outcome State Fault Refusal :=
  runWire (.xferArg (loadArgWord endian fmt rot)) s

end Sys2Proof.Machine
end

