-- ==== Sys2Proof/Machine/Dispatch.lean ====
section
/-! DEFINITION. The dispatch: one arm for each row of spec/opcode_table.json. -/

namespace Sys2Proof.Machine

def exec (i : Instr) (s : State) : Host.Outcome State Fault Refusal :=
  match i with
  | .xfer ws => Sys2Proof.Machine.execXfer ws s
  | .wcmd code wait => Sys2Proof.Machine.execWcmd code wait s
  | .wdata w => Sys2Proof.Machine.execWdata w s
  | .wwords ws chunk => Sys2Proof.Machine.execWwords ws chunk s
  | .rwords count => Sys2Proof.Machine.execRwords count s
  | .hwreset => Sys2Proof.Machine.execHwreset s
  | .rdstat => Sys2Proof.Machine.execRdstat s
  | .pack2 pix => Sys2Proof.Machine.execPack2 pix s
  | .pack3 pix => Sys2Proof.Machine.execPack3 pix s
  | .pack4 pix => Sys2Proof.Machine.execPack4 pix s
  | .pack8 pix => Sys2Proof.Machine.execPack8 pix s
  | .qinfo => Sys2Proof.Machine.execQinfo s
  | .rdreg addr => Sys2Proof.Machine.execRdreg addr s
  | .wrreg addr value => Sys2Proof.Machine.execWrreg addr value s
  | .getvcom => Sys2Proof.Machine.execGetvcom s
  | .setvcom v => Sys2Proof.Machine.execSetvcom v s
  | .loadimgFull bpp rot pix => Sys2Proof.Machine.execLoadimgFull bpp rot pix s
  | .loadimgArea bpp rot origin dims pix => Sys2Proof.Machine.execLoadimgArea bpp rot origin dims pix s
  | .dpyarea x y w h mode => Sys2Proof.Machine.execDpyarea x y w h mode s
  | .waitdpy => Sys2Proof.Machine.execWaitdpy s
  | .sleep => Sys2Proof.Machine.execSleep s
  | .wake => Sys2Proof.Machine.execWake s
  | .init vcom => Sys2Proof.Machine.execInit vcom s
  | .cmdSysRun => Sys2Proof.Machine.execCmdSysRun s
  | .cmdSleep => Sys2Proof.Machine.execCmdSleep s
  | .cmdRegRd => Sys2Proof.Machine.execCmdRegRd s
  | .cmdRegWr => Sys2Proof.Machine.execCmdRegWr s
  | .cmdLdImg => Sys2Proof.Machine.execCmdLdImg s
  | .cmdLdImgArea => Sys2Proof.Machine.execCmdLdImgArea s
  | .cmdLdImgEnd => Sys2Proof.Machine.execCmdLdImgEnd s
  | .cmdDpyArea => Sys2Proof.Machine.execCmdDpyArea s
  | .cmdVcom => Sys2Proof.Machine.execCmdVcom s
  | .cmdGetDevInfo => Sys2Proof.Machine.execCmdGetDevInfo s
  | .frameData payload => Sys2Proof.Machine.execFrameData payload s
  | .frameRead count => Sys2Proof.Machine.execFrameRead count s
  | .ldarg endian fmt rot => Sys2Proof.Machine.execLdarg endian fmt rot s

end Sys2Proof.Machine
end

