-- ==== Sys2Proof/Machine/Fetch.lean ====
section
/-! DEFINITION. What a step runs next: a host request when IDLE (30_encoding.md R120, R122), a gated transaction of the
operation in progress when BUSY (R103, R147; log 7); and the placing of a table word there. -/

namespace Sys2Proof.Machine

/-- The fault a request that is no instruction raises (R122, R121; log 5). A wire unit's rejects cannot come from a host
request. -/
def rejectCause : Reject → Cause
  | .illegalOp _ => .illegalOp
  | .missingOperand _ name => .operand name
  | .emptyFrame => .illegalOp
  | .reservedPreamble _ => .illegalOp
  | .unknownCommand _ => .illegalOp
  | .badCommandLength _ => .illegalOp
  | .emptyData => .illegalOp
  | .emptyRead => .illegalOp
  | .notDummy => .illegalOp
  | .reservedArgBits _ => .illegalOp
  | .oddBytes _ => .illegalOp

/-- A request that is no instruction: its fault is taken before anything else (R306), and no response is given. -/
def rejectRequest (r : HostReq) (e : Reject) (s : State) : State := takeFault r.opc (rejectCause e) { s with resp := none }

/-- The request at the head of the queue is taken, after an interleaving point (R88). -/
def takeRequest (rest : List HostReq) (s : State) : State := { environment s with requests := rest }

/-- A gated transaction at the head of what is to do, with what follows it. -/
def fetchUnit : List Act → Option (WireUnit × List Act)
  | .prime :: .xfer ws :: .await :: rest => some (.frame ws, rest)
  | .prime :: .xferArg w :: .await :: rest => some (.loadArg w, rest)
  | _ => none

/-- The atomic step that sends a unit. -/
def unitAct : WireUnit → Act
  | .frame ws => .xfer ws
  | .loadArg w => .xferArg w

/-- A host operation that sends such a unit (R148, R149, R151, R222): what BUSY names when a unit is placed by itself. -/
def unitOpc : WireUnit → Byte
  | .frame (w :: _) => if w = Config.preCmd then 0x02 else if w = Config.preRead then 0x05 else 0x03
  | .frame [] => 0x03
  | .loadArg _ => 0x25

/-- What is decoded placed where the next step takes it: a request at the head of the queue of an IDLE block, a unit as the
whole rest of an operation in progress. -/
def place (e : Encoded) (s : State) : State :=
  match e with
  | .host r => { s with seq := .idle, requests := r :: s.requests }
  | .wire u => { s with seq := .busy (unitOpc u) (gated (unitAct u)) }

end Sys2Proof.Machine
end

