-- ==== Sys2Proof/Machine/Step.lean ====
section
/-! DEFINITION. One step of the machine (log 1). IDLE takes the host's next operation and runs it; BUSY goes on with the
operation in progress, a gated transaction or an atomic step at a time; HALTED takes no step of the block (R303), only
what the environment still does (R304). -/

namespace Sys2Proof.Machine

def step (s : State) : Host.Outcome State Fault Refusal :=
  match s.seq with
  | .idle =>
    match s.requests with
    | [] => .next (environment s)
    | r :: rest =>
      match decodeHost s.params r with
      | .ok i => exec i (takeRequest rest s)
      | .error e => .next (rejectRequest r e (takeRequest rest s))
  | .busy opc todo =>
    match fetchUnit todo with
    | some (u, rest) =>
      match decodeWire s.params u with
      | .ok i => exec i { s with seq := .busy opc rest }
      | .error _ => .next (tick s)
    | none => .next (tick s)
  | .halted =>
    match s.script with
    | [] => .fault .halted
    | _ :: _ => .next (environment s)

/-- The state whose very next step runs the instruction of a table word (log 7): all of it the block does not have yet is
the request, or the operation in progress whose remaining leg the frame is. A word no row has changes nothing. -/
def State.withFetchWord (s : State) (nbits w : Nat) : State :=
  match tableEncoded nbits w with
  | some e => place e s
  | none => s

end Sys2Proof.Machine
end

