-- ==== Sys2Proof/Machine/Assembler.lean ====
section
/-! DEFINITION. The assembler syntax of 30_encoding.md R123 (text of one line to a host request) and the pseudo-instructions
of R124 as host operations. The syntax is the spec's own (D1; log 22); the block does not see it. -/

namespace Sys2Proof.Machine

/-! ### Mnemonics (R120) -/

/-- The mnemonic of each opcode. -/
def mnemonicTable : List (List Char × Byte) :=
  [(['X','F','E','R'], 0x01), (['W','C','M','D'], 0x02), (['W','D','A','T','A'], 0x03),
   (['W','W','O','R','D','S'], 0x04), (['R','W','O','R','D','S'], 0x05), (['H','W','R','E','S','E','T'], 0x06),
   (['R','D','S','T','A','T'], 0x07), (['P','A','C','K','2'], 0x10), (['P','A','C','K','3'], 0x11),
   (['P','A','C','K','4'], 0x12), (['P','A','C','K','8'], 0x13), (['Q','I','N','F','O'], 0x20),
   (['R','D','R','E','G'], 0x21), (['W','R','R','E','G'], 0x22), (['G','E','T','V','C','O','M'], 0x23),
   (['S','E','T','V','C','O','M'], 0x24), (['L','O','A','D','I','M','G','.','F','U','L','L'], 0x25),
   (['L','O','A','D','I','M','G','.','A','R','E','A'], 0x26), (['D','P','Y','A','R','E','A'], 0x27),
   (['W','A','I','T','D','P','Y'], 0x28), (['S','L','E','E','P'], 0x29), (['W','A','K','E'], 0x2A),
   (['I','N','I','T'], 0x2F)]

/-! ### Tokens -/

/-- A token: a run of ordinary characters, or one of the marks `[ ] ( ) , =` and the two braces of a pixel sequence. -/
inductive Tok where
  | run (cs : List Char)
  | mark (c : Char)
  deriving DecidableEq, Repr

def openBrace : Char := Char.ofNat 0x7B
def closeBrace : Char := Char.ofNat 0x7D

def isMark (c : Char) : Bool := ['[', ']', '(', ')', ',', '=', openBrace, closeBrace].contains c

/-- The run read so far, as a token if there is one. -/
def flushRun (acc : List Char) : List Tok := if acc.isEmpty then [] else [.run acc.reverse]

/-- A line into tokens; `acc` is the run being read, reversed. -/
def lexFrom (acc : List Char) : List Char → List Tok
  | [] => flushRun acc
  | c :: cs =>
    if c = ' ' then flushRun acc ++ lexFrom [] cs
    else if isMark c then flushRun acc ++ .mark c :: lexFrom [] cs
    else lexFrom (c :: acc) cs

/-! ### Numbers -/

def digitOf (base : Nat) (c : Char) : Option Nat :=
  let n := c.toNat
  let d := if 48 ≤ n ∧ n ≤ 57 then n - 48 else if 65 ≤ n ∧ n ≤ 70 then n - 55 else if 97 ≤ n ∧ n ≤ 102 then n - 87 else 16
  if d < base then some d else none

def digitsFrom (base acc : Nat) : List Char → Option Nat
  | [] => some acc
  | c :: cs =>
    match digitOf base c with
    | some d => digitsFrom base (acc * base + d) cs
    | none => none

/-- An unsigned number: `0x....` or decimal. -/
def natLit : List Char → Option Nat
  | [] => none
  | '0' :: 'x' :: c :: cs => digitsFrom 16 0 (c :: cs)
  | cs => digitsFrom 10 0 cs

/-- A number with an optional sign. -/
def intLit : List Char → Option Int
  | '-' :: cs => (natLit cs).map fun n => -(n : Int)
  | cs => (natLit cs).map fun n => (n : Int)

/-- A decimal literal without sign: digits, then possibly a point and digits. -/
def decimalLit (cs : List Char) : Option Rat :=
  let whole := cs.takeWhile (· ≠ '.')
  let frac := (cs.dropWhile (· ≠ '.')).drop 1
  match digitsFrom 10 0 whole, digitsFrom 10 0 frac with
  | some a, some b => if cs.isEmpty then none else some (mkRat (a * 10 ^ frac.length + b) (10 ^ frac.length))
  | _, _ => none

/-- A rational operand, a decimal literal such as `-1.5`. -/
def ratLit : List Char → Option Rat
  | '-' :: cs => (decimalLit cs).map fun q => -q
  | cs => decimalLit cs

/-! ### Operands -/

/-- An operand as written, with its name if it has one. -/
inductive Value where
  | run (cs : List Char)
  | seq (ns : List Int)
  | pixels (ns : List Int)
  | pair (a b : Int)
  deriving DecidableEq, Repr

structure Written where
  name : Option (List Char)
  value : Value
  deriving DecidableEq, Repr

/-- Numbers separated by commas up to the closing mark, and what follows it. -/
def numbersTo (close : Char) : List Tok → Option (List Int × List Tok)
  | .mark c :: rest => if c = close then some ([], rest) else none
  | .run n :: .mark c :: rest =>
    match intLit n with
    | none => none
    | some k =>
      if c = close then some ([k], rest)
      else if c = ',' then (numbersTo close rest).map fun r => (k :: r.1, r.2)
      else none
  | _ => none

/-- One value and what follows it. -/
def readValue : List Tok → Option (Value × List Tok)
  | .run cs :: rest => some (.run cs, rest)
  | .mark c :: rest =>
    if c = '[' then (numbersTo ']' rest).map fun r => (.seq r.1, r.2)
    else if c = openBrace then (numbersTo closeBrace rest).map fun r => (.pixels r.1, r.2)
    else if c = '(' then
      match numbersTo ')' rest with
      | some ([a, b], more) => some (.pair a b, more)
      | _ => none
    else none
  | [] => none

/-- One operand, `name=value` or `value`. -/
def readOperand : List Tok → Option (Written × List Tok)
  | .run name :: .mark '=' :: rest => (readValue rest).map fun r => (⟨some name, r.1⟩, r.2)
  | toks => (readValue toks).map fun r => (⟨none, r.1⟩, r.2)

/-- The operands of a line; the first argument bounds their number. -/
def readOperands : Nat → List Tok → Option (List Written)
  | _, [] => some []
  | 0, _ => none
  | fuel + 1, toks =>
    match readOperand toks with
    | some (o, []) => some [o]
    | some (o, .mark ',' :: rest) => (readOperands fuel rest).map (o :: ·)
    | _ => none

/-- The operands an operation takes by position, in the order of the `operands` column of R120. The load operands `bpp`,
`rot`, `origin` and `dims` are named, and stand before `PIX`. -/
def positional (opc : Byte) : List OperandName :=
  match opc.toNat with
  | 0x01 => [.ws]
  | 0x02 => [.code, .wait]
  | 0x03 => [.w]
  | 0x04 => [.ws, .chunk]
  | 0x05 => [.count]
  | 0x10 => [.pix]
  | 0x11 => [.pix]
  | 0x12 => [.pix]
  | 0x13 => [.pix]
  | 0x21 => [.addr]
  | 0x22 => [.addr, .value]
  | 0x24 => [.v]
  | 0x25 => [.pix]
  | 0x26 => [.pix]
  | 0x27 => [.x, .y, .w, .h, .mode]
  | 0x2F => [.vcom]
  | _ => []

/-- The names a load operation's operands are written with (R123). -/
def namedOperand (opc : Byte) (name : List Char) : Option OperandName :=
  if opc = 0x25 ∨ opc = 0x26 then
    if name = ['b','p','p'] then some .bpp
    else if name = ['r','o','t'] then some .rot
    else if opc = 0x26 ∧ name = ['o','r','i','g','i','n'] then some .origin
    else if opc = 0x26 ∧ name = ['d','i','m','s'] then some .dims
    else none
  else none

/-- An operand set to a written value; a value of another kind is no operand. -/
def setOperand (a : Operands) (name : OperandName) (v : Value) : Option Operands :=
  match name, v with
  | .ws, .seq ns => some { a with ws := some ns }
  | .pix, .pixels ns => some { a with pix := some ns }
  | .origin, .pair x y => some { a with origin := some (x, y) }
  | .dims, .pair w h => some { a with dims := some (w, h) }
  | .code, .run cs => (intLit cs).map fun n => { a with code := some n }
  | .wait, .run cs => (intLit cs).map fun n => { a with wait := some n }
  | .w, .run cs => (intLit cs).map fun n => { a with w := some n }
  | .chunk, .run cs => (intLit cs).map fun n => { a with chunk := some n }
  | .count, .run cs => (intLit cs).map fun n => { a with count := some n }
  | .addr, .run cs => (intLit cs).map fun n => { a with addr := some n }
  | .value, .run cs => (intLit cs).map fun n => { a with value := some n }
  | .bpp, .run cs => (intLit cs).map fun n => { a with bpp := some n }
  | .rot, .run cs => (intLit cs).map fun n => { a with rot := some n }
  | .x, .run cs => (intLit cs).map fun n => { a with x := some n }
  | .y, .run cs => (intLit cs).map fun n => { a with y := some n }
  | .h, .run cs => (intLit cs).map fun n => { a with h := some n }
  | .mode, .run cs => (intLit cs).map fun n => { a with mode := some n }
  | .v, .run cs => (ratLit cs).map fun q => { a with v := some q }
  | .vcom, .run cs => (ratLit cs).map fun q => { a with vcom := some q }
  | _, _ => none

/-- The written operands, each by its name or at the next position. -/
def assign (opc : Byte) : List OperandName → List Written → Operands → Option Operands
  | _, [], a => some a
  | names, ⟨some n, v⟩ :: rest, a =>
    match namedOperand opc n with
    | some name => (setOperand a name v).bind (assign opc names rest)
    | none => none
  | name :: names, ⟨none, v⟩ :: rest, a => (setOperand a name v).bind (assign opc names rest)
  | [], ⟨none, _⟩ :: _, _ => none

/-- One line of assembler text as the request it stands for (R123). -/
def assemble (line : List Char) : Option HostReq :=
  match lexFrom [] line with
  | .run m :: rest =>
    match (mnemonicTable.find? fun e => e.1 == m) with
    | some (_, opc) =>
      ((readOperands rest.length rest).bind fun ws => assign opc (positional opc) ws {}).map fun a => ⟨opc, a⟩
    | none => none
  | _ => none

/-- `loadImageArea(pixels, rotate, origin?, dims?)` (R123): LOADIMG.FULL exactly when both are left out. -/
def assembleLoad (pixels : List Int) (rotate : Int) (origin dims : Option (Int × Int)) : Instr :=
  if origin.isNone && dims.isNone then .loadimgFull 4 rotate pixels else .loadimgArea 4 rotate origin dims pixels

/-! ### Pseudo-instructions (R124), as host operations -/

/-- A word as an operand. -/
def operandOf (w : Word) : Int := w.toNat

/-- `SETBASE a` -/
def setBase (p : Params) (a : Word32) : List Instr :=
  [.wrreg (operandOf p.regLisarH) (operandOf (addrHalf true a)),
   .wrreg (operandOf p.regLisarL) (operandOf (addrHalf false a))]

/-- `ENPACKED` -/
def enPacked (p : Params) : List Instr := [.wrreg (operandOf p.regI80cpcr) (operandOf p.packedOn)]

/-- `CMDARGS c, a1, ..., an` -/
def cmdArgsOps (code : Word) (args : List Word) : List Instr :=
  .wcmd (operandOf code) 1 :: args.map fun a => .wdata (operandOf a)

end Sys2Proof.Machine
end

