-- ==== Sys2Proof/Machine/HostModel.lean ====
section
/-! DEFINITION. The host model (49_host_diff_engine.md R260 to R278): the block's only client, which the spec specifies as
its environment and not as part of it (00_scope.md R4; log 16). Its procedures are sequences of the block's host
operations, which `issue` puts in the request queue. The host's state after a procedure is what the procedure ends with;
that it has it whatever becomes of the operations issued is the model's choice (log 27). -/

namespace Sys2Proof.Machine

/-- A half-open box (R263). -/
structure Box where
  minX : Int
  minY : Int
  maxX : Int
  maxY : Int
  deriving DecidableEq, Repr

/-- The host's state (R262): `W`, `H`, `FB`, `PREV`, `ACC`. -/
structure HostState where
  w : Nat
  h : Nat
  fb : List Byte
  prev : Option (List Byte)
  acc : Option Box
  deriving DecidableEq, Repr

/-- The arrays are of the buffer's size (R262: "`W*H` pixels"). -/
def HostState.wf (hs : HostState) : Bool :=
  decide (hs.fb.length = hs.w * hs.h ∧ ∀ prev ∈ hs.prev, prev.length = hs.w * hs.h)

/-- A pixel lies in a box (R263). -/
def Box.mem (b : Box) (x y : Int) : Bool := decide (b.minX ≤ x ∧ x < b.maxX ∧ b.minY ≤ y ∧ y < b.maxY)

/-- `view(FB)` (R261): the 180-degree view when the display is mounted inverted. -/
def view (p : Params) (w h : Nat) (fb : List Byte) : List Byte :=
  (List.range (w * h)).filterMap fun k =>
    if p.rot180 then fb[(h - 1 - k / w) * w + (w - 1 - k % w)]? else fb[k]?

/-- The least value of `f` on `k :: ks`. -/
def leastOf (f : Nat → Int) (k : Nat) (ks : List Nat) : Int := ks.foldl (fun m j => min m (f j)) (f k)

/-- The greatest value of `f` on `k :: ks`. -/
def greatestOf (f : Nat → Int) (k : Nat) (ks : List Nat) : Int := ks.foldl (fun m j => max m (f j)) (f k)

/-- The positions at which two `W*H` pixel arrays differ, exactly (R264). -/
def differing (w h : Nat) (a b : List Byte) : List Nat := (List.range (w * h)).filter fun k => a[k]? != b[k]?

/-- `bboxdiff(A, B)` (R264); position `k` is the pixel `(k mod W, k / W)`. -/
def bboxdiff (w h : Nat) (a b : List Byte) : Option Box :=
  match differing w h a b with
  | [] => none
  | k :: ks =>
    let x := fun j => ((j % w : Nat) : Int)
    let y := fun j => ((j / w : Nat) : Int)
    some { minX := leastOf x k ks, minY := leastOf y k ks, maxX := 1 + greatestOf x k ks, maxY := 1 + greatestOf y k ks }

/-- `a*floor(x/a)`. -/
def alignDown (a : Nat) (x : Int) : Int := a * (x / a)

/-- `a*ceil(x/a)`. -/
def alignUp (a : Nat) (x : Int) : Int := -(a * (-x / a))

/-- `round` of a box (R265, C10). -/
def Box.round (a : Nat) (b : Box) : Box := ⟨alignDown a b.minX, alignDown a b.minY, alignUp a b.maxX, alignUp a b.maxY⟩

/-- `clamp` of a box (R266). -/
def Box.clamp (w h : Nat) (b : Box) : Box := ⟨max b.minX 0, max b.minY 0, min b.maxX w, min b.maxY h⟩

/-- `rc(b) = clamp(round(b))` (R266, C11). -/
def Box.rc (a w h : Nat) (b : Box) : Box := (b.round a).clamp w h

/-- The smallest box that contains both (R267). -/
def Box.union (a b : Box) : Box := ⟨min a.minX b.minX, min a.minY b.minY, max a.maxX b.maxX, max a.maxY b.maxY⟩

/-- `merge` (R267): absent is the identity. -/
def mergeBox : Option Box → Option Box → Option Box
  | none, b => b
  | a, none => a
  | some a, some b => some (a.union b)

/-- `q(p)` (R269). -/
def quantise (p : Params) (px : Byte) : Byte := if px.toNat ≥ p.thresh then p.white else 0x00

/-- `crop(V, b)` (R270). -/
def crop (w : Nat) (v : List Byte) (b : Box) : List Byte :=
  (List.range (b.maxY - b.minY).toNat).flatMap fun j =>
    (List.range (b.maxX - b.minX).toNat).filterMap fun i => v[(b.minY.toNat + j) * w + (b.minX.toNat + i)]?

/-- Pixels as an operand. -/
def pixOperand (v : List Byte) : List Int := v.map fun b => (b.toNat : Int)

/-- What a mode makes of the pixels: two levels in the fast mode (R269, R271, C14). -/
def flatten (p : Params) (mode : Int) (v : List Byte) : List Byte := if mode = p.modeFast then v.map (quantise p) else v

/-- DRAWFULL (R271): the operations issued, and the host's state when it ends. PREV and ACC are then as the last two lines of
R271 say even when one of the operations faults or WAITDPY never ends; the spec leaves the host's state open there (log 27). -/
def drawFull (p : Params) (mode : Int) (hs : HostState) : List Instr × HostState :=
  let v := view p hs.w hs.h hs.fb
  let d := match hs.prev with
    | some prev => (bboxdiff hs.w hs.h prev v).map (Box.rc p.align hs.w hs.h)
    | none => some ⟨0, 0, hs.w, hs.h⟩
  ([.waitdpy, .loadimgFull p.hostFmt 0 (pixOperand (flatten p mode v)), .dpyarea 0 0 hs.w hs.h mode],
   { hs with acc := if mode = p.modeFast then mergeBox hs.acc d else none, prev := some v })

/-- The part of DRAWPARTIAL that sends a region (R272), with `d` the changed box and `v` the view. For PREV and ACC after an
operation that does not end well: log 27. -/
def drawRegion (p : Params) (mode : Int) (v : List Byte) (d : Box) (hs : HostState) : List Instr × HostState :=
  let acc := mergeBox hs.acc (some d)
  let region := if mode = p.modeFast then d else ((acc.map (Box.rc p.align hs.w hs.h)).getD d)
  let c := flatten p mode (crop hs.w v region)
  let w := region.maxX - region.minX
  let h := region.maxY - region.minY
  ([.waitdpy, .loadimgArea p.hostFmt 0 (some (region.minX, region.minY)) (some (w, h)) (pixOperand c),
    .dpyarea region.minX region.minY w h mode],
   { hs with acc := if mode = p.modeFast then acc else none, prev := some v })

/-- DRAWPARTIAL (R272). -/
def drawPartial (p : Params) (mode : Int) (hs : HostState) : List Instr × HostState :=
  match hs.prev with
  | none => drawFull p mode hs
  | some prev =>
    let v := view p hs.w hs.h hs.fb
    match (bboxdiff hs.w hs.h prev v).map (Box.rc p.align hs.w hs.h) with
    | none => ([], { hs with prev := some v })
    | some d => drawRegion p mode v d hs

/-- CLEAR (R273). -/
def clear (p : Params) (hs : HostState) : List Instr × HostState :=
  drawFull p p.modeInit { hs with fb := List.replicate (hs.w * hs.h) p.white }

/-- The operation CONSTRUCT issues (R274). -/
def constructOps (vcom : Rat) : List Instr := [.init vcom]

/-- The host's state from the block's DeviceInfo (R262, R274). -/
def construct (p : Params) (d : DeviceInfo) : HostState where
  w := d.panelW.toNat
  h := d.panelH.toNat
  fb := List.replicate (d.panelW.toNat * d.panelH.toNat) p.white
  prev := none
  acc := none

/-- What CONSTRUCT leaves once its INIT has ended in `t` (R274): a state when the response is `OK`; "`E_CONFIG` ends
construction with no state"; a fault gives no response, and no state. -/
def constructed (t : State) : Option HostState :=
  match t.resp with
  | some ⟨.ok, _⟩ => t.readInfo.map (construct t.params)
  | _ => none

/-- CONSTRUCT `vcom` (R274) with the block in `s`. -/
def runConstruct (vcom : Rat) (s : State) : Option HostState :=
  match exec (.init vcom) s with
  | .next t => constructed t
  | _ => none

/-- External drawing (R275): any `W*H` pixel array, between two procedures. A list of another length is no such array, and
nothing is drawn. -/
def drawExternally (fb : List Byte) (hs : HostState) : HostState :=
  if fb.length = hs.w * hs.h then { hs with fb := fb } else hs

/-- An operation as the request the host issues; a wire row is no request. -/
def requestOf (p : Params) (i : Instr) : Option HostReq :=
  match encode p i with
  | .host r => some r
  | .wire _ => none

/-- The host issues operations, in order, after those it has issued before (R87). -/
def issue (is : List Instr) (s : State) : State := { s with requests := s.requests ++ is.filterMap (requestOf s.params) }

end Sys2Proof.Machine
end

