-- ==== Sys2Proof/Safety.lean ====
section
/-! DEFINITION. The terms claims are stated in: what is observable of TRACE (10_state.md R48), the protocol state
(42_protocol.md R241), what counts as a run without a fault (R45, R303), and the invariant of the machine. -/

namespace Sys2Proof.Machine

/-! ### Views of TRACE -/

/-- The transactions, with the words sent and received, in order. -/
@[simp] def framesOf : List Event → List (List Word × List Word)
  | [] => []
  | .frame sent received :: es => (sent, received) :: framesOf es
  | _ :: es => framesOf es

/-- The words sent by each transaction. -/
def sentOf (tr : List Event) : List (List Word) := (framesOf tr).map Prod.fst

/-- An event of the wire behaviour: "the subsequence of `FRAME` and `SIG` events" (R48). -/
@[simp] def onWire : Event → Bool
  | .frame _ _ => true
  | .sigResetN _ => true
  | _ => false

def wireOf (tr : List Event) : List Event := tr.filter onWire

/-- The bytes on the wire, high byte of each word first (20_memory.md R74). -/
def wireBytesOf (tr : List Event) : List Byte := (sentOf tr).flatMap bytesOfWords

/-- How many ready-waits timed out (R36). -/
@[simp] def timeoutsOf : List Event → Nat
  | [] => 0
  | .timeout _ :: es => timeoutsOf es + 1
  | _ :: es => timeoutsOf es

/-- The levels driven on the reset output. -/
@[simp] def resetLevelsOf : List Event → List Bool
  | [] => []
  | .sigResetN v :: es => v :: resetLevelsOf es
  | _ :: es => resetLevelsOf es

/-- The named delays. -/
@[simp] def delaysOf : List Event → List DelayName
  | [] => []
  | .delay d :: es => d :: delaysOf es
  | _ :: es => delaysOf es

/-- Everything but the edges the edge agent saw: what the sequencer itself emitted. -/
def sequencerEvents (tr : List Event) : List Event := tr.filter (· ≠ .edge)

/-- The events by which an operation starts and ends (R48). -/
@[simp] def onHost : Event → Bool
  | .op _ => true
  | .endOp _ => true
  | _ => false

/-- The events of gated transactions that send `fs`, one after another (40_transport.md R147): PRIME, the frame with as many
words received as sent, and the end of its wait, either way (R144, R146). -/
def Gated : List (List Word) → List Event → Prop
  | [], hs => hs = []
  | f :: fs, hs =>
    ∃ rs w tl, hs = .prime :: .frame f rs :: w :: tl ∧ rs.length = f.length ∧
      (w = .awaitOk ∨ w = .timeout .data) ∧ Gated fs tl

/-- What the `n`-th transaction of some events received. -/
def receivedAt (hs : List Event) (n : Nat) : List Word := ((framesOf hs)[n]?.map Prod.snd).getD []

/-- What the last transaction of some events received. -/
def lastReceived (hs : List Event) : List Word := ((framesOf hs).getLast?.map Prod.snd).getD []

/-! ### What an operation did -/

/-- The fields of the block that only a few operations write (10_state.md R53), with the parameters and the requests not yet
taken: `t` has them as `s` has them. The other fields are RDY, HPREV, TMO, SEQ, TRACE and those of the environment. -/
structure SameBlock (s t : State) : Prop where
  resetN : t.resetN = s.resetN
  info : t.info = s.info
  infoValid : t.infoValid = s.infoValid
  configured : t.configured = s.configured
  rma : t.rma = s.rma
  asleep : t.asleep = s.asleep
  faults : t.faults = s.faults
  params : t.params = s.params
  requests : t.requests = s.requests

/-- Operation `i` ran from `s` to its end at `t`: beside the edges seen, the events are `OP`, then `hs`, then `END(OK)` (R48);
TMO counted the timeouts among `hs` (R36); SEQ is IDLE again (R46). -/
structure Ran (i : Instr) (s t : State) (hs : List Event) : Prop where
  events : sequencerEvents t.trace = sequencerEvents s.trace ++ [Event.op i] ++ hs ++ [Event.endOp .ok]
  tmo : t.tmo = s.tmo + BitVec.ofNat 32 (timeoutsOf hs)
  idle : t.seq = .idle

/-- The events `t` has and `s` had not. -/
def newEvents (s t : State) : List Event := t.trace.drop s.trace.length

/-- Nothing but the edge agent wrote RDY between `s` and `t`: it is 1 if it was, or if an edge has been seen (R34). -/
def ReadyByEdges (s t : State) : Prop := t.rdy = (s.rdy || (newEvents s t).contains .edge)

/-- The end of an `Await`, either way (40_transport.md R144). -/
def Event.isWaitEnd : Event → Bool
  | .awaitOk => true
  | .timeout .data => true
  | _ => false

/-- RDY after an event: EDGE sets it (R304), PRIME (R143) and the end of an `Await` (R144) leave it 0. -/
def readyEvent (r : Bool) : Event → Bool
  | .edge => true
  | .prime => false
  | .awaitOk => false
  | .timeout .data => false
  | _ => r

/-- RDY after events, from its value before them. -/
def readyOf (r : Bool) (es : List Event) : Bool := es.foldl readyEvent r

/-- The response is `OK` with this result (R47). -/
def State.answers (t : State) (r : Result) : Prop := t.resp = some ⟨.ok, r⟩

/-- `i` raises the fault `c` in `s` (60_exceptions.md R303, R305): FAULT gains it, SEQ is HALTED, the host gets no response, and
nothing else changes but TRACE. That `OP` stands before `END(FAULT)` is the model's choice (log 9), and so is that no EDGE
stands between them (log 26). -/
def FaultsWith (i : Instr) (s : State) (c : Cause) : Prop :=
  exec i s =
    .next
      { s with
        faults := addFault ⟨c, i.opc⟩ s.faults
        trace := s.trace ++ [Event.op i, .endOp (.fault c)]
        seq := .halted
        resp := none
        rdata := [] }

/-- `i` ends with the configuration error `E_CONFIG` for `v` in `s` (R301): the response, `OP` and `END(E_CONFIG)`, and
nothing else changes. That no EDGE stands between the two events is the model's choice (log 26). -/
def ConfigErrs (i : Instr) (s : State) (v : Rat) : Prop :=
  exec i s =
    .next
      { s with
        trace := s.trace ++ [Event.op i, .endOp .config]
        seq := .idle
        resp := some ⟨.config, .rejected v⟩
        rdata := [] }

/-! ### The environment and the oracle -/

/-- What happens at the `k`-th interleaving point from now on. -/
def slotAt (s : State) (k : Nat) : Slot := s.script.getD k (Config.freeSlot (s.slots + k))

/-- The HRDY level and HPREV, as a move of the environment or a step of the edge agent leaves them (R35, R304). -/
def lineMove (l : Bool × Bool) : EnvMove → Bool × Bool
  | .pin level => (level, l.2)
  | .edge => (l.1, l.1)

/-- The HRDY level and HPREV after the next `n` interleaving points. -/
def linesAfter (n : Nat) (s : State) : Bool × Bool :=
  ((List.range n).flatMap fun k => (slotAt s k).moves).foldl lineMove (s.hrdy, s.hprev)

/-- The environment ran from `s` to `t` through some number of interleaving points, and it alone wrote HPREV and moved HRDY. -/
def EnvRan (s t : State) : Prop :=
  ∃ n, t.slots = s.slots + n ∧ t.script = s.script.drop n ∧ (t.hrdy, t.hprev) = linesAfter n s

/-- The words received by the transactions among some events, in order. -/
def receivedWords (tr : List Event) : List Word := (framesOf tr).flatMap Prod.snd

/-- The transactions between `s` and `t` received the controller's bytes in order, each once (R37, R141). -/
def Drew (s t : State) : Prop :=
  let m := 2 * (receivedWords (newEvents s t)).length
  receivedWords (newEvents s t) = receive s (receivedWords (newEvents s t)).length ∧
    t.draws = s.draws + m ∧ t.rx = s.rx.drop m

/-! ### Protocol states (42_protocol.md R241) -/

inductive ProtoState where
  | halted
  | unconfigured
  | ready
  | refreshing
  | sleeping
  deriving DecidableEq, Repr

/-- The protocol state the flags determine. -/
def State.proto (s : State) : ProtoState :=
  if !s.faults.isEmpty then .halted
  else if !s.configured then .unconfigured
  else if s.asleep then .sleeping
  else if s.rma then .refreshing
  else .ready

/-! ### Safe runs and the invariant -/

/-- "A state with `FAULT` non-empty is never a successful end of a run" (R45). -/
def State.successful (s : State) : Prop := s.faults = [] ∧ s.seq = .idle

/-- The atomic steps of WAITDPY's poll loop (R232): the only operation a step can leave BUSY. -/
def Act.ofPoll : Act → Bool
  | .prime => true
  | .xfer _ => true
  | .await => true
  | .delay _ => true
  | .pollCheck => true
  | .finish _ => true
  | _ => false

/-- The position is one that a run of the machine can be at between two steps: IDLE, HALTED, or inside WAITDPY's loop. -/
def Seq.reachable : Seq → Bool
  | .idle => true
  | .busy opc todo => opc == 0x28 && todo.all Act.ofPoll
  | .halted => true

/-- Only WAITDPY, which needs `CONFIGURED = 1` and `ASLEEP = 0` (R200), is ever found BUSY between two steps. -/
def Seq.isBusy : Seq → Bool
  | .busy _ _ => true
  | _ => false

/-- The invariant of the machine: `CONFIGURED` implies `INFO_VALID` (R42); DeviceInfo holds a value exactly while
`INFO_VALID = 1` (R40); an unconfigured block is awake (R44) and may have a refresh active (R43); a fault is recorded
exactly when HALTED (R45, R303), at most once; RESET_N is released between operations (R38, R156); BUSY only inside WAITDPY's loop,
on a configured block that is awake. -/
structure State.Inv (s : State) : Prop where
  configured_info : s.configured = true → s.infoValid = true
  info_valid : s.infoValid = s.info.isSome
  unconfigured_awake : s.configured = false → s.asleep = false
  unconfigured_rma : s.configured = false → s.rma = true
  fault_halted : s.faults = [] ↔ s.seq ≠ .halted
  fault_once : s.faults.length ≤ 1
  reset_released : s.resetN = true
  seq_reachable : s.seq.reachable = true
  busy_ready : s.seq.isBusy = true → s.configured = true ∧ s.asleep = false

end Sys2Proof.Machine
end

