-- ==== Sys2Proof/Certificates/Slice0/Obligations.lean ====
section
/-! DEFINITION. The statements for the provers. Each is a closed Prop named `Obligations.<Name>`; its docstring names the
rules of spec/ it formalises. A statement about the environment, the received bytes or the parameters is for every value of
them: nothing is assumed of the free values. -/

open Sys2Proof Sys2Proof.Machine

/-! ### Reset and the machine as a whole -/

/-- The table of 10_state.md R52, field by field. HPREV and HRDY are the same uninterpreted level (log 3). -/
def Obligations.ResetValues : Prop :=
  State.reset.rdy = false ∧ State.reset.hprev = State.reset.hrdy ∧ State.reset.tmo = 0 ∧ State.reset.resetN = true ∧
    State.reset.info = none ∧ State.reset.readInfo = none ∧ State.reset.infoValid = false ∧
    State.reset.configured = false ∧ State.reset.rma = true ∧ State.reset.asleep = false ∧ State.reset.faults = [] ∧
    State.reset.seq = .idle ∧ State.reset.trace = []

/-- The invariant holds after a power-on reset. -/
def Obligations.ResetInvariant : Prop := State.reset.Inv

/-- Every step keeps the invariant (10_state.md R40, R42 to R46; 60_exceptions.md R303), from every state that has it. -/
def Obligations.StepKeepsInvariant : Prop := ∀ s t : State, s.Inv → step s = .next t → t.Inv

/-- TRACE is only appended to (R48), and TMO goes up, mod 2^32, by the number of timeouts among the new events and by
nothing else (R36): for every instruction and every step. -/
def Obligations.TraceGrowsAndTmoCounts : Prop :=
  ∀ s t : State, (step s = .next t ∨ ∃ i, exec i s = .next t) →
    t.trace = s.trace ++ newEvents s t ∧ t.tmo = s.tmo + BitVec.ofNat 32 (timeoutsOf (newEvents s t))

/-- FAULT only grows, by at most one record in a step, and only when the step ends HALTED (R45, R303); the parameters never
change (R51). -/
def Obligations.FaultsAreSticky : Prop :=
  ∀ s t : State, (step s = .next t ∨ ∃ i, exec i s = .next t) →
    t.params = s.params ∧ (t.faults = s.faults ∨ ∃ f, t.faults = addFault f s.faults ∧ t.seq = .halted)

/-- HALTED: no instruction runs, and a step of the machine is at most an interleaving point, which moves the HRDY level, RDY,
HPREV and TRACE alone (60_exceptions.md R303, R304). BUSY: no host operation is accepted (10_state.md R46). -/
def Obligations.HaltedAndBusyAcceptNothing : Prop :=
  (∀ s : State, s.seq = .halted →
    (∀ i, exec i s = .fault .halted) ∧ (s.script = [] → step s = .fault .halted) ∧
      (s.script ≠ [] → step s = .next (environment s) ∧ SameBlock s (environment s) ∧
        (environment s).seq = .halted ∧ (environment s).tmo = s.tmo ∧
        sequencerEvents (environment s).trace = sequencerEvents s.trace)) ∧
  (∀ (s : State) (opc : Byte) (todo : List Act), s.seq = .busy opc todo →
    ∀ i : Instr, i.opc?.isSome = true → exec i s = .fault .notAccepted)

/-- 60_exceptions.md R305: an operation that ends HALTED has changed nothing but FAULT, SEQ and TRACE, where it added no frame
and no signal. That goes for the bodies inside INIT too. The events it did add, `OP` and then `END` with nothing between
them, are the model's choice (`FaultsWith`: logs 9 and 26). -/
def Obligations.FaultsComeBeforeTraffic : Prop :=
  ∀ (i : Instr) (s t : State), i.opc?.isSome = true → exec i s = .next t → t.seq = .halted →
    ∃ c, FaultsWith i s c

/-- A host request at the head of an IDLE block's queue is taken and run: the step is `exec` of the instruction it decodes
to, after one interleaving point (the model's choice, log 1). -/
def Obligations.StepRunsTheRequest : Prop :=
  ∀ (s : State) (r : HostReq) (rest : List HostReq) (i : Instr),
    s.seq = .idle → s.requests = r :: rest → decodeHost s.params r = .ok i →
      step s = exec i { environment s with requests := rest }

/-- A gated transaction at the head of what a BUSY block has to do is decoded and sent: the step is `exec` of the wire row
its words decode to, with the position moved past it. That one step is one gated transaction (log 1), and that it is `exec`
of a wire row (log 7), are the model's choices; the rules cited give the position and the transaction. -/
def Obligations.StepRunsTheLeg : Prop :=
  ∀ (s : State) (opc : Byte) (ws : List Word) (w : Word) (rest : List Act) (i : Instr),
    (s.seq = .busy opc (gated (.xfer ws) ++ rest) → decodeWire s.params (.frame ws) = .ok i →
      step s = exec i { s with seq := .busy opc rest }) ∧
    (s.seq = .busy opc (gated (.xferArg w) ++ rest) → decodeWire s.params (.loadArg w) = .ok i →
      step s = exec i { s with seq := .busy opc rest })

/-- An IDLE block without a request takes no step of its own: only the environment and the edge agent do (R343, R304). That
such a step is exactly one interleaving point, whose moves a slot lists, is the model's choice (logs 1 and 2). -/
def Obligations.IdleWithoutRequest : Prop :=
  ∀ s : State, s.seq = .idle → s.requests = [] →
    ∃ t, step s = .next t ∧ SameBlock s t ∧ t.seq = .idle ∧ t.tmo = s.tmo ∧ t.resp = s.resp ∧
      newEvents s t = List.replicate (newEvents s t).length .edge ∧ ReadyByEdges s t ∧
      (t.hrdy, t.hprev) = linesAfter 1 s

/-! ### Encoding -/

/-- Decoding an encoding gives the instruction back, with every operand at every value its encoding admits, under all legal
parameters: every row of the opcode table (30_encoding.md R103 to R106, R120). -/
def Obligations.DecodeEncodeAgree : Prop :=
  ∀ (p : Params) (i : Instr), p.wf = true → i.wf p = true → decode p (encode p i) = .ok i

/-- A few words written out from the tables of R102, R105, R106 and R120, numbered as spec/opcode_table.json numbers them. What
the table's bits leave out is the model's choice: an 8-bit word stands for its opcode with every operand zero, empty or
absent (log 5), and 0x0000 and 0x1000 for a DATA and a READ frame with one word of zeros after them (log 8). -/
def Obligations.TableWordsDecode : Prop :=
  decodeTableWord 8 0b00000001 = some (.xfer []) ∧
    decodeTableWord 8 0b00010010 = some (.pack4 []) ∧
    decodeTableWord 8 0b00101010 = some .wake ∧
    decodeTableWord 8 0b00101111 = some (.init 0) ∧
    decodeTableWord 32 0b01100000000000000000000000000001 = some .cmdSysRun ∧
    decodeTableWord 32 0b01100000000000000000000000110100 = some .cmdDpyArea ∧
    decodeTableWord 32 0b01100000000000000000001100000010 = some .cmdGetDevInfo ∧
    decodeTableWord 16 0b0001000000000000 = some (.frameRead 0) ∧
    decodeTableWord 16 0b0000000000000000 = some (.frameData [0]) ∧
    decodeTableWord 16 0b0000000000110010 = some (.ldarg 0 3 2) ∧
    decodeTableWord 8 0b00001000 = none ∧
    decodeTableWord 16 0b0000000001000000 = none

/-- The opcodes of R122 that no operation has. -/
def Sys2Proof.Machine.reservedOpcode (b : Byte) : Prop :=
  b.toNat = 0x00 ∨ (0x08 ≤ b.toNat ∧ b.toNat ≤ 0x0F) ∨ (0x14 ≤ b.toNat ∧ b.toNat ≤ 0x1F) ∨
    (0x2B ≤ b.toNat ∧ b.toNat ≤ 0x2E) ∨ (0x30 ≤ b.toNat ∧ b.toNat ≤ 0xFF)

/-- R122: exactly the reserved opcodes are refused as illegal, whatever the operands, and a step that takes one raises
`F_ILLEGAL_OP(opc)`: the fault is recorded with the opcode, the block is HALTED, the host gets no response, nothing is sent.
That the request emits no `OP` before its `END` is the model's choice (log 9). -/
def Obligations.ReservedOpcodesFault : Prop :=
  (∀ (p : Params) (r : HostReq), decodeHost p r = .error (.illegalOp r.opc) ↔ reservedOpcode r.opc) ∧
  (∀ (s : State) (r : HostReq) (rest : List HostReq), s.seq = .idle → s.requests = r :: rest → reservedOpcode r.opc →
    ∃ t, step s = .next t ∧ t.faults = addFault ⟨.illegalOp, r.opc⟩ s.faults ∧ t.seq = .halted ∧ t.resp = none ∧
      sequencerEvents t.trace = sequencerEvents s.trace ++ [Event.endOp (.fault .illegalOp)] ∧ t.tmo = s.tmo ∧
      SameBlock { s with faults := t.faults, requests := rest } t)

/-- The operands of R120 that R121 gives no default, in the order of R120's column. -/
def Sys2Proof.Machine.neededOperands (opc : Byte) : List OperandName :=
  match opc.toNat with
  | 0x01 => [.ws]
  | 0x02 => [.code]
  | 0x03 => [.w]
  | 0x04 => [.ws]
  | 0x05 => [.count]
  | 0x10 => [.pix]
  | 0x11 => [.pix]
  | 0x12 => [.pix]
  | 0x13 => [.pix]
  | 0x21 => [.addr]
  | 0x22 => [.addr, .value]
  | 0x24 => [.v]
  | 0x25 => [.rot, .pix]
  | 0x26 => [.rot, .pix]
  | 0x27 => [.x, .y, .w, .h, .mode]
  | 0x2F => [.vcom]
  | _ => []

/-- The request gives this operand a value. -/
def Sys2Proof.Machine.givesOperand (a : Operands) : OperandName → Bool
  | .ws => a.ws.isSome
  | .code => a.code.isSome
  | .wait => a.wait.isSome
  | .w => a.w.isSome
  | .chunk => a.chunk.isSome
  | .count => a.count.isSome
  | .pix => a.pix.isSome
  | .addr => a.addr.isSome
  | .value => a.value.isSome
  | .v => a.v.isSome
  | .bpp => a.bpp.isSome
  | .rot => a.rot.isSome
  | .origin => a.origin.isSome
  | .dims => a.dims.isSome
  | .x => a.x.isSome
  | .y => a.y.isSome
  | .h => a.h.isSome
  | .mode => a.mode.isSome
  | .vcom => a.vcom.isSome

/-- A request that leaves out an operand without a default is `F_OPERAND`, which names the first one left out; with all of them
given and an opcode of R120 it decodes to an instruction. The spec gives no rule for such a request: that it is `F_OPERAND`,
taken before any range is checked, is the model's choice (log 5), and so is that it emits no `OP` (log 9). -/
def Obligations.MissingOperandsFault : Prop :=
  (∀ (p : Params) (r : HostReq) (name : OperandName),
    decodeHost p r = .error (.missingOperand r.opc name) ↔
      ∃ pre post, neededOperands r.opc = pre ++ name :: post ∧ (∀ n ∈ pre, givesOperand r.operands n = true) ∧
        givesOperand r.operands name = false) ∧
  (∀ (p : Params) (r : HostReq), ¬reservedOpcode r.opc →
    (∀ n ∈ neededOperands r.opc, givesOperand r.operands n = true) → ∃ i, decodeHost p r = .ok i ∧ i.opc? = some r.opc) ∧
  (∀ (s : State) (r : HostReq) (rest : List HostReq) (pre post : List OperandName) (name : OperandName), s.seq = .idle →
    s.requests = r :: rest → neededOperands r.opc = pre ++ name :: post →
    (∀ n ∈ pre, givesOperand r.operands n = true) → givesOperand r.operands name = false →
    ∃ t, step s = .next t ∧ t.faults = addFault ⟨.operand name, r.opc⟩ s.faults ∧ t.seq = .halted ∧ t.resp = none ∧
      sequencerEvents t.trace = sequencerEvents s.trace ++ [Event.endOp (.fault (.operand name))] ∧ t.tmo = s.tmo ∧
      SameBlock { s with faults := t.faults, requests := rest } t)

/-- A rectangle side, or a chunk: 1 to 65535. -/
def Sys2Proof.Machine.inSize (n : Int) : Prop := 1 ≤ n ∧ n ≤ 65535

/-- A word operand: 0 to 65535. -/
def Sys2Proof.Machine.inWord (n : Int) : Prop := 0 ≤ n ∧ n ≤ 65535

/-- A bpp operand. -/
def Sys2Proof.Machine.inBpp (n : Int) : Prop := n = 2 ∨ n = 3 ∨ n = 4 ∨ n = 8

/-- Pixels: each 0 to 255. -/
def Sys2Proof.Machine.inPixels (pix : List Int) : Prop := ∀ q ∈ pix, 0 ≤ q ∧ q ≤ 255

/-- Every operand of a host operation is in the range R121 gives it. -/
def Sys2Proof.Machine.operandsInRange (p : Params) : Instr → Prop
  | .xfer ws => ∀ w ∈ ws, inWord w
  | .wcmd code wait => inWord code ∧ (wait = 0 ∨ wait = 1)
  | .wdata w => inWord w
  | .wwords ws chunk => (∀ w ∈ ws, inWord w) ∧ inSize chunk
  | .rwords count => inWord count
  | .pack2 pix => inPixels pix
  | .pack3 pix => inPixels pix
  | .pack4 pix => inPixels pix
  | .pack8 pix => inPixels pix
  | .rdreg addr => inWord addr
  | .wrreg addr value => inWord addr ∧ inWord value
  | .loadimgFull bpp rot pix => inBpp bpp ∧ (0 ≤ rot ∧ rot ≤ 3) ∧ inPixels pix
  | .loadimgArea bpp rot origin dims pix =>
      inBpp bpp ∧ (0 ≤ rot ∧ rot ≤ 3) ∧ (∀ q, origin = some q → inWord q.1 ∧ inWord q.2) ∧
        (∀ q, dims = some q → inSize q.1 ∧ inSize q.2) ∧ ¬(origin = none ∧ dims = none) ∧ inPixels pix
  | .dpyarea x y w h mode => inWord x ∧ inWord y ∧ inSize w ∧ inSize h ∧ mode ∈ p.modes
  | _ => True

/-- The operands of each host operation, left to right in the order of R120's column, each with its range (R121). -/
def Sys2Proof.Machine.operandRanges (p : Params) : Instr → List (OperandName × Prop)
  | .xfer ws => [(.ws, ∀ w ∈ ws, inWord w)]
  | .wcmd code wait => [(.code, inWord code), (.wait, wait = 0 ∨ wait = 1)]
  | .wdata w => [(.w, inWord w)]
  | .wwords ws chunk => [(.ws, ∀ w ∈ ws, inWord w), (.chunk, inSize chunk)]
  | .rwords count => [(.count, inWord count)]
  | .pack2 pix => [(.pix, inPixels pix)]
  | .pack3 pix => [(.pix, inPixels pix)]
  | .pack4 pix => [(.pix, inPixels pix)]
  | .pack8 pix => [(.pix, inPixels pix)]
  | .rdreg addr => [(.addr, inWord addr)]
  | .wrreg addr value => [(.addr, inWord addr), (.value, inWord value)]
  | .loadimgFull bpp rot pix => [(.bpp, inBpp bpp), (.rot, 0 ≤ rot ∧ rot ≤ 3), (.pix, inPixels pix)]
  | .loadimgArea bpp rot origin dims pix =>
      [(.bpp, inBpp bpp), (.rot, 0 ≤ rot ∧ rot ≤ 3),
       (.origin, (∀ q, origin = some q → inWord q.1 ∧ inWord q.2) ∧ ¬(origin = none ∧ dims = none)),
       (.dims, ∀ q, dims = some q → inSize q.1 ∧ inSize q.2), (.pix, inPixels pix)]
  | .dpyarea x y w h mode => [(.x, inWord x), (.y, inWord y), (.w, inSize w), (.h, inSize h), (.mode, mode ∈ p.modes)]
  | _ => []

/-- R121, R120, R306: an operand out of range is `F_OPERAND` with the name of the first one, left to right, found before any
other check and before any traffic, in every state of the flags; LOADIMG.AREA with neither origin nor dims names `origin`.
With all in range no operand is at fault. The defaults of `wait`, `chunk` and `bpp` are 1, `P_CHUNK` and 4. The events of the
fault are the model's choice (`FaultsWith`: logs 9 and 26). -/
def Obligations.OperandRanges : Prop :=
  (∀ (p : Params) (i : Instr), operandFault p i = none ↔ ∀ e ∈ operandRanges p i, e.2) ∧
  (∀ (p : Params) (i : Instr), operandsInRange p i ↔ ∀ e ∈ operandRanges p i, e.2) ∧
  (∀ (i : Instr) (s : State) (pre post : List (OperandName × Prop)) (name : OperandName) (ok : Prop),
    i.opc?.isSome = true → s.seq = .idle → operandRanges s.params i = pre ++ (name, ok) :: post →
    (∀ e ∈ pre, e.2) → ¬ok → FaultsWith i s (.operand name)) ∧
  (∀ (p : Params) (code rot : Int) (ws pix : List Int) (origin dims : Option (Int × Int)),
    decodeHost p ⟨0x02, { code := some code }⟩ = .ok (.wcmd code 1) ∧
      decodeHost p ⟨0x04, { ws := some ws }⟩ = .ok (.wwords ws p.chunk) ∧
      decodeHost p ⟨0x25, { rot := some rot, pix := some pix }⟩ = .ok (.loadimgFull 4 rot pix) ∧
      decodeHost p ⟨0x26, { rot := some rot, origin := origin, dims := dims, pix := some pix }⟩ =
        .ok (.loadimgArea 4 rot origin dims pix))

/-- 20_memory.md R74: a word is its high byte and then its low byte, both ways, in every state. -/
def Obligations.BigEndianBytes : Prop :=
  (∀ w : Word, bytesOfWords [w] = [hi8 w, lo8 w] ∧ (hi8 w).toNat = w.toNat / 256 ∧ (lo8 w).toNat = w.toNat % 256) ∧
  (∀ b0 b1 : Byte, (wordOfBytes b0 b1).toNat = 256 * b0.toNat + b1.toNat) ∧
  (∀ ws : List Word, wordsOfBytes (bytesOfWords ws) = some ws) ∧
  (∀ (ws : List Word) (s : State) (i : Nat), i < ws.length →
    (transact ws s).rdata[i]? = some (wordOfBytes (rxByte s (2 * i)) (rxByte s (2 * i + 1))))

/-- R106, R221: the load argument's fields and its reserved bits, whatever `bpp` and `rot`; `arg(4, 0) = 0x0020` by
default. The fields are the codes the parameters give the format and the rotation (R107, R108, R5); with the default rotation
codes ROT is the operand itself, as R221 writes it (log 28). -/
def Obligations.LoadArgumentFields : Prop :=
  (∀ (e : BitVec 8) (f r : BitVec 4), (loadArgWord e f r).toNat = 256 * e.toNat + 16 * f.toNat + r.toNat) ∧
  (∀ (p : Params) (bpp rot : Int), p.wf = true → inBpp bpp → 0 ≤ rot → rot ≤ 3 →
    loadArg p bpp rot &&& 0xFECC = 0 ∧ (loadArg p bpp rot).extractLsb' 8 8 = p.endian ∧
      (loadArg p bpp rot).extractLsb' 4 4 =
        (if bpp = 2 then p.fmt2 else if bpp = 3 then p.fmt3 else if bpp = 4 then p.fmt4 else p.fmt8) ∧
      (loadArg p bpp rot).extractLsb' 0 4 =
        (if rot = 0 then p.rotNone else if rot = 1 then p.rotRight else if rot = 2 then p.rotHalf else p.rotLeft) ∧
      (p.rotNone = 0 → p.rotRight = 1 → p.rotHalf = 2 → p.rotLeft = 3 →
        ((loadArg p bpp rot).extractLsb' 0 4).toNat = rot)) ∧
  loadArg Params.default 4 0 = 0x0020

/-- R113, R104: a decoder of the trace reads every command sequence of the block back from its transactions: the kind of each
frame, the command, and what every following DATA and READ frame means, with the words it carries. That a frame takes the
place its sequence has due, and that a command begins a sequence of its own, whatever was still due, are the model's choices
(log 24), of which R113 and R104 say nothing. -/
def Obligations.TracesDecode : Prop :=
  ∀ p : Params, p.wf = true →
    (∀ (bpp rot : Int) (rect : List Word) (roles : List Role) (cmd : Instr) (code : Word) (chunks : List (List Word))
      (tr : List (List Word × List Word)), inBpp bpp → 0 ≤ rot → rot ≤ 3 → (∀ c ∈ chunks, c ≠ []) →
      ((cmd = .cmdLdImg ∧ code = p.cmdLdImg ∧ roles = [] ∧ rect = []) ∨
        (cmd = .cmdLdImgArea ∧ code = p.cmdLdImgArea ∧ roles = [.x, .y, .w, .h] ∧ rect.length = 4)) →
      tr.map Prod.fst = [[0x6000, code], [0x0000, loadArg p bpp rot]] ++ rect.map (fun a => [0x0000, a]) ++
        chunks.map (0x0000 :: ·) ++ [[0x6000, p.cmdLdImgEnd]] →
      decodeTrace p tr =
        [.ok ⟨cmd, .command, []⟩,
          .ok ⟨.ldarg p.endian ((formatOf bpp).code p) (rotCode p rot), .loadArg, [loadArg p bpp rot]⟩] ++
        (roles.zip rect).map (fun q => .ok ⟨.frameData [q.2], q.1, [q.2]⟩) ++
        chunks.map (fun c => .ok ⟨.frameData c, .payload, c⟩) ++ [.ok ⟨.cmdLdImgEnd, .command, []⟩]) ∧
    (∀ (a v x y w h m : Word) (r0 r1 r2 r3 r4 r5 : List Word),
      decodeTrace p [([0x6000, p.cmdSysRun], r0), ([0x6000, p.cmdSleep], r1)] =
        [.ok ⟨.cmdSysRun, .command, []⟩, .ok ⟨.cmdSleep, .command, []⟩] ∧
      decodeTrace p [([0x6000, p.cmdRegRd], r0), ([0x0000, a], r1), ([0x1000, p.dummy, p.dummy], r2)] =
        [.ok ⟨.cmdRegRd, .command, []⟩, .ok ⟨.frameData [a], .addr, [a]⟩,
          .ok ⟨.frameRead 1, .registerReply, r2.drop 2⟩] ∧
      decodeTrace p [([0x6000, p.cmdRegWr], r0), ([0x0000, a], r1), ([0x0000, v], r2)] =
        [.ok ⟨.cmdRegWr, .command, []⟩, .ok ⟨.frameData [a], .addr, [a]⟩, .ok ⟨.frameData [v], .value, [v]⟩] ∧
      decodeTrace p [([0x6000, p.cmdVcom], r0), ([0x0000, p.vcomGet], r1), ([0x1000, p.dummy, p.dummy], r2)] =
        [.ok ⟨.cmdVcom, .command, []⟩, .ok ⟨.frameData [p.vcomGet], .selector, [p.vcomGet]⟩,
          .ok ⟨.frameRead 1, .vcomReply, r2.drop 2⟩] ∧
      decodeTrace p [([0x6000, p.cmdVcom], r0), ([0x0000, p.vcomSet], r1), ([0x0000, m], r2)] =
        [.ok ⟨.cmdVcom, .command, []⟩, .ok ⟨.frameData [p.vcomSet], .selector, [p.vcomSet]⟩,
          .ok ⟨.frameData [m], .millivolts, [m]⟩] ∧
      decodeTrace p [([0x6000, p.cmdGetDevInfo], r0), (0x1000 :: List.replicate 21 p.dummy, r1)] =
        [.ok ⟨.cmdGetDevInfo, .command, []⟩, .ok ⟨.frameRead 20, .infoReply, r1.drop 2⟩] ∧
      decodeTrace p [([0x6000, p.cmdDpyArea], r0), ([0x0000, x], r1), ([0x0000, y], r2), ([0x0000, w], r3),
          ([0x0000, h], r4), ([0x0000, m], r5)] =
        [.ok ⟨.cmdDpyArea, .command, []⟩, .ok ⟨.frameData [x], .x, [x]⟩, .ok ⟨.frameData [y], .y, [y]⟩,
          .ok ⟨.frameData [w], .w, [w]⟩, .ok ⟨.frameData [h], .h, [h]⟩, .ok ⟨.frameData [m], .mode, [m]⟩]) ∧
    (∀ (due : List Role) (code : Word) (r : List Word) (rest : List (List Word × List Word)),
      decodeTraceFrom p due (([0x6000, code], r) :: rest) = decodeTrace p (([0x6000, code], r) :: rest))

/-! ### The wire and the environment -/

/-- One gated transaction that sends `out` (40_transport.md R147): PRIME, the frame with as many words received as sent, and
the end of the wait, with the edges seen between them. The wait ends OK exactly when an edge has been seen since PRIME
(R143, R144, R350, R351), however RDY stood before; RDY is then 0, and TMO counts the timeout. Nothing else of the block
changes, and the words received are the controller's next bytes (R141). -/
def Sys2Proof.Machine.GatedBetween (out : List Word) (s t : State) : Prop :=
  ∃ a b c : Nat,
    newEvents s t =
        List.replicate a Event.edge ++ [Event.prime] ++ List.replicate b Event.edge ++ [Event.frame out (receive s out.length)] ++
          List.replicate c Event.edge ++ [if b + c = 0 then Event.timeout .data else Event.awaitOk] ∧
      t.trace = s.trace ++ newEvents s t ∧ t.rdata = receive s out.length ∧ t.rdy = false ∧
      t.tmo = (if b + c = 0 then s.tmo + 1 else s.tmo) ∧ SameBlock s t ∧ t.seq = s.seq ∧ t.resp = s.resp

/-- The ten commands of R105: each sends the CMD frame of its own code, in every state but HALTED. That a wire row runs by
itself is the model's form (log 7). -/
def Obligations.WireCommandsSend : Prop :=
  ∀ s : State, s.seq ≠ .halted →
    (∃ t, exec .cmdSysRun s = .next t ∧ GatedBetween [0x6000, s.params.cmdSysRun] s t) ∧
    (∃ t, exec .cmdSleep s = .next t ∧ GatedBetween [0x6000, s.params.cmdSleep] s t) ∧
    (∃ t, exec .cmdRegRd s = .next t ∧ GatedBetween [0x6000, s.params.cmdRegRd] s t) ∧
    (∃ t, exec .cmdRegWr s = .next t ∧ GatedBetween [0x6000, s.params.cmdRegWr] s t) ∧
    (∃ t, exec .cmdLdImg s = .next t ∧ GatedBetween [0x6000, s.params.cmdLdImg] s t) ∧
    (∃ t, exec .cmdLdImgArea s = .next t ∧ GatedBetween [0x6000, s.params.cmdLdImgArea] s t) ∧
    (∃ t, exec .cmdLdImgEnd s = .next t ∧ GatedBetween [0x6000, s.params.cmdLdImgEnd] s t) ∧
    (∃ t, exec .cmdDpyArea s = .next t ∧ GatedBetween [0x6000, s.params.cmdDpyArea] s t) ∧
    (∃ t, exec .cmdVcom s = .next t ∧ GatedBetween [0x6000, s.params.cmdVcom] s t) ∧
    (∃ t, exec .cmdGetDevInfo s = .next t ∧ GatedBetween [0x6000, s.params.cmdGetDevInfo] s t)

/-- The DATA frame, the READ frame (R103) and the image-load argument word in its one-word DATA frame (R104, R106): each
sends exactly its words, in every state but HALTED. That a wire row runs by itself is the model's form (log 7), and so is
that an empty or overlong payload or count is sent too (log 20). -/
def Obligations.WireFramesSend : Prop :=
  ∀ s : State, s.seq ≠ .halted →
    (∀ payload : List Word, ∃ t, exec (.frameData payload) s = .next t ∧ GatedBetween (0x0000 :: payload) s t) ∧
    (∀ count : Nat, ∃ t, exec (.frameRead count) s = .next t ∧
      GatedBetween (0x1000 :: List.replicate (count + 1) s.params.dummy) s t) ∧
    (∀ (e : BitVec 8) (f r : BitVec 4), ∃ t, exec (.ldarg e f r) s = .next t ∧
      GatedBetween [0x0000, loadArgWord e f r] s t)

/-- 10_state.md R35, 60_exceptions.md R304: HPREV is written by the edge agent alone, with the level it samples, and the level
of HRDY by the environment alone, whatever instruction runs and whatever step is taken. -/
def Obligations.HprevOnlyByEdgeAgent : Prop :=
  ∀ s t : State, (step s = .next t ∨ ∃ i, exec i s = .next t) → EnvRan s t

/-- R304: a sample of 1 after a sample of 0 sets RDY and is an EDGE; every sample is kept in HPREV; RDY already set stays
set, and the edge is still an event (R34). That the step of an IDLE block is one interleaving point (log 1), and that a slot
lists its moves (log 2), are the model's choices. -/
def Obligations.EdgeStepRule : Prop :=
  ∀ (s : State) (e : Bool), s.seq = .idle → s.requests = [] → nextSlot s = ⟨[.edge], e⟩ →
    ∃ t, step s = .next t ∧ t.hprev = s.hrdy ∧ t.hrdy = s.hrdy ∧
      (s.hrdy = true → s.hprev = false → t.rdy = true ∧ t.trace = s.trace ++ [Event.edge]) ∧
      (¬(s.hrdy = true ∧ s.hprev = false) → t.rdy = s.rdy ∧ t.trace = s.trace)

/-- R37, R141, R142: the words received are the controller's bytes in the order it sends them, each byte once, two to a word,
and none is taken but by a transaction. -/
def Obligations.BytesReceivedInOrder : Prop :=
  ∀ s t : State, (step s = .next t ∨ ∃ i, exec i s = .next t) → Drew s t

/-- 40_transport.md R143, R144, 10_state.md R34, 60_exceptions.md R304, for every instruction and every step: RDY afterwards
is what the new events make of it; an `Await` ends in AWAIT_OK exactly when RDY is 1 there. So a wait after its PRIME ends in
AWAIT_OK exactly when an EDGE stands between the two (R350, R351), and RDY after the last wait is 1 exactly when an EDGE came
after it. -/
def Obligations.WaitsEndByEdges : Prop :=
  ∀ s t : State, (step s = .next t ∨ ∃ i, exec i s = .next t) →
    t.rdy = readyOf s.rdy (newEvents s t) ∧
    (∀ a w c, newEvents s t = a ++ [w] ++ c → w.isWaitEnd = true → (w = .awaitOk ↔ readyOf s.rdy a = true)) ∧
    (∀ a b w c, newEvents s t = a ++ [Event.prime] ++ b ++ [w] ++ c → w.isWaitEnd = true →
      (∀ e ∈ b, e ≠ .prime ∧ e.isWaitEnd = false) → (w = .awaitOk ↔ Event.edge ∈ b)) ∧
    (∀ a w b, newEvents s t = a ++ [w] ++ b → w.isWaitEnd = true → (∀ e ∈ b, e ≠ .prime ∧ e.isWaitEnd = false) →
      (t.rdy = true ↔ Event.edge ∈ b))

/-! ### Transport operations -/

/-- R141: XFER sends its words as they are, receives as many, sets RMA (R158) and waits for nothing: no PRIME, no AWAIT, TMO
as it was, RDY written by the edge agent alone. An empty `ws` has no FRAME event. A word out of range is a fault, whose events are the model's choice
(`FaultsWith`: logs 9 and 26). -/
def Obligations.XferExchangesWords : Prop :=
  ∀ (s : State) (ws : List Int), s.seq = .idle →
    decodeHost s.params ⟨0x01, { ws := some ws }⟩ = .ok (.xfer ws) ∧
    ((∀ w ∈ ws, inWord w) →
      ∃ t, exec (.xfer ws) s = .next t ∧
        sequencerEvents t.trace = sequencerEvents s.trace ++ [Event.op (.xfer ws)] ++
          (if ws = [] then [] else [Event.frame (ws.map wordOf) (receive s ws.length)]) ++ [Event.endOp .ok] ∧
        t.answers (.words (receive s ws.length)) ∧ (receive s ws.length).length = ws.length ∧ t.seq = .idle ∧
        t.tmo = s.tmo ∧ ReadyByEdges s t ∧ SameBlock { s with rma := true } t) ∧
    (¬(∀ w ∈ ws, inWord w) → FaultsWith (.xfer ws) s (.operand .ws))

/-- R148, R153: WCMD sends one CMD frame, gated when `wait` is 1, bare when it is 0 (then RDY is neither cleared nor awaited
and TMO stays); RMA is set; any code is sent. -/
def Obligations.WcmdSendsACommand : Prop :=
  ∀ (s : State) (code : Int), s.seq = .idle → inWord code →
    (∃ t hs, exec (.wcmd code 1) s = .next t ∧ Gated [[0x6000, wordOf code]] hs ∧ Ran (.wcmd code 1) s t hs ∧
      t.answers .none ∧ SameBlock { s with rma := true } t) ∧
    (∃ t, exec (.wcmd code 0) s = .next t ∧
      Ran (.wcmd code 0) s t [Event.frame [0x6000, wordOf code] (receive s 2)] ∧
      t.answers .none ∧ ReadyByEdges s t ∧ SameBlock { s with rma := true } t)

/-- R149: WDATA sends one DATA frame of one word, gated; RMA is set. The events of the fault are the model's choice
(`FaultsWith`: logs 9 and 26). -/
def Obligations.WdataSendsAWord : Prop :=
  ∀ (s : State) (w : Int), s.seq = .idle →
    decodeHost s.params ⟨0x03, { w := some w }⟩ = .ok (.wdata w) ∧
    (inWord w →
      ∃ t hs, exec (.wdata w) s = .next t ∧ Gated [[0x0000, wordOf w]] hs ∧ Ran (.wdata w) s t hs ∧
        t.answers .none ∧ SameBlock { s with rma := true } t) ∧
    (¬inWord w → FaultsWith (.wdata w) s (.operand .w))

/-- R150: WWORDS sends the payload in DATA frames one after another, each with a handshake of its own: `ceil(n / chunk)` of
them, every one but the last with exactly `chunk` words, none empty, and together the payload in order; RMA is set. The events of the
faults are the model's choice (`FaultsWith`: logs 9 and 26). -/
def Obligations.WwordsSendsChunks : Prop :=
  ∀ (s : State) (ws : List Int) (chunk : Int), s.seq = .idle →
    decodeHost s.params ⟨0x04, { ws := some ws, chunk := some chunk }⟩ = .ok (.wwords ws chunk) ∧
    ((∀ w ∈ ws, inWord w) → inSize chunk →
      ∃ t hs, ∃ cs : List (List Word), exec (.wwords ws chunk) s = .next t ∧ Gated (cs.map (0x0000 :: ·)) hs ∧ Ran (.wwords ws chunk) s t hs ∧
        t.answers .none ∧ SameBlock { s with rma := true } t ∧
        cs.flatten = ws.map wordOf ∧ cs.length = (ws.length + chunk.toNat - 1) / chunk.toNat ∧
        (∀ c ∈ cs, c ≠ [] ∧ (c.length : Int) ≤ chunk) ∧ (∀ c ∈ cs.dropLast, (c.length : Int) = chunk)) ∧
    (¬(∀ w ∈ ws, inWord w) → FaultsWith (.wwords ws chunk) s (.operand .ws)) ∧
    ((∀ w ∈ ws, inWord w) → ¬inSize chunk → FaultsWith (.wwords ws chunk) s (.operand .chunk))

/-- R151, R152: RWORDS sends the READ frame for `count` words and answers the words received from the third on. The events of
the fault are the model's choice (`FaultsWith`: logs 9 and 26). -/
def Obligations.RwordsReadsWords : Prop :=
  ∀ (s : State) (count : Int), s.seq = .idle →
    decodeHost s.params ⟨0x05, { count := some count }⟩ = .ok (.rwords count) ∧
    (inWord count →
      ∃ t hs, exec (.rwords count) s = .next t ∧
        Gated [0x1000 :: List.replicate (count.toNat + 1) s.params.dummy] hs ∧ Ran (.rwords count) s t hs ∧
        t.answers (.words ((lastReceived hs).drop 2)) ∧ ((lastReceived hs).drop 2).length = count.toNat ∧
        SameBlock { s with rma := true } t) ∧
    (¬inWord count → FaultsWith (.rwords count) s (.operand .count))

/-- R156, R157, R341: HWRESET in every state of the flags. The signals and delays come in order; the startup wait reads the
level of HRDY, ends OK only when it is 1, and may time out whatever it is; a timeout is counted; RDY and HPREV are the edge
agent's; RESET_N ends 1; FAULT, TMO and TRACE are otherwise kept. That the startup wait is the sixth
interleaving point from acceptance (log 18), and that the environment's choice of its timeout is read from the slot there
(log 2), are the model's. -/
def Obligations.HwresetPulses : Prop :=
  ∀ s : State, s.seq = .idle →
    ∃ t w, exec .hwreset s = .next t ∧
      Ran .hwreset s t ([Event.sigResetN false, .delay .resetLow, .sigResetN true, .delay .postReset] ++ w) ∧
      (w = [] ∨ w = [Event.timeout .reset]) ∧
      (w = [] ↔ (linesAfter 6 s).1 = true ∧ (slotAt s 5).expire = false) ∧
      t.answers .none ∧ ReadyByEdges s t ∧ EnvRan s t ∧
      SameBlock { s with infoValid := false, configured := false, asleep := false, rma := true, info := none,
                         resetN := true } t

/-- R159: RDSTAT answers the timeout counter and four flags as they stand, in every state of the flags, and writes nothing. -/
def Obligations.RdstatReadsStatus : Prop :=
  ∀ s : State, s.seq = .idle →
    ∃ t, exec .rdstat s = .next t ∧ Ran .rdstat s t [] ∧ t.tmo = s.tmo ∧ ReadyByEdges s t ∧ SameBlock s t ∧
      t.answers (.status s.tmo s.infoValid s.configured s.rma s.asleep)

/-! ### Pixel packer -/

/-- The four packing operations: opcode, format, instruction. -/
def Sys2Proof.Machine.packOps : List (Byte × PixelFormat × (List Int → Instr)) :=
  [(0x10, .bpp2, .pack2), (0x11, .bpp3, .pack3), (0x12, .bpp4, .pack4), (0x13, .bpp8, .pack8)]

/-- R180: the four operations. In range and a multiple of `G` long, `PIX` gives `N / G` words and nothing else changes: only
the `OP` and `END` events, RDY left to the edge agent, no timeout. A pixel out of range is found first; then a length that
is no multiple of `G` is `F_PACK(MISALIGNED)`. The empty sequence gives no words. The events of the faults are the model's
choice (`FaultsWith`: logs 9 and 26). -/
def Obligations.PackOperations : Prop :=
  ∀ (s : State) (opc : Byte) (f : PixelFormat) (op : List Int → Instr) (pix : List Int), s.seq = .idle →
    (opc, f, op) ∈ packOps →
    decodeHost s.params ⟨opc, { pix := some pix }⟩ = .ok (op pix) ∧ (op pix).opc = opc ∧
    (inPixels pix → pix.length % f.group = 0 →
      ∃ t, exec (op pix) s = .next t ∧ Ran (op pix) s t [] ∧ ReadyByEdges s t ∧ SameBlock s t ∧ t.tmo = s.tmo ∧
        t.answers (.words (packPixels s.params.pack3 f (pix.map byteOf))) ∧
        (packPixels s.params.pack3 f (pix.map byteOf)).length = pix.length / f.group) ∧
    (¬inPixels pix → FaultsWith (op pix) s (.operand .pix)) ∧
    (inPixels pix → pix.length % f.group ≠ 0 → FaultsWith (op pix) s (.packMisaligned pix.length f.group))

/-- R181 to R184: word `i` of each format, from the group `PIX[G*i .. G*i + G)`, the first pixel in the least significant
field. -/
def Obligations.PackedWords : Prop :=
  (∀ (r : Pack3Rule) (pix : List Byte) (i : Nat), 8 * i + 7 < pix.length →
    ((packPixels r .bpp2 pix)[i]?.map BitVec.toNat) =
      some (((List.range 8).map fun j => (pix.getD (8 * i + j) 0).toNat / 64 * 4 ^ j).sum)) ∧
  (∀ (r : Pack3Rule) (pix : List Byte) (i : Nat), 4 * i + 3 < pix.length →
    ((packPixels r .bpp3 pix)[i]?.map BitVec.toNat) =
      some (((List.range 4).map fun j =>
        (match r with
         | .maskFirst => (pix.getD (4 * i + j) 0).toNat / 16
         | .shiftFirst => (pix.getD (4 * i + j) 0).toNat / 32 * 2) * 16 ^ j).sum)) ∧
  (∀ (r : Pack3Rule) (pix : List Byte) (i : Nat), 4 * i + 3 < pix.length →
    ((packPixels r .bpp4 pix)[i]?.map BitVec.toNat) =
      some (((List.range 4).map fun j => (pix.getD (4 * i + j) 0).toNat / 16 * 16 ^ j).sum)) ∧
  (∀ (r : Pack3Rule) (pix : List Byte) (i : Nat), 2 * i + 1 < pix.length →
    ((packPixels r .bpp8 pix)[i]?.map BitVec.toNat) =
      some (256 * (pix.getD (2 * i + 1) 0).toNat + (pix.getD (2 * i) 0).toNat))

/-- R182: under MASK_FIRST, PACK3 answers exactly the words PACK4 answers, as operations. -/
def Obligations.Pack3MaskFirstIsPack4 : Prop :=
  ∀ (s : State) (pix : List Int), s.seq = .idle → s.params.pack3 = .maskFirst → inPixels pix → pix.length % 4 = 0 →
    ∃ (t u : State) (ws : List Word), exec (.pack3 pix) s = .next t ∧ exec (.pack4 pix) s = .next u ∧
      t.answers (.words ws) ∧ u.answers (.words ws)

/-- R185: unpacking what was packed gives every pixel back, cut to the bits its format keeps, under either reading of 3 bpp. -/
def Obligations.UnpackUndoesPack : Prop :=
  ∀ (r : Pack3Rule) (f : PixelFormat) (pix : List Byte), pix.length % f.group = 0 →
    (packPixels r f pix).flatMap (unpackWord f) = pix.map (· &&& keptMask f)

/-! ### Protocol engine: checks -/

/-- The flag columns of R200 for each protocol operation that has them all: CONFIGURED = 1, ASLEEP = 0, RMA = 0. -/
def Sys2Proof.Machine.flagColumns : Instr → Option (Bool × Bool × Bool)
  | .qinfo => some (false, true, false)
  | .rdreg _ => some (true, true, false)
  | .wrreg _ _ => some (true, true, false)
  | .getvcom => some (true, true, false)
  | .setvcom _ => some (true, true, false)
  | .loadimgFull _ _ _ => some (true, true, true)
  | .loadimgArea _ _ _ _ _ => some (true, true, true)
  | .dpyarea _ _ _ _ _ => some (true, true, true)
  | .waitdpy => some (true, true, false)
  | .sleep => some (true, true, true)
  | .wake => some (true, false, false)
  | _ => none

/-- R200, R306: with its operands in range, a protocol operation faults on the first of its columns, left to right, that does
not hold, whatever its later checks would say; QINFO's own column, and INIT's. The events of the faults are the model's choice
(`FaultsWith`: logs 9 and 26). -/
def Obligations.ProtocolPreconditions : Prop :=
  ∀ (i : Instr) (s : State), s.seq = .idle → operandsInRange s.params i →
    (∀ conf awake noRma, flagColumns i = some (conf, awake, noRma) →
      (conf = true → s.configured = false → FaultsWith i s (.precond .notConfigured)) ∧
      ((conf = true → s.configured = true) → awake = true → s.asleep = true → FaultsWith i s (.precond .asleep)) ∧
      ((conf = true → s.configured = true) → (awake = true → s.asleep = false) → noRma = true → s.rma = true →
        FaultsWith i s (.precond .refreshMayBeActive))) ∧
    (i = .qinfo → s.asleep = false → s.infoValid = true → FaultsWith i s (.precond .infoRepeated)) ∧
    (∀ v, i = .init v → s.configured = true → FaultsWith i s (.precond .alreadyConfigured))

/-- The block is configured, awake, with no refresh possible, and holds this DeviceInfo: what a load or a display needs. -/
structure Sys2Proof.Machine.ReadyWith (s : State) (d : DeviceInfo) : Prop where
  idle : s.seq = .idle
  configured : s.configured = true
  awake : s.asleep = false
  no_refresh : s.rma = false
  info_valid : s.infoValid = true
  info : s.info = some d

/-- The extent check of R220. -/
def Sys2Proof.Machine.InPanel (d : DeviceInfo) (x y w h : Int) : Prop := x + w ≤ d.panelW.toNat ∧ y + h ≤ d.panelH.toNat

/-- The alignment of 20_memory.md R81. -/
def Sys2Proof.Machine.Aligned (p : Params) (d : DeviceInfo) (x y w h : Int) : Prop :=
  x % p.areaAlign = 0 ∧ y % p.areaAlign = 0 ∧ (w % p.areaAlign = 0 ∨ x + w = d.panelW.toNat) ∧
    (h % p.areaAlign = 0 ∨ y + h = d.panelH.toNat)

/-- A panel with pixels (R220). -/
def Sys2Proof.Machine.HasPixels (d : DeviceInfo) : Prop := d.panelW ≠ 0 ∧ d.panelH ≠ 0

/-- R220 and R81 as `i` finds them for the rectangle: which of the three it raises, in order. The events of the faults are the
model's choice (`FaultsWith`: logs 9 and 26). -/
def Sys2Proof.Machine.RectangleChecks (i : Instr) (s : State) (d : DeviceInfo) (x y w h : Int) : Prop :=
  (¬HasPixels d → FaultsWith i s (.precond .panelEmpty)) ∧
    (HasPixels d → ¬InPanel d x y w h → FaultsWith i s (.precond .areaOutOfPanel)) ∧
    (HasPixels d → InPanel d x y w h → ¬Aligned s.params d x y w h → FaultsWith i s (.precond .areaMisaligned))

/-! ### Protocol engine: device information, registers, VCOM -/

/-- The device information of the 20 words of the reply (R112, R201, R75), as registers: the version words in order. -/
def Sys2Proof.Machine.infoFromReply (d : DeviceInfo) (r : List Word) : Prop :=
  r.length = 20 ∧ d.panelW = r.getD 0 0 ∧ d.panelH = r.getD 1 0 ∧
    d.imgAddr.toNat = (r.getD 2 0).toNat + 65536 * (r.getD 3 0).toNat ∧ d.fwv.toList = (r.drop 4).take 8 ∧
    d.lutv.toList = r.drop 12

/-- R201: QINFO on an awake block without DeviceInfo sends its command and the 22-word READ frame, stores the reply as it is
received, timed out or not, and answers it; nothing else of the block changes. That it does so on an unconfigured block just
after power-on is the model's choice between R200 and R201, which admit it, and the closing remark of R52, which leaves QINFO
out of the first operations that end without a fault, by the order of 90_conflicts.md (log 25). -/
def Obligations.QinfoReadsDeviceInfo : Prop :=
  ∀ s : State, s.seq = .idle → s.asleep = false → s.infoValid = false →
    ∃ t hs d, exec .qinfo s = .next t ∧
      Gated [[0x6000, s.params.cmdGetDevInfo], 0x1000 :: List.replicate 21 s.params.dummy] hs ∧ Ran .qinfo s t hs ∧
      infoFromReply d ((lastReceived hs).drop 2) ∧
      t.answers (.info d.panelW d.panelH d.imgAddr d.fwv.chars d.lutv.chars) ∧
      SameBlock { s with info := some d, infoValid := true } t

/-- 10_state.md R41, 20_memory.md R76: a version string is 16 characters, two for each word, high byte first. -/
def Obligations.VersionStrings : Prop :=
  ∀ v : VersionWords, v.chars.length = 16 ∧
    ∀ (k : Nat) (w : Word), v.toList[k]? = some w →
      v.chars[2 * k]? = some (Char.ofNat (w.toNat / 256)) ∧ v.chars[2 * k + 1]? = some (Char.ofNat (w.toNat % 256))

/-- R210: RDREG sends its three frames and answers the one data word, whatever it is; no flag or register changes (R50). -/
def Obligations.RdregReadsARegister : Prop :=
  ∀ (s : State) (addr : Int), s.seq = .idle → s.configured = true → s.asleep = false → inWord addr →
    ∃ t hs r, exec (.rdreg addr) s = .next t ∧
      Gated [[0x6000, s.params.cmdRegRd], [0x0000, wordOf addr], [0x1000, s.params.dummy, s.params.dummy]] hs ∧
      Ran (.rdreg addr) s t hs ∧ (lastReceived hs)[2]? = some r ∧ t.answers (.word r) ∧ SameBlock s t

/-- R211: WRREG sends its three frames, the address before the value, and reads nothing back. -/
def Obligations.WrregWritesARegister : Prop :=
  ∀ (s : State) (addr value : Int), s.seq = .idle → s.configured = true → s.asleep = false → inWord addr →
    inWord value →
    ∃ t hs, exec (.wrreg addr value) s = .next t ∧
      Gated [[0x6000, s.params.cmdRegWr], [0x0000, wordOf addr], [0x0000, wordOf value]] hs ∧
      Ran (.wrreg addr value) s t hs ∧ t.answers .none ∧ SameBlock s t

/-- R212, R219: GETVCOM answers the word read as a two's complement number of millivolts, negated, in volts, exactly. -/
def Obligations.GetvcomReadsVolts : Prop :=
  ∀ s : State, s.seq = .idle → s.configured = true → s.asleep = false →
    ∃ t hs r q, exec .getvcom s = .next t ∧
      Gated [[0x6000, s.params.cmdVcom], [0x0000, s.params.vcomGet], [0x1000, s.params.dummy, s.params.dummy]] hs ∧
      Ran .getvcom s t hs ∧ (lastReceived hs)[2]? = some r ∧ 1000 * q = -(r.toInt : Rat) ∧ t.answers (.volts q) ∧
      SameBlock s t

/-- R213, R301: SETVCOM strictly between -5 and 0 V sends `m = trunc0(-1000 v)` in its third frame; any other value is
`E_CONFIG` with no frame and no change, and the block is IDLE again. That no EDGE stands between its two events is the
model's choice (`ConfigErrs`: log 26). -/
def Obligations.SetvcomSendsMillivolts : Prop :=
  ∀ (s : State) (v : Rat), s.seq = .idle → s.configured = true → s.asleep = false →
    (-5 < v → v < 0 →
      ∃ t hs, exec (.setvcom v) s = .next t ∧
        Gated [[0x6000, s.params.cmdVcom], [0x0000, s.params.vcomSet], [0x0000, wordOf (millivolts v)]] hs ∧
        Ran (.setvcom v) s t hs ∧ t.answers .none ∧ SameBlock s t) ∧
    (v ≤ -5 ∨ 0 ≤ v → ConfigErrs (.setvcom v) s v)

/-- R110, R213, R219: for a legal voltage, `m` is the exact truncation, from 0 to 4999, and the word is `m` itself. -/
def Obligations.VcomWordIsExact : Prop :=
  ∀ v : Rat, -5 < v → v < 0 →
    0 ≤ millivolts v ∧ millivolts v ≤ 4999 ∧ (millivolts v : Rat) ≤ -1000 * v ∧ -1000 * v < millivolts v + 1 ∧
      ((vcomWord v).toNat : Int) = millivolts v

/-! ### Protocol engine: image load, display, power -/

/-- The payload transactions of a load: DATA frames of at most `P_CHUNK` words that together carry the packed pixels (R150,
R222). -/
def Sys2Proof.Machine.PayloadFrames (p : Params) (bpp : Int) (pix : List Int) (fs : List (List Word)) : Prop :=
  ∃ cs : List (List Word), fs = cs.map (0x0000 :: ·) ∧
    cs.flatten = packPixels p.pack3 (formatOf bpp) (pix.map byteOf) ∧ (∀ c ∈ cs, c ≠ [] ∧ c.length ≤ p.chunk) ∧
    ∀ c ∈ cs.dropLast, c.length = p.chunk

/-- R222, R224, R225: LOADIMG.FULL sends its command, the load argument, the payload and the end command, and nothing else;
RMA is unchanged. Its own checks, in order: an empty panel, a pixel count that is not the panel's, a misaligned group. The
events of the faults are the model's choice (`FaultsWith`: logs 9 and 26). -/
def Obligations.LoadFullStreamsThePanel : Prop :=
  ∀ (s : State) (d : DeviceInfo) (bpp rot : Int) (pix : List Int), ReadyWith s d → 1 ≤ s.params.chunk →
    operandsInRange s.params (.loadimgFull bpp rot pix) →
    (HasPixels d → pix.length = d.panelW.toNat * d.panelH.toNat → pix.length % (formatOf bpp).group = 0 →
      ∃ t hs fs, exec (.loadimgFull bpp rot pix) s = .next t ∧ PayloadFrames s.params bpp pix fs ∧
        Gated ([[0x6000, s.params.cmdLdImg], [0x0000, loadArg s.params bpp rot]] ++ fs ++
          [[0x6000, s.params.cmdLdImgEnd]]) hs ∧
        Ran (.loadimgFull bpp rot pix) s t hs ∧ t.answers .none ∧ SameBlock s t) ∧
    (¬HasPixels d → FaultsWith (.loadimgFull bpp rot pix) s (.precond .panelEmpty)) ∧
    (HasPixels d → pix.length ≠ d.panelW.toNat * d.panelH.toNat →
      FaultsWith (.loadimgFull bpp rot pix) s (.precond .pixelCount)) ∧
    (HasPixels d → pix.length = d.panelW.toNat * d.panelH.toNat → pix.length % (formatOf bpp).group ≠ 0 →
      FaultsWith (.loadimgFull bpp rot pix) s (.packMisaligned pix.length (formatOf bpp).group))

/-- R223, R220, R224, R225: LOADIMG.AREA, with a missing origin at (0, 0) and missing dims the panel's: the checks of the
rectangle, of the pixel count and of the group in order, then the command, its five arguments, the payload, the end
command. The events of the faults are the model's choice (`FaultsWith`: logs 9 and 26). -/
def Obligations.LoadAreaStreamsARectangle : Prop :=
  ∀ (s : State) (d : DeviceInfo) (bpp rot : Int) (origin dims : Option (Int × Int)) (pix : List Int) (x y w h : Int),
    ReadyWith s d → 1 ≤ s.params.chunk → operandsInRange s.params (.loadimgArea bpp rot origin dims pix) →
    (x, y) = origin.getD (0, 0) → (w, h) = dims.getD (d.panelW.toNat, d.panelH.toNat) →
    RectangleChecks (.loadimgArea bpp rot origin dims pix) s d x y w h ∧
    (HasPixels d → InPanel d x y w h → Aligned s.params d x y w h →
      ((pix.length : Int) = w * h → pix.length % (formatOf bpp).group = 0 →
        ∃ t hs fs, exec (.loadimgArea bpp rot origin dims pix) s = .next t ∧ PayloadFrames s.params bpp pix fs ∧
          Gated ([[0x6000, s.params.cmdLdImgArea], [0x0000, loadArg s.params bpp rot], [0x0000, wordOf x],
            [0x0000, wordOf y], [0x0000, wordOf w], [0x0000, wordOf h]] ++ fs ++ [[0x6000, s.params.cmdLdImgEnd]]) hs ∧
          Ran (.loadimgArea bpp rot origin dims pix) s t hs ∧ t.answers .none ∧ SameBlock s t) ∧
      ((pix.length : Int) ≠ w * h → FaultsWith (.loadimgArea bpp rot origin dims pix) s (.precond .pixelCount)) ∧
      ((pix.length : Int) = w * h → pix.length % (formatOf bpp).group ≠ 0 →
        FaultsWith (.loadimgArea bpp rot origin dims pix) s (.packMisaligned pix.length (formatOf bpp).group)))

/-- R230, R220: DPYAREA checks its rectangle, sends its command and five arguments, and sets RMA; nothing else changes. The
events of the faults are the model's choice (`FaultsWith`: logs 9 and 26). -/
def Obligations.DpyareaRefreshes : Prop :=
  ∀ (s : State) (d : DeviceInfo) (x y w h mode : Int), ReadyWith s d →
    operandsInRange s.params (.dpyarea x y w h mode) →
    RectangleChecks (.dpyarea x y w h mode) s d x y w h ∧
    (HasPixels d → InPanel d x y w h → Aligned s.params d x y w h →
      ∃ t hs, exec (.dpyarea x y w h mode) s = .next t ∧
        Gated [[0x6000, s.params.cmdDpyArea], [0x0000, wordOf x], [0x0000, wordOf y], [0x0000, wordOf w],
          [0x0000, wordOf h], [0x0000, wordOf mode]] hs ∧
        Ran (.dpyarea x y w h mode) s t hs ∧ t.answers .none ∧ SameBlock { s with rma := true } t)

/-- The three frames of one poll of the status register (R210, R232). -/
def Sys2Proof.Machine.pollFrames (p : Params) : List (List Word) := [[0x6000, p.cmdRegRd], [0x0000, p.regStatus], [0x1000, p.dummy, p.dummy]]

/-- The status word the next poll will read: of the 14 bytes of its three transactions, the last two. -/
def Sys2Proof.Machine.nextStatus (s : State) : Word := wordOfBytes (rxByte s 12) (rxByte s 13)

/-- R232: WAITDPY on a configured block that is awake, with RMA 0 or 1, polls the status register once. Reading zero it ends
and clears RMA, and nothing else changes. Reading anything else it goes round: after the poll delay it is BUSY at the next
poll, with RMA as it was and no response given (where one `exec` ends and the next step begins is the model's choice, log
1). -/
def Obligations.WaitdpyPolls : Prop :=
  ∀ s : State, s.seq = .idle → s.configured = true → s.asleep = false →
    (nextStatus s = 0 →
      ∃ t hs, exec .waitdpy s = .next t ∧ Gated (pollFrames s.params) hs ∧ (lastReceived hs)[2]? = some 0 ∧
        Ran .waitdpy s t hs ∧ t.answers .none ∧ SameBlock { s with rma := false } t) ∧
    (nextStatus s ≠ 0 →
      ∃ t hs, exec .waitdpy s = .next t ∧ Gated (pollFrames s.params) hs ∧
        (lastReceived hs)[2]? = some (nextStatus s) ∧ t.seq = .busy 0x28 (pollActs s.params) ∧ t.resp = none ∧
        SameBlock s t ∧
        sequencerEvents t.trace = sequencerEvents s.trace ++ [Event.op .waitdpy] ++ hs ++ [Event.delay .poll] ∧
        t.tmo = s.tmo + BitVec.ofNat 32 (timeoutsOf hs))

/-- `n` steps of the machine, none of which stops, lead from `s` to `t`. -/
def Sys2Proof.Machine.stepsTo : Nat → State → State → Prop
  | 0, s, t => t = s
  | n + 1, s, t => ∃ u, step s = .next u ∧ stepsTo n u t

/-- R232: one round of the poll loop, five steps of the machine, on the 14 bytes that come next, of which the status is the
last two. Nonzero leads, past the delay, back to where the round began; zero ends WAITDPY with RMA cleared. -/
def Obligations.PollLoopRound : Prop :=
  ∀ s : State, s.seq = .busy 0x28 (pollActs s.params) →
    ∃ t hs, stepsTo 5 s t ∧ Gated (pollFrames s.params) hs ∧ t.draws = s.draws + 14 ∧
      t.tmo = s.tmo + BitVec.ofNat 32 (timeoutsOf hs) ∧
      (nextStatus s ≠ 0 → t.seq = s.seq ∧ t.resp = s.resp ∧ SameBlock s t ∧
        sequencerEvents t.trace = sequencerEvents s.trace ++ hs ++ [Event.delay .poll]) ∧
      (nextStatus s = 0 → t.seq = .idle ∧ t.answers .none ∧
        SameBlock { s with rma := false } t ∧
        sequencerEvents t.trace = sequencerEvents s.trace ++ hs ++ [Event.endOp .ok])

/-- The status word the `k`-th poll from now on will read. -/
def Sys2Proof.Machine.statusAt (s : State) (k : Nat) : Word := wordOfBytes (rxByte s (14 * k + 12)) (rxByte s (14 * k + 13))

/-- R233: the poll loop runs as long as the status reads are nonzero, without a bound: after any number of them WAITDPY is at
the same place, with no response given and nothing else changed. And for every number of rounds there is a controller that
keeps it there. That a round is five steps (log 1), and that what the controller sends is a list of bytes (log 2), are the
model's choices. -/
def Obligations.WaitdpyMayNeverEnd : Prop :=
  ∀ s : State, s.seq = .busy 0x28 (pollActs s.params) → ∀ n : Nat,
    ((∀ k, k < n → statusAt s k ≠ 0) →
      ∃ t, stepsTo (5 * n) s t ∧ t.seq = s.seq ∧ t.resp = s.resp ∧ SameBlock s t) ∧
    ∃ (rx : List Byte) (t : State), stepsTo (5 * n) { s with rx := rx } t ∧ t.seq = s.seq ∧ t.rma = s.rma

/-- R234: SLEEP sends its one frame and sets ASLEEP. -/
def Obligations.SleepSendsAndSleeps : Prop :=
  ∀ s : State, s.seq = .idle → s.configured = true → s.asleep = false → s.rma = false →
    ∃ t hs, exec .sleep s = .next t ∧ Gated [[0x6000, s.params.cmdSleep]] hs ∧ Ran .sleep s t hs ∧ t.answers .none ∧
      SameBlock { s with asleep := true } t

/-- R235: WAKE, asleep or not, sends its one frame and clears ASLEEP; RMA is unchanged. -/
def Obligations.WakeSendsAndWakes : Prop :=
  ∀ s : State, s.seq = .idle → s.configured = true →
    ∃ t hs, exec .wake s = .next t ∧ Gated [[0x6000, s.params.cmdSysRun]] hs ∧ Ran .wake s t hs ∧ t.answers .none ∧
      SameBlock { s with asleep := false } t

/-- The 15 frames of INIT (R240), with the DeviceInfo it reads. -/
def Sys2Proof.Machine.initFrames (p : Params) (vcom : Rat) (d : DeviceInfo) : List (List Word) :=
  [[0x6000, p.cmdSysRun], [0x6000, p.cmdGetDevInfo], 0x1000 :: List.replicate 21 p.dummy,
    [0x6000, p.cmdRegWr], [0x0000, p.regLisarH], [0x0000, d.imgAddr.extractLsb' 16 16],
    [0x6000, p.cmdRegWr], [0x0000, p.regLisarL], [0x0000, d.imgAddr.extractLsb' 0 16],
    [0x6000, p.cmdRegWr], [0x0000, p.regI80cpcr], [0x0000, p.packedOn],
    [0x6000, p.cmdVcom], [0x0000, p.vcomSet], [0x0000, wordOf (millivolts vcom)]]

/-- R240: INIT on an unconfigured block. With a legal voltage it resets the controller, sends its 15 frames in order with
DeviceInfo as read in the third, and is CONFIGURED at the end, RMA still 1. With any other voltage it is `E_CONFIG` before
the reset pulse, with nothing sent and nothing changed. That no EDGE stands between its two events is the model's choice
(`ConfigErrs`: log 26). -/
def Obligations.InitConfigures : Prop :=
  ∀ (s : State) (vcom : Rat), s.seq = .idle → s.configured = false →
    (-5 < vcom → vcom < 0 →
      ∃ t w hs d, exec (.init vcom) s = .next t ∧ (w = [] ∨ w = [Event.timeout .reset]) ∧
        Ran (.init vcom) s t
          ([Event.sigResetN false, .delay .resetLow, .sigResetN true, .delay .postReset] ++ w ++ hs) ∧
        Gated (initFrames s.params vcom d) hs ∧ infoFromReply d ((receivedAt hs 2).drop 2) ∧ t.answers .none ∧
        SameBlock { s with info := some d, infoValid := true, configured := true, asleep := false, rma := true,
                           resetN := true } t) ∧
    (vcom ≤ -5 ∨ 0 ≤ vcom → ConfigErrs (.init vcom) s vcom)

/-! ### The protocol engine as a whole -/

/-- The instructions whose rule resets the block's protocol state (R156, R240). -/
def Sys2Proof.Machine.isReset : Instr → Prop
  | .hwreset => True
  | .init _ => True
  | _ => False

/-- The raw transport operations (R158). -/
def Sys2Proof.Machine.isRaw : Instr → Prop
  | .xfer _ => True
  | .wcmd _ _ => True
  | .wdata _ => True
  | .wwords _ _ => True
  | .rwords _ => True
  | _ => False

/-- The packing operations and RDSTAT, which write nothing but TRACE (R53). -/
def Sys2Proof.Machine.isPure : Instr → Prop
  | .rdstat => True
  | .pack2 _ => True
  | .pack3 _ => True
  | .pack4 _ => True
  | .pack8 _ => True
  | _ => False

/-- A load (R222, R223). -/
def Sys2Proof.Machine.isLoad : Instr → Prop
  | .loadimgFull _ _ _ => True
  | .loadimgArea _ _ _ _ _ => True
  | _ => False

/-- Register access and VCOM (R210 to R213). -/
def Sys2Proof.Machine.isAccess : Instr → Prop
  | .rdreg _ => True
  | .wrreg _ _ => True
  | .getvcom => True
  | .setvcom _ => True
  | _ => False

/-- 10_state.md R53: a field the table does not give an operation is as it was, whether the operation ends well, raises
`E_CONFIG` or faults. RDY is the edge agent's alone in the operations that have no handshake, and HPREV in all. -/
def Obligations.OnlyTheTableIsWritten : Prop :=
  ∀ (i : Instr) (s t : State), i.opc?.isSome = true → exec i s = .next t →
    (¬isReset i → t.resetN = s.resetN ∧ t.configured = s.configured) ∧
    (¬isReset i → i ≠ .qinfo → t.info = s.info ∧ t.infoValid = s.infoValid) ∧
    (¬isReset i → i ≠ .sleep → i ≠ .wake → t.asleep = s.asleep) ∧
    (¬isReset i → ¬isRaw i → (∀ x y w h m, i ≠ .dpyarea x y w h m) → i ≠ .waitdpy → t.rma = s.rma) ∧
    (isPure i → t.tmo = s.tmo) ∧
    (isPure i ∨ i = .hwreset → ReadyByEdges s t) ∧
    (t.seq ≠ .halted → t.faults = s.faults) ∧ EnvRan s t ∧
    t.requests = s.requests ∧ t.params = s.params

/-- 42_protocol.md R241: every cell of the table of transitions. An operation that does not fault was in a state the table
lets it run in and leads to the state the table gives. That one `exec` of WAITDPY may leave it under way, with the state as
before, is the model's choice (log 1), and that QINFO runs before INIT its choice between two rules (log 25). -/
def Obligations.ProtocolTransitions : Prop :=
  ∀ (i : Instr) (s t : State), s.Inv → i.opc?.isSome = true → exec i s = .next t → t.proto ≠ .halted →
    (∀ v, i = .init v → s.proto = .unconfigured ∧
      (t.proto = .refreshing ∨ (t.proto = .unconfigured ∧ t.resp = some ⟨.config, .rejected v⟩))) ∧
    (i = .hwreset → t.proto = .unconfigured) ∧
    (i = .qinfo → s.proto = .unconfigured ∧ s.infoValid = false ∧ t.proto = .unconfigured ∧ t.infoValid = true) ∧
    (isAccess i → (s.proto = .ready ∨ s.proto = .refreshing) ∧ t.proto = s.proto) ∧
    (isLoad i → s.proto = .ready ∧ t.proto = .ready) ∧
    (∀ x y w h m, i = .dpyarea x y w h m → s.proto = .ready ∧ t.proto = .refreshing) ∧
    (i = .waitdpy → (s.proto = .ready ∨ s.proto = .refreshing) ∧
      ((t.seq = .idle ∧ t.proto = .ready) ∨ (t.seq.isBusy = true ∧ t.proto = s.proto))) ∧
    (i = .sleep → s.proto = .ready ∧ t.proto = .sleeping) ∧
    (i = .wake → s.proto ≠ .unconfigured ∧ t.proto = if s.rma then .refreshing else .ready) ∧
    (isRaw i → t.rma = true ∧
      t.proto = if s.proto = .ready then .refreshing else s.proto) ∧
    (isPure i → t.proto = s.proto)

/-- 10_state.md R43: RMA goes from 1 to 0 in one way only, by a WAITDPY that has read the status register as zero: as the
request just taken, or as the operation in progress. -/
def Obligations.OnlyWaitdpyClearsRma : Prop :=
  ∀ s t : State, s.Inv → step s = .next t → s.rma = true → t.rma = false →
    (s.seq = .idle ∧ ∃ r rest, s.requests = r :: rest ∧ decodeHost s.params r = .ok .waitdpy ∧
      receivedWords (newEvents s t) ≠ [] ∧ (receivedWords (newEvents s t)).getLast? = some 0) ∨
    ((∃ rest, s.seq = .busy 0x28 (.pollCheck :: rest)) ∧ s.rdata[2]? = some 0)

/-! ### The host model -/

/-- 49_host_diff_engine.md R268: rounding and rounding with clamping are idempotent and keep what they must contain; merging
is commutative and associative with absent as its identity, and commutes with `rc` on boxes inside the buffer. -/
def Obligations.BoxLaws : Prop :=
  ∀ (a w h : Nat), 1 ≤ a →
    (∀ b : Box, (b.round a).round a = b.round a ∧ (b.rc a w h).rc a w h = b.rc a w h) ∧
    (∀ (b : Box) (x y : Int), b.mem x y = true → (b.round a).mem x y = true) ∧
    (∀ (b : Box) (x y : Int), b.mem x y = true → 0 ≤ x → x < w → 0 ≤ y → y < h → (b.rc a w h).mem x y = true) ∧
    (∀ b c d : Option Box, mergeBox b c = mergeBox c b ∧ mergeBox (mergeBox b c) d = mergeBox b (mergeBox c d) ∧
      mergeBox none b = b ∧ mergeBox b none = b) ∧
    (∀ b c : Box, 0 ≤ b.minX → b.minX ≤ b.maxX → b.maxX ≤ w → 0 ≤ b.minY → b.minY ≤ b.maxY → b.maxY ≤ h →
      0 ≤ c.minX → c.minX ≤ c.maxX → c.maxX ≤ w → 0 ≤ c.minY → c.minY ≤ c.maxY → c.maxY ≤ h →
      (b.rc a w h).union (c.rc a w h) = (b.union c).rc a w h)

/-- R278, R272, R273: DRAWPARTIAL on an unchanged view issues no operation and keeps the accumulator; with no previous frame
it issues what DRAWFULL issues; CLEAR makes every pixel of the buffer white, issues WAITDPY, a full load and a display in the
initialisation mode, and ends with an all-white previous frame and an empty accumulator, whatever the host held. That the
host has that previous frame and accumulator whatever becomes of the operations, also where the load faults or WAITDPY never
ends, is the model's choice (log 27). -/
def Obligations.HostDrawing : Prop :=
  ∀ (p : Params) (mode : Int) (hs : HostState),
    (hs.prev = some (view p hs.w hs.h hs.fb) → drawPartial p mode hs = ([], hs)) ∧
    (hs.prev = none → drawPartial p mode hs = drawFull p mode hs) ∧
    (p.modeInit ≠ p.modeFast →
      (clear p hs).2.fb = List.replicate (hs.w * hs.h) p.white ∧ (clear p hs).2.w = hs.w ∧ (clear p hs).2.h = hs.h ∧
        (clear p hs).2.prev = some (List.replicate (hs.w * hs.h) p.white) ∧ (clear p hs).2.acc = none ∧
        (clear p hs).1 = [.waitdpy,
          .loadimgFull p.hostFmt 0 (List.replicate (hs.w * hs.h) (p.white.toNat : Int)),
          .dpyarea 0 0 hs.w hs.h p.modeInit])

/-- What the fast mode makes of a pixel it sends (R269, R271, R272). -/
def Sys2Proof.Machine.sentPixel (p : Params) (mode : Int) (px : Byte) : Int :=
  if mode = p.modeFast then (if p.thresh ≤ px.toNat then p.white.toNat else 0) else px.toNat

/-- R261, R264, R270, pixel by pixel: the view, the smallest box that holds every pixel at which two arrays differ (each of
its sides touches one; none when they are equal), and the crop of a box inside the buffer, row by row. -/
def Obligations.HostImages : Prop :=
  ∀ (p : Params) (w h : Nat),
    (∀ fb : List Byte, fb.length = w * h → (view p w h fb).length = w * h ∧
      ∀ x y, x < w → y < h →
        (view p w h fb)[y * w + x]? = if p.rot180 then fb[(h - 1 - y) * w + (w - 1 - x)]? else fb[y * w + x]?) ∧
    (∀ a b : List Byte, a.length = w * h → b.length = w * h →
      (bboxdiff w h a b = none ↔ a = b) ∧
      ∀ box, bboxdiff w h a b = some box →
        (0 ≤ box.minX ∧ box.minX < box.maxX ∧ box.maxX ≤ w ∧ 0 ≤ box.minY ∧ box.minY < box.maxY ∧ box.maxY ≤ h) ∧
        (∀ x y, x < w → y < h → a[y * w + x]? ≠ b[y * w + x]? → box.mem x y = true) ∧
        (∃ x y, x < w ∧ y < h ∧ a[y * w + x]? ≠ b[y * w + x]? ∧ (x : Int) = box.minX) ∧
        (∃ x y, x < w ∧ y < h ∧ a[y * w + x]? ≠ b[y * w + x]? ∧ (x : Int) + 1 = box.maxX) ∧
        (∃ x y, x < w ∧ y < h ∧ a[y * w + x]? ≠ b[y * w + x]? ∧ (y : Int) = box.minY) ∧
        (∃ x y, x < w ∧ y < h ∧ a[y * w + x]? ≠ b[y * w + x]? ∧ (y : Int) + 1 = box.maxY)) ∧
    (∀ (v : List Byte) (x0 y0 cw ch : Nat), v.length = w * h → x0 + cw ≤ w → y0 + ch ≤ h →
      (crop w v ⟨x0, y0, (x0 + cw : Nat), (y0 + ch : Nat)⟩).length = cw * ch ∧
      ∀ i j, i < cw → j < ch →
        (crop w v ⟨x0, y0, (x0 + cw : Nat), (y0 + ch : Nat)⟩)[j * cw + i]? = v[(y0 + j) * w + (x0 + i)]?)

/-- The three operations that send the rectangle of box `r` of the view `v` (R272). -/
def Sys2Proof.Machine.sendsBox (p : Params) (mode : Int) (w : Nat) (v : List Byte) (r : Box) : List Instr :=
  [.waitdpy,
    .loadimgArea p.hostFmt 0 (some (r.minX, r.minY)) (some (r.maxX - r.minX, r.maxY - r.minY))
      ((crop w v r).map (sentPixel p mode)),
    .dpyarea r.minX r.minY (r.maxX - r.minX) (r.maxY - r.minY) mode]

/-- R271, R272, R277. DRAWFULL in any mode sends the whole view, changed or not; a fast one merges the changed box, or the
full box without a previous frame, into the accumulator, any other empties it. DRAWPARTIAL with a change sends its box in
the fast mode, which the accumulator keeps, and the accumulated region in any other, which empties it. So a fast partial
draw of a region A and then another of a region B send the box of both. PREV is the view each time: that the host has it
whatever becomes of the operations is the model's choice (log 27). -/
def Obligations.HostSendsRegions : Prop :=
  ∀ (p : Params) (hs : HostState), hs.wf = true → 1 ≤ p.align →
    let v := view p hs.w hs.h hs.fb
    let rc := Box.rc p.align hs.w hs.h
    (∀ mode : Int,
      (drawFull p mode hs).1 =
        [.waitdpy, .loadimgFull p.hostFmt 0 (v.map (sentPixel p mode)), .dpyarea 0 0 hs.w hs.h mode] ∧
      (drawFull p mode hs).2 = { hs with
        prev := some v
        acc := if mode ≠ p.modeFast then none
          else match hs.prev with
            | none => mergeBox hs.acc (some ⟨0, 0, hs.w, hs.h⟩)
            | some q => mergeBox hs.acc ((bboxdiff hs.w hs.h q v).map rc) }) ∧
    (∀ (mode : Int) (q : List Byte) (b : Box), hs.prev = some q → bboxdiff hs.w hs.h q v = some b →
      drawPartial p mode hs =
        if mode = p.modeFast then
          (sendsBox p mode hs.w v (rc b), { hs with prev := some v, acc := mergeBox hs.acc (some (rc b)) })
        else
          (sendsBox p mode hs.w v (match hs.acc with | none => rc b | some c => rc (c.union (rc b))),
            { hs with prev := some v, acc := none })) ∧
    (∀ (mode : Int) (q fa fb : List Byte) (a b : Box), hs.prev = some q → hs.acc = none → mode ≠ p.modeFast →
      fa.length = hs.w * hs.h → fb.length = hs.w * hs.h →
      bboxdiff hs.w hs.h q (view p hs.w hs.h fa) = some a →
      bboxdiff hs.w hs.h (view p hs.w hs.h fa) (view p hs.w hs.h fb) = some b →
      let afterA := (drawPartial p p.modeFast (drawExternally fa hs)).2
      (drawPartial p mode (drawExternally fb afterA)).1 =
        sendsBox p mode hs.w (view p hs.w hs.h fb) (rc (a.union b)))

/-- R274, R275, R262: CONSTRUCT with a legal voltage leaves a white buffer of the panel's size, no previous frame and an
empty accumulator, and with any other voltage no state; every procedure, and external drawing, keeps the arrays at `W*H`
pixels; external drawing sets any array of that size and changes nothing else. -/
def Obligations.HostStateIsThePanels : Prop :=
  (∀ (s : State) (vcom : Rat), s.seq = .idle → s.configured = false →
    (-5 < vcom → vcom < 0 →
      ∃ t d, exec (.init vcom) s = .next t ∧ t.info = some d ∧
        runConstruct vcom s = some
          { w := d.panelW.toNat, h := d.panelH.toNat, prev := none, acc := none,
            fb := List.replicate (d.panelW.toNat * d.panelH.toNat) s.params.white }) ∧
    (vcom ≤ -5 ∨ 0 ≤ vcom → runConstruct vcom s = none)) ∧
  (∀ (p : Params) (d : DeviceInfo), (construct p d).wf = true) ∧
  (∀ (p : Params) (hs : HostState) (mode : Int) (fb : List Byte), hs.wf = true →
    (drawFull p mode hs).2.wf = true ∧ (drawPartial p mode hs).2.wf = true ∧ (clear p hs).2.wf = true ∧
      (drawExternally fb hs).wf = true ∧
      (fb.length = hs.w * hs.h → drawExternally fb hs = { hs with fb := fb }))
end

