-- ==== Sys2Proof/Laws/Host.lean ====
section
/-! SUPPORT. The host model: boxes (rounding, clamping, merging), the sizes of its arrays, and what each procedure ends with. -/

namespace Sys2Proof.Machine

/-! ### Boxes -/

theorem alignDown_le {a : Nat} (ha : 1 ≤ a) (x : Int) : alignDown a x ≤ x := by
  have := Int.mul_ediv_self_le (x := x) (k := (a : Int)) (by omega)
  exact this

theorem le_alignUp {a : Nat} (ha : 1 ≤ a) (x : Int) : x ≤ alignUp a x := by
  have := Int.mul_ediv_self_le (x := -x) (k := (a : Int)) (by omega)
  unfold alignUp
  omega

theorem alignDown_mono {a : Nat} (ha : 1 ≤ a) {x y : Int} (h : x ≤ y) : alignDown a x ≤ alignDown a y :=
  Int.mul_le_mul_of_nonneg_left (Int.ediv_le_ediv (by omega) h) (by omega)

theorem alignUp_mono {a : Nat} (ha : 1 ≤ a) {x y : Int} (h : x ≤ y) : alignUp a x ≤ alignUp a y :=
  Int.neg_le_neg (alignDown_mono ha (Int.neg_le_neg h))

@[simp] theorem alignDown_alignDown {a : Nat} (ha : 1 ≤ a) (x : Int) : alignDown a (alignDown a x) = alignDown a x := by
  unfold alignDown
  rw [Int.mul_ediv_cancel_left _ (by omega)]

@[simp] theorem alignUp_alignUp {a : Nat} (ha : 1 ≤ a) (x : Int) : alignUp a (alignUp a x) = alignUp a x := by
  unfold alignUp
  rw [Int.neg_neg, Int.mul_ediv_cancel_left _ (by omega)]

@[simp] theorem alignDown_zero (a : Nat) : alignDown a 0 = 0 := by simp [alignDown]

theorem alignDown_min {a : Nat} (ha : 1 ≤ a) (x y : Int) : alignDown a (min x y) = min (alignDown a x) (alignDown a y) := by
  rcases Int.le_total x y with h | h
  · rw [Int.min_eq_left h, Int.min_eq_left (alignDown_mono ha h)]
  · rw [Int.min_eq_right h, Int.min_eq_right (alignDown_mono ha h)]

theorem alignDown_max {a : Nat} (ha : 1 ≤ a) (x y : Int) : alignDown a (max x y) = max (alignDown a x) (alignDown a y) := by
  rcases Int.le_total x y with h | h
  · rw [Int.max_eq_right h, Int.max_eq_right (alignDown_mono ha h)]
  · rw [Int.max_eq_left h, Int.max_eq_left (alignDown_mono ha h)]

theorem alignUp_min {a : Nat} (ha : 1 ≤ a) (x y : Int) : alignUp a (min x y) = min (alignUp a x) (alignUp a y) := by
  rcases Int.le_total x y with h | h
  · rw [Int.min_eq_left h, Int.min_eq_left (alignUp_mono ha h)]
  · rw [Int.min_eq_right h, Int.min_eq_right (alignUp_mono ha h)]

theorem alignUp_max {a : Nat} (ha : 1 ≤ a) (x y : Int) : alignUp a (max x y) = max (alignUp a x) (alignUp a y) := by
  rcases Int.le_total x y with h | h
  · rw [Int.max_eq_right h, Int.max_eq_right (alignUp_mono ha h)]
  · rw [Int.max_eq_left h, Int.max_eq_left (alignUp_mono ha h)]

/-- R268, law 1. -/
theorem Box.rc_rc {a : Nat} (ha : 1 ≤ a) (w h : Nat) (b : Box) : (b.rc a w h).rc a w h = b.rc a w h := by
  have down : ∀ x : Int, max (alignDown a (max (alignDown a x) 0)) 0 = max (alignDown a x) 0 := by
    intro x
    rw [alignDown_max ha, alignDown_alignDown ha, alignDown_zero]
    omega
  have up : ∀ (x : Int) (n : Nat), min (alignUp a (min (alignUp a x) n)) n = min (alignUp a x) n := by
    intro x n
    rw [alignUp_min ha, alignUp_alignUp ha]
    have := le_alignUp ha (n : Int)
    omega
  simp only [Box.rc, Box.round, Box.clamp, down, up]

/-- R268, law 4. -/
theorem Box.rc_union {a : Nat} (ha : 1 ≤ a) (w h : Nat) (b c : Box) :
    (b.rc a w h).union (c.rc a w h) = (b.union c).rc a w h := by
  simp only [Box.rc, Box.round, Box.clamp, Box.union, alignDown_min ha, alignUp_max ha]
  congr 1 <;> omega

/-! ### Sizes -/

theorem range_filterMap_length {α : Type} (n : Nat) (f : Nat → Option α) (hf : ∀ k, k < n → (f k).isSome = true) :
    ((List.range n).filterMap f).length = n ∧ ∀ k, k < n → ((List.range n).filterMap f)[k]? = f k := by
  induction n with
  | zero => simp
  | succ n ih =>
    obtain ⟨l, e⟩ := ih fun k hk => hf k (by omega)
    obtain ⟨x, hx⟩ := Option.isSome_iff_exists.1 (hf n (by omega))
    rw [List.range_succ, List.filterMap_append, List.filterMap_cons, hx, List.filterMap_nil]
    refine ⟨by simp [l], fun k hk => ?_⟩
    rcases Nat.lt_or_ge k n with h | h
    · rw [List.getElem?_append_left (by omega), e k h]
    · obtain rfl : k = n := by omega
      rw [List.getElem?_append_right (by omega), l, hx]
      simp

/-- Position `y*W + x` of a buffer, as its column and row. -/
theorem position {w x : Nat} (y : Nat) (hx : x < w) : (y * w + x) % w = x ∧ (y * w + x) / w = y := by
  have hw : 0 < w := by omega
  rw [Nat.mul_comm, Nat.mul_add_mod, Nat.mod_eq_of_lt hx, Nat.mul_add_div hw, Nat.div_eq_of_lt hx, Nat.add_zero]
  exact ⟨rfl, rfl⟩

theorem position_lt {w h x y : Nat} (hx : x < w) (hy : y < h) : y * w + x < w * h := by
  have : (y + 1) * w ≤ h * w := Nat.mul_le_mul_right _ hy
  rw [Nat.add_mul] at this
  rw [Nat.mul_comm w h]
  omega

/-- Every position is that of a column and a row. -/
theorem exists_position {w h k : Nat} (hk : k < w * h) : k % w < w ∧ k / w < h ∧ k / w * w + k % w = k := by
  have hw : 0 < w := Nat.pos_of_ne_zero fun h0 => by simp [h0] at hk
  exact ⟨Nat.mod_lt _ hw, Nat.div_lt_of_lt_mul hk, by rw [Nat.mul_comm]; exact Nat.div_add_mod k w⟩

/-- R261, by position. -/
theorem view_spec (p : Params) (w h : Nat) {fb : List Byte} (hl : fb.length = w * h) :
    (view p w h fb).length = w * h ∧ ∀ k, k < w * h →
      (view p w h fb)[k]? = if p.rot180 then fb[(h - 1 - k / w) * w + (w - 1 - k % w)]? else fb[k]? := by
  apply range_filterMap_length
  intro k hk
  obtain ⟨h1, h2, _⟩ := exists_position hk
  split
  · generalize k / w = y at h2
    generalize k % w = x at h1
    have : (h - 1 - y) * w + (w - 1 - x) < w * h := position_lt (by omega) (by omega)
    simp [hl, this]
  · simp [hl, hk]

theorem view_length (p : Params) (w h : Nat) {fb : List Byte} (hl : fb.length = w * h) :
    (view p w h fb).length = w * h := (view_spec p w h hl).1

theorem rows {α : Type} (f : Nat → List α) (m : Nat) : ∀ n : Nat, (∀ j, j < n → (f j).length = m) →
    ((List.range n).flatMap f).length = m * n ∧
      ∀ i j, i < m → j < n → ((List.range n).flatMap f)[j * m + i]? = (f j)[i]? := by
  intro n
  induction n with
  | zero => intro _; simp
  | succ n ih =>
    intro hf
    obtain ⟨l, e⟩ := ih fun j hj => hf j (by omega)
    rw [List.range_succ, List.flatMap_append, List.flatMap_singleton]
    refine ⟨by rw [List.length_append, l, hf n (by omega), Nat.mul_succ], fun i j hi hj => ?_⟩
    rcases Nat.lt_or_ge j n with h | h
    · rw [List.getElem?_append_left (by rw [l]; exact position_lt hi h), e i j hi h]
    · obtain rfl : j = n := by omega
      rw [List.getElem?_append_right (by rw [l, Nat.mul_comm]; omega), l, Nat.mul_comm m, Nat.add_sub_cancel_left]

/-- R270, by row and column of a box inside the buffer. -/
theorem crop_spec {w h : Nat} {v : List Byte} (hl : v.length = w * h) {x0 y0 cw ch : Nat} (hx : x0 + cw ≤ w)
    (hy : y0 + ch ≤ h) :
    (crop w v ⟨x0, y0, (x0 + cw : Nat), (y0 + ch : Nat)⟩).length = cw * ch ∧
      ∀ i j, i < cw → j < ch →
        (crop w v ⟨x0, y0, (x0 + cw : Nat), (y0 + ch : Nat)⟩)[j * cw + i]? = v[(y0 + j) * w + (x0 + i)]? := by
  have h1 : (((x0 + cw : Nat) : Int) - x0).toNat = cw := by omega
  have h2 : (((y0 + ch : Nat) : Int) - y0).toNat = ch := by omega
  have row : ∀ j, j < ch → _ := fun j hj =>
    range_filterMap_length cw (fun i => v[(y0 + j) * w + (x0 + i)]?) fun i hi => by
      have : (y0 + j) * w + (x0 + i) < w * h := position_lt (by omega) (by omega)
      simp [hl, this]
  obtain ⟨a, b⟩ := rows (fun j => (List.range cw).filterMap fun i => v[(y0 + j) * w + (x0 + i)]?) cw ch
    fun j hj => (row j hj).1
  simp only [crop, h1, h2, Int.toNat_natCast]
  exact ⟨a, fun i j hi hj => (b i j hi hj).trans ((row j hj).2 i hi)⟩

/-! ### Differences -/

theorem leastOf_spec (f : Nat → Int) (k : Nat) (ks : List Nat) :
    (∀ j ∈ k :: ks, leastOf f k ks ≤ f j) ∧ ∃ j ∈ k :: ks, leastOf f k ks = f j := by
  unfold leastOf
  have go : ∀ (ks : List Nat) (m : Int),
      ks.foldl (fun m j => min m (f j)) m ≤ m ∧ (∀ j ∈ ks, ks.foldl (fun m j => min m (f j)) m ≤ f j) ∧
        (ks.foldl (fun m j => min m (f j)) m = m ∨ ∃ j ∈ ks, ks.foldl (fun m j => min m (f j)) m = f j) := by
    intro ks
    induction ks with
    | nil => intro m; simp
    | cons c ks ih =>
      intro m
      obtain ⟨a1, a2, a3⟩ := ih (min m (f c))
      simp only [List.foldl_cons]
      refine ⟨by omega, ?_, ?_⟩
      · intro j hj
        rcases List.mem_cons.1 hj with rfl | hj
        · omega
        · exact a2 j hj
      · rcases a3 with a3 | ⟨j, hj, a3⟩
        · rcases Int.le_total m (f c) with h | h
          · exact .inl (by rw [a3]; omega)
          · exact .inr ⟨c, by simp, by rw [a3]; omega⟩
        · exact .inr ⟨j, by simp [hj], a3⟩
  obtain ⟨a1, a2, a3⟩ := go ks (f k)
  refine ⟨fun j hj => ?_, ?_⟩
  · rcases List.mem_cons.1 hj with rfl | hj
    · exact a1
    · exact a2 j hj
  · rcases a3 with a3 | ⟨j, hj, a3⟩
    · exact ⟨k, by simp, a3⟩
    · exact ⟨j, by simp [hj], a3⟩

theorem greatestOf_eq (f : Nat → Int) (k : Nat) (ks : List Nat) : greatestOf f k ks = -leastOf (fun j => -f j) k ks := by
  unfold greatestOf leastOf
  dsimp only
  generalize f k = m
  suffices ∀ n : Int, n = -m → ks.foldl (fun m j => max m (f j)) m = -ks.foldl (fun m j => min m (-f j)) n from
    this (-m) rfl
  induction ks generalizing m with
  | nil => intro n hn; simp [hn]
  | cons c ks ih => intro n hn; exact ih (max m (f c)) (min n (-f c)) (by omega)

theorem greatestOf_spec (f : Nat → Int) (k : Nat) (ks : List Nat) :
    (∀ j ∈ k :: ks, f j ≤ greatestOf f k ks) ∧ ∃ j ∈ k :: ks, greatestOf f k ks = f j := by
  rw [greatestOf_eq]
  obtain ⟨a, j, hj, b⟩ := leastOf_spec (fun j => -f j) k ks
  refine ⟨fun j hj => ?_, j, hj, by omega⟩
  have := a j hj
  omega

theorem mem_differing {w h k : Nat} {a b : List Byte} : k ∈ differing w h a b ↔ k < w * h ∧ a[k]? ≠ b[k]? := by
  simp [differing]

/-- What R264 says of the box: every differing position lies in it, and each side touches one. -/
theorem bboxdiff_some {w h : Nat} {a b : List Byte} {box : Box} (hb : bboxdiff w h a b = some box) :
    (∀ k ∈ differing w h a b, box.mem (k % w : Nat) (k / w : Nat) = true) ∧
      (∃ k ∈ differing w h a b, ((k % w : Nat) : Int) = box.minX) ∧
      (∃ k ∈ differing w h a b, ((k % w : Nat) : Int) + 1 = box.maxX) ∧
      (∃ k ∈ differing w h a b, ((k / w : Nat) : Int) = box.minY) ∧
      (∃ k ∈ differing w h a b, ((k / w : Nat) : Int) + 1 = box.maxY) := by
  unfold bboxdiff at hb
  split at hb
  · exact absurd hb (by simp)
  · next k ks hd =>
    injection hb with hb
    subst hb
    rw [hd]
    obtain ⟨x1, i1, m1, e1⟩ := leastOf_spec (fun j => ((j % w : Nat) : Int)) k ks
    obtain ⟨x2, i2, m2, e2⟩ := greatestOf_spec (fun j => ((j % w : Nat) : Int)) k ks
    obtain ⟨x3, i3, m3, e3⟩ := leastOf_spec (fun j => ((j / w : Nat) : Int)) k ks
    obtain ⟨x4, i4, m4, e4⟩ := greatestOf_spec (fun j => ((j / w : Nat) : Int)) k ks
    refine ⟨fun j hj => ?_, ⟨i1, m1, e1.symm⟩, ⟨i2, m2, ?_⟩, ⟨i3, m3, e3.symm⟩, ⟨i4, m4, ?_⟩⟩
    · have h1 := x1 j hj
      have h2 := x2 j hj
      have h3 := x3 j hj
      have h4 := x4 j hj
      simp only [Box.mem, decide_eq_true_eq]
      omega
    · simp only [e2]; omega
    · simp only [e4]; omega

/-- R264: no box exactly when the arrays are equal. -/
theorem bboxdiff_none {w h : Nat} {a b : List Byte} (ha : a.length = w * h) (hb : b.length = w * h) :
    bboxdiff w h a b = none ↔ a = b := by
  have : bboxdiff w h a b = none ↔ differing w h a b = [] := by
    unfold bboxdiff
    split <;> simp [*]
  rw [this]
  constructor
  · intro hd
    apply List.ext_getElem?
    intro k
    rcases Nat.lt_or_ge k (w * h) with hk | hk
    · by_contra hne
      have : k ∈ differing w h a b := mem_differing.2 ⟨hk, hne⟩
      rw [hd] at this
      exact absurd this (by simp)
    · rw [List.getElem?_eq_none (by omega), List.getElem?_eq_none (by omega)]
  · rintro rfl
    simp [differing]

/-! ### The procedures -/

theorem HostState.wf_iff {hs : HostState} :
    hs.wf = true ↔ hs.fb.length = hs.w * hs.h ∧ ∀ prev, hs.prev = some prev → prev.length = hs.w * hs.h := by
  simp [HostState.wf]

/-- A procedure that ends with the view as PREV keeps the arrays' size. -/
theorem HostState.wf_view {hs : HostState} (hw : hs.wf = true) (p : Params) (acc : Option Box) :
    ({ hs with acc := acc, prev := some (view p hs.w hs.h hs.fb) } : HostState).wf = true := by
  have h := (HostState.wf_iff.1 hw).1
  exact HostState.wf_iff.2 ⟨h, by rintro _ ⟨⟩; exact view_length p _ _ h⟩

theorem drawFull_wf {hs : HostState} (hw : hs.wf = true) (p : Params) (mode : Int) : (drawFull p mode hs).2.wf = true :=
  HostState.wf_view hw p _

theorem drawRegion_wf {hs : HostState} (hw : hs.wf = true) (p : Params) (mode : Int) (d : Box) :
    (drawRegion p mode (view p hs.w hs.h hs.fb) d hs).2.wf = true := HostState.wf_view hw p _

theorem drawPartial_wf {hs : HostState} (hw : hs.wf = true) (p : Params) (mode : Int) :
    (drawPartial p mode hs).2.wf = true := by
  unfold drawPartial
  split
  · exact drawFull_wf hw p mode
  · dsimp only
    split
    · exact HostState.wf_view hw p hs.acc
    · exact drawRegion_wf hw p mode _

theorem drawExternally_wf {hs : HostState} (hw : hs.wf = true) (fb : List Byte) : (drawExternally fb hs).wf = true := by
  unfold drawExternally
  split
  · next h => exact HostState.wf_iff.2 ⟨h, (HostState.wf_iff.1 hw).2⟩
  · exact hw

theorem clear_wf {hs : HostState} (hw : hs.wf = true) (p : Params) : (clear p hs).2.wf = true :=
  drawFull_wf (hs := { hs with fb := List.replicate (hs.w * hs.h) p.white })
    (HostState.wf_iff.2 ⟨List.length_replicate, (HostState.wf_iff.1 hw).2⟩) p p.modeInit

theorem construct_wf (p : Params) (d : DeviceInfo) : (construct p d).wf = true :=
  HostState.wf_iff.2 ⟨List.length_replicate, by rintro _ ⟨⟩⟩

end Sys2Proof.Machine
end

