-- ==== Sys2Proof/Laws/State.lean ====
section
/-! SUPPORT. One lemma for each field of State and each update, true by rfl: what `emit`, `environment`, `takeFault`,
`configError`, `accept`, `load`, `transact` and `takeRequest` write, and that they leave every other field alone. -/

namespace Sys2Proof.Machine

/-! ### emit -/

@[simp] theorem emit_rdy (e : Event) (s : State) : (emit e s).rdy = s.rdy := rfl
@[simp] theorem emit_hprev (e : Event) (s : State) : (emit e s).hprev = s.hprev := rfl
@[simp] theorem emit_tmo (e : Event) (s : State) : (emit e s).tmo = s.tmo := rfl
@[simp] theorem emit_resetN (e : Event) (s : State) : (emit e s).resetN = s.resetN := rfl
@[simp] theorem emit_info (e : Event) (s : State) : (emit e s).info = s.info := rfl
@[simp] theorem emit_infoValid (e : Event) (s : State) : (emit e s).infoValid = s.infoValid := rfl
@[simp] theorem emit_configured (e : Event) (s : State) : (emit e s).configured = s.configured := rfl
@[simp] theorem emit_rma (e : Event) (s : State) : (emit e s).rma = s.rma := rfl
@[simp] theorem emit_asleep (e : Event) (s : State) : (emit e s).asleep = s.asleep := rfl
@[simp] theorem emit_faults (e : Event) (s : State) : (emit e s).faults = s.faults := rfl
@[simp] theorem emit_seq (e : Event) (s : State) : (emit e s).seq = s.seq := rfl
@[simp] theorem emit_trace (e : Event) (s : State) : (emit e s).trace = s.trace ++ [e] := rfl
@[simp] theorem emit_params (e : Event) (s : State) : (emit e s).params = s.params := rfl
@[simp] theorem emit_rdata (e : Event) (s : State) : (emit e s).rdata = s.rdata := rfl
@[simp] theorem emit_resp (e : Event) (s : State) : (emit e s).resp = s.resp := rfl
@[simp] theorem emit_hrdy (e : Event) (s : State) : (emit e s).hrdy = s.hrdy := rfl
@[simp] theorem emit_script (e : Event) (s : State) : (emit e s).script = s.script := rfl
@[simp] theorem emit_slots (e : Event) (s : State) : (emit e s).slots = s.slots := rfl
@[simp] theorem emit_rx (e : Event) (s : State) : (emit e s).rx = s.rx := rfl
@[simp] theorem emit_draws (e : Event) (s : State) : (emit e s).draws = s.draws := rfl
@[simp] theorem emit_requests (e : Event) (s : State) : (emit e s).requests = s.requests := rfl

/-! ### environment -/

@[simp] theorem environment_rdy (s : State) : (environment s).rdy = (readyAfter s).rdy := rfl
@[simp] theorem environment_hprev (s : State) : (environment s).hprev = (readyAfter s).hprev := rfl
@[simp] theorem environment_tmo (s : State) : (environment s).tmo = s.tmo := rfl
@[simp] theorem environment_resetN (s : State) : (environment s).resetN = s.resetN := rfl
@[simp] theorem environment_info (s : State) : (environment s).info = s.info := rfl
@[simp] theorem environment_infoValid (s : State) : (environment s).infoValid = s.infoValid := rfl
@[simp] theorem environment_configured (s : State) : (environment s).configured = s.configured := rfl
@[simp] theorem environment_rma (s : State) : (environment s).rma = s.rma := rfl
@[simp] theorem environment_asleep (s : State) : (environment s).asleep = s.asleep := rfl
@[simp] theorem environment_faults (s : State) : (environment s).faults = s.faults := rfl
@[simp] theorem environment_seq (s : State) : (environment s).seq = s.seq := rfl
@[simp] theorem environment_trace (s : State) : (environment s).trace = s.trace ++ List.replicate (readyAfter s).edges .edge := rfl
@[simp] theorem environment_params (s : State) : (environment s).params = s.params := rfl
@[simp] theorem environment_rdata (s : State) : (environment s).rdata = s.rdata := rfl
@[simp] theorem environment_resp (s : State) : (environment s).resp = s.resp := rfl
@[simp] theorem environment_hrdy (s : State) : (environment s).hrdy = (readyAfter s).hrdy := rfl
@[simp] theorem environment_script (s : State) : (environment s).script = s.script.tail := rfl
@[simp] theorem environment_slots (s : State) : (environment s).slots = s.slots + 1 := rfl
@[simp] theorem environment_rx (s : State) : (environment s).rx = s.rx := rfl
@[simp] theorem environment_draws (s : State) : (environment s).draws = s.draws := rfl
@[simp] theorem environment_requests (s : State) : (environment s).requests = s.requests := rfl

/-! ### takeFault -/

@[simp] theorem takeFault_rdy (opc : Byte) (c : Cause) (s : State) : (takeFault opc c s).rdy = s.rdy := rfl
@[simp] theorem takeFault_hprev (opc : Byte) (c : Cause) (s : State) : (takeFault opc c s).hprev = s.hprev := rfl
@[simp] theorem takeFault_tmo (opc : Byte) (c : Cause) (s : State) : (takeFault opc c s).tmo = s.tmo := rfl
@[simp] theorem takeFault_resetN (opc : Byte) (c : Cause) (s : State) : (takeFault opc c s).resetN = s.resetN := rfl
@[simp] theorem takeFault_info (opc : Byte) (c : Cause) (s : State) : (takeFault opc c s).info = s.info := rfl
@[simp] theorem takeFault_infoValid (opc : Byte) (c : Cause) (s : State) : (takeFault opc c s).infoValid = s.infoValid := rfl
@[simp] theorem takeFault_configured (opc : Byte) (c : Cause) (s : State) : (takeFault opc c s).configured = s.configured := rfl
@[simp] theorem takeFault_rma (opc : Byte) (c : Cause) (s : State) : (takeFault opc c s).rma = s.rma := rfl
@[simp] theorem takeFault_asleep (opc : Byte) (c : Cause) (s : State) : (takeFault opc c s).asleep = s.asleep := rfl
@[simp] theorem takeFault_faults (opc : Byte) (c : Cause) (s : State) : (takeFault opc c s).faults = addFault ⟨c, opc⟩ s.faults := rfl
@[simp] theorem takeFault_seq (opc : Byte) (c : Cause) (s : State) : (takeFault opc c s).seq = .halted := rfl
@[simp] theorem takeFault_trace (opc : Byte) (c : Cause) (s : State) : (takeFault opc c s).trace = s.trace ++ [.endOp (.fault c)] := rfl
@[simp] theorem takeFault_params (opc : Byte) (c : Cause) (s : State) : (takeFault opc c s).params = s.params := rfl
@[simp] theorem takeFault_rdata (opc : Byte) (c : Cause) (s : State) : (takeFault opc c s).rdata = s.rdata := rfl
@[simp] theorem takeFault_resp (opc : Byte) (c : Cause) (s : State) : (takeFault opc c s).resp = s.resp := rfl
@[simp] theorem takeFault_hrdy (opc : Byte) (c : Cause) (s : State) : (takeFault opc c s).hrdy = s.hrdy := rfl
@[simp] theorem takeFault_script (opc : Byte) (c : Cause) (s : State) : (takeFault opc c s).script = s.script := rfl
@[simp] theorem takeFault_slots (opc : Byte) (c : Cause) (s : State) : (takeFault opc c s).slots = s.slots := rfl
@[simp] theorem takeFault_rx (opc : Byte) (c : Cause) (s : State) : (takeFault opc c s).rx = s.rx := rfl
@[simp] theorem takeFault_draws (opc : Byte) (c : Cause) (s : State) : (takeFault opc c s).draws = s.draws := rfl
@[simp] theorem takeFault_requests (opc : Byte) (c : Cause) (s : State) : (takeFault opc c s).requests = s.requests := rfl

/-! ### configError -/

@[simp] theorem configError_rdy (v : Rat) (s : State) : (configError v s).rdy = s.rdy := rfl
@[simp] theorem configError_hprev (v : Rat) (s : State) : (configError v s).hprev = s.hprev := rfl
@[simp] theorem configError_tmo (v : Rat) (s : State) : (configError v s).tmo = s.tmo := rfl
@[simp] theorem configError_resetN (v : Rat) (s : State) : (configError v s).resetN = s.resetN := rfl
@[simp] theorem configError_info (v : Rat) (s : State) : (configError v s).info = s.info := rfl
@[simp] theorem configError_infoValid (v : Rat) (s : State) : (configError v s).infoValid = s.infoValid := rfl
@[simp] theorem configError_configured (v : Rat) (s : State) : (configError v s).configured = s.configured := rfl
@[simp] theorem configError_rma (v : Rat) (s : State) : (configError v s).rma = s.rma := rfl
@[simp] theorem configError_asleep (v : Rat) (s : State) : (configError v s).asleep = s.asleep := rfl
@[simp] theorem configError_faults (v : Rat) (s : State) : (configError v s).faults = s.faults := rfl
@[simp] theorem configError_seq (v : Rat) (s : State) : (configError v s).seq = .idle := rfl
@[simp] theorem configError_trace (v : Rat) (s : State) : (configError v s).trace = s.trace ++ [.endOp .config] := rfl
@[simp] theorem configError_params (v : Rat) (s : State) : (configError v s).params = s.params := rfl
@[simp] theorem configError_rdata (v : Rat) (s : State) : (configError v s).rdata = s.rdata := rfl
@[simp] theorem configError_resp (v : Rat) (s : State) : (configError v s).resp = some ⟨.config, .rejected v⟩ := rfl
@[simp] theorem configError_hrdy (v : Rat) (s : State) : (configError v s).hrdy = s.hrdy := rfl
@[simp] theorem configError_script (v : Rat) (s : State) : (configError v s).script = s.script := rfl
@[simp] theorem configError_slots (v : Rat) (s : State) : (configError v s).slots = s.slots := rfl
@[simp] theorem configError_rx (v : Rat) (s : State) : (configError v s).rx = s.rx := rfl
@[simp] theorem configError_draws (v : Rat) (s : State) : (configError v s).draws = s.draws := rfl
@[simp] theorem configError_requests (v : Rat) (s : State) : (configError v s).requests = s.requests := rfl

/-! ### accept -/

@[simp] theorem accept_rdy (i : Instr) (s : State) : (accept i s).rdy = s.rdy := rfl
@[simp] theorem accept_hprev (i : Instr) (s : State) : (accept i s).hprev = s.hprev := rfl
@[simp] theorem accept_tmo (i : Instr) (s : State) : (accept i s).tmo = s.tmo := rfl
@[simp] theorem accept_resetN (i : Instr) (s : State) : (accept i s).resetN = s.resetN := rfl
@[simp] theorem accept_info (i : Instr) (s : State) : (accept i s).info = s.info := rfl
@[simp] theorem accept_infoValid (i : Instr) (s : State) : (accept i s).infoValid = s.infoValid := rfl
@[simp] theorem accept_configured (i : Instr) (s : State) : (accept i s).configured = s.configured := rfl
@[simp] theorem accept_rma (i : Instr) (s : State) : (accept i s).rma = s.rma := rfl
@[simp] theorem accept_asleep (i : Instr) (s : State) : (accept i s).asleep = s.asleep := rfl
@[simp] theorem accept_faults (i : Instr) (s : State) : (accept i s).faults = s.faults := rfl
@[simp] theorem accept_seq (i : Instr) (s : State) : (accept i s).seq = s.seq := rfl
@[simp] theorem accept_trace (i : Instr) (s : State) : (accept i s).trace = s.trace ++ [.op i] := rfl
@[simp] theorem accept_params (i : Instr) (s : State) : (accept i s).params = s.params := rfl
@[simp] theorem accept_rdata (i : Instr) (s : State) : (accept i s).rdata = [] := rfl
@[simp] theorem accept_resp (i : Instr) (s : State) : (accept i s).resp = none := rfl
@[simp] theorem accept_hrdy (i : Instr) (s : State) : (accept i s).hrdy = s.hrdy := rfl
@[simp] theorem accept_script (i : Instr) (s : State) : (accept i s).script = s.script := rfl
@[simp] theorem accept_slots (i : Instr) (s : State) : (accept i s).slots = s.slots := rfl
@[simp] theorem accept_rx (i : Instr) (s : State) : (accept i s).rx = s.rx := rfl
@[simp] theorem accept_draws (i : Instr) (s : State) : (accept i s).draws = s.draws := rfl
@[simp] theorem accept_requests (i : Instr) (s : State) : (accept i s).requests = s.requests := rfl

/-! ### load -/

@[simp] theorem load_rdy (opc : Byte) (prog : List Act) (s : State) : (load opc prog s).rdy = s.rdy := rfl
@[simp] theorem load_hprev (opc : Byte) (prog : List Act) (s : State) : (load opc prog s).hprev = s.hprev := rfl
@[simp] theorem load_tmo (opc : Byte) (prog : List Act) (s : State) : (load opc prog s).tmo = s.tmo := rfl
@[simp] theorem load_resetN (opc : Byte) (prog : List Act) (s : State) : (load opc prog s).resetN = s.resetN := rfl
@[simp] theorem load_info (opc : Byte) (prog : List Act) (s : State) : (load opc prog s).info = s.info := rfl
@[simp] theorem load_infoValid (opc : Byte) (prog : List Act) (s : State) : (load opc prog s).infoValid = s.infoValid := rfl
@[simp] theorem load_configured (opc : Byte) (prog : List Act) (s : State) : (load opc prog s).configured = s.configured := rfl
@[simp] theorem load_rma (opc : Byte) (prog : List Act) (s : State) : (load opc prog s).rma = s.rma := rfl
@[simp] theorem load_asleep (opc : Byte) (prog : List Act) (s : State) : (load opc prog s).asleep = s.asleep := rfl
@[simp] theorem load_faults (opc : Byte) (prog : List Act) (s : State) : (load opc prog s).faults = s.faults := rfl
@[simp] theorem load_seq (opc : Byte) (prog : List Act) (s : State) : (load opc prog s).seq = .busy opc prog := rfl
@[simp] theorem load_trace (opc : Byte) (prog : List Act) (s : State) : (load opc prog s).trace = s.trace := rfl
@[simp] theorem load_params (opc : Byte) (prog : List Act) (s : State) : (load opc prog s).params = s.params := rfl
@[simp] theorem load_rdata (opc : Byte) (prog : List Act) (s : State) : (load opc prog s).rdata = s.rdata := rfl
@[simp] theorem load_resp (opc : Byte) (prog : List Act) (s : State) : (load opc prog s).resp = s.resp := rfl
@[simp] theorem load_hrdy (opc : Byte) (prog : List Act) (s : State) : (load opc prog s).hrdy = s.hrdy := rfl
@[simp] theorem load_script (opc : Byte) (prog : List Act) (s : State) : (load opc prog s).script = s.script := rfl
@[simp] theorem load_slots (opc : Byte) (prog : List Act) (s : State) : (load opc prog s).slots = s.slots := rfl
@[simp] theorem load_rx (opc : Byte) (prog : List Act) (s : State) : (load opc prog s).rx = s.rx := rfl
@[simp] theorem load_draws (opc : Byte) (prog : List Act) (s : State) : (load opc prog s).draws = s.draws := rfl
@[simp] theorem load_requests (opc : Byte) (prog : List Act) (s : State) : (load opc prog s).requests = s.requests := rfl

/-! ### transact -/

@[simp] theorem transact_rdy (ws : List Word) (s : State) : (transact ws s).rdy = s.rdy := rfl
@[simp] theorem transact_hprev (ws : List Word) (s : State) : (transact ws s).hprev = s.hprev := rfl
@[simp] theorem transact_tmo (ws : List Word) (s : State) : (transact ws s).tmo = s.tmo := rfl
@[simp] theorem transact_resetN (ws : List Word) (s : State) : (transact ws s).resetN = s.resetN := rfl
@[simp] theorem transact_info (ws : List Word) (s : State) : (transact ws s).info = s.info := rfl
@[simp] theorem transact_infoValid (ws : List Word) (s : State) : (transact ws s).infoValid = s.infoValid := rfl
@[simp] theorem transact_configured (ws : List Word) (s : State) : (transact ws s).configured = s.configured := rfl
@[simp] theorem transact_rma (ws : List Word) (s : State) : (transact ws s).rma = s.rma := rfl
@[simp] theorem transact_asleep (ws : List Word) (s : State) : (transact ws s).asleep = s.asleep := rfl
@[simp] theorem transact_faults (ws : List Word) (s : State) : (transact ws s).faults = s.faults := rfl
@[simp] theorem transact_seq (ws : List Word) (s : State) : (transact ws s).seq = s.seq := rfl
@[simp] theorem transact_trace (ws : List Word) (s : State) : (transact ws s).trace = s.trace ++ (if ws.isEmpty then [] else [.frame ws (receive s ws.length)]) := rfl
@[simp] theorem transact_params (ws : List Word) (s : State) : (transact ws s).params = s.params := rfl
@[simp] theorem transact_rdata (ws : List Word) (s : State) : (transact ws s).rdata = receive s ws.length := rfl
@[simp] theorem transact_resp (ws : List Word) (s : State) : (transact ws s).resp = s.resp := rfl
@[simp] theorem transact_hrdy (ws : List Word) (s : State) : (transact ws s).hrdy = s.hrdy := rfl
@[simp] theorem transact_script (ws : List Word) (s : State) : (transact ws s).script = s.script := rfl
@[simp] theorem transact_slots (ws : List Word) (s : State) : (transact ws s).slots = s.slots := rfl
@[simp] theorem transact_rx (ws : List Word) (s : State) : (transact ws s).rx = s.rx.drop (2 * ws.length) := rfl
@[simp] theorem transact_draws (ws : List Word) (s : State) : (transact ws s).draws = s.draws + 2 * ws.length := rfl
@[simp] theorem transact_requests (ws : List Word) (s : State) : (transact ws s).requests = s.requests := rfl

/-! ### takeRequest -/

@[simp] theorem takeRequest_rdy (rest : List HostReq) (s : State) : (takeRequest rest s).rdy = (readyAfter s).rdy := rfl
@[simp] theorem takeRequest_hprev (rest : List HostReq) (s : State) : (takeRequest rest s).hprev = (readyAfter s).hprev := rfl
@[simp] theorem takeRequest_tmo (rest : List HostReq) (s : State) : (takeRequest rest s).tmo = s.tmo := rfl
@[simp] theorem takeRequest_resetN (rest : List HostReq) (s : State) : (takeRequest rest s).resetN = s.resetN := rfl
@[simp] theorem takeRequest_info (rest : List HostReq) (s : State) : (takeRequest rest s).info = s.info := rfl
@[simp] theorem takeRequest_infoValid (rest : List HostReq) (s : State) : (takeRequest rest s).infoValid = s.infoValid := rfl
@[simp] theorem takeRequest_configured (rest : List HostReq) (s : State) : (takeRequest rest s).configured = s.configured := rfl
@[simp] theorem takeRequest_rma (rest : List HostReq) (s : State) : (takeRequest rest s).rma = s.rma := rfl
@[simp] theorem takeRequest_asleep (rest : List HostReq) (s : State) : (takeRequest rest s).asleep = s.asleep := rfl
@[simp] theorem takeRequest_faults (rest : List HostReq) (s : State) : (takeRequest rest s).faults = s.faults := rfl
@[simp] theorem takeRequest_seq (rest : List HostReq) (s : State) : (takeRequest rest s).seq = s.seq := rfl
@[simp] theorem takeRequest_trace (rest : List HostReq) (s : State) : (takeRequest rest s).trace = s.trace ++ List.replicate (readyAfter s).edges .edge := rfl
@[simp] theorem takeRequest_params (rest : List HostReq) (s : State) : (takeRequest rest s).params = s.params := rfl
@[simp] theorem takeRequest_rdata (rest : List HostReq) (s : State) : (takeRequest rest s).rdata = s.rdata := rfl
@[simp] theorem takeRequest_resp (rest : List HostReq) (s : State) : (takeRequest rest s).resp = s.resp := rfl
@[simp] theorem takeRequest_hrdy (rest : List HostReq) (s : State) : (takeRequest rest s).hrdy = (readyAfter s).hrdy := rfl
@[simp] theorem takeRequest_script (rest : List HostReq) (s : State) : (takeRequest rest s).script = s.script.tail := rfl
@[simp] theorem takeRequest_slots (rest : List HostReq) (s : State) : (takeRequest rest s).slots = s.slots + 1 := rfl
@[simp] theorem takeRequest_rx (rest : List HostReq) (s : State) : (takeRequest rest s).rx = s.rx := rfl
@[simp] theorem takeRequest_draws (rest : List HostReq) (s : State) : (takeRequest rest s).draws = s.draws := rfl
@[simp] theorem takeRequest_requests (rest : List HostReq) (s : State) : (takeRequest rest s).requests = rest := rfl

end Sys2Proof.Machine
end

