-- ==== Sys2Proof/Laws/Trace.lean ====
section
/-! SUPPORT. The views of TRACE distribute over appending events, and do not see the edges of the edge agent. -/

namespace Sys2Proof.Machine

@[simp] theorem framesOf_append (a b : List Event) : framesOf (a ++ b) = framesOf a ++ framesOf b := by
  induction a with
  | nil => rfl
  | cons e es ih => cases e <;> simp [ih]

@[simp] theorem timeoutsOf_append (a b : List Event) : timeoutsOf (a ++ b) = timeoutsOf a + timeoutsOf b := by
  induction a with
  | nil => simp
  | cons e es ih => cases e <;> simp [ih]; omega

@[simp] theorem resetLevelsOf_append (a b : List Event) : resetLevelsOf (a ++ b) = resetLevelsOf a ++ resetLevelsOf b := by
  induction a with
  | nil => rfl
  | cons e es ih => cases e <;> simp [ih]

@[simp] theorem delaysOf_append (a b : List Event) : delaysOf (a ++ b) = delaysOf a ++ delaysOf b := by
  induction a with
  | nil => rfl
  | cons e es ih => cases e <;> simp [ih]

@[simp] theorem framesOf_edges (n : Nat) : framesOf (List.replicate n Event.edge) = [] := by
  induction n with
  | zero => rfl
  | succ n ih => simp [List.replicate_succ, ih]

@[simp] theorem timeoutsOf_edges (n : Nat) : timeoutsOf (List.replicate n Event.edge) = 0 := by
  induction n with
  | zero => rfl
  | succ n ih => simp [List.replicate_succ, ih]

@[simp] theorem resetLevelsOf_edges (n : Nat) : resetLevelsOf (List.replicate n Event.edge) = [] := by
  induction n with
  | zero => rfl
  | succ n ih => simp [List.replicate_succ, ih]

@[simp] theorem delaysOf_edges (n : Nat) : delaysOf (List.replicate n Event.edge) = [] := by
  induction n with
  | zero => rfl
  | succ n ih => simp [List.replicate_succ, ih]

@[simp] theorem sentOf_append (a b : List Event) : sentOf (a ++ b) = sentOf a ++ sentOf b := by simp [sentOf]

@[simp] theorem sentOf_edges (n : Nat) : sentOf (List.replicate n Event.edge) = [] := by simp [sentOf]

@[simp] theorem sequencerEvents_append (a b : List Event) :
    sequencerEvents (a ++ b) = sequencerEvents a ++ sequencerEvents b := by simp [sequencerEvents]

@[simp] theorem sequencerEvents_edges (n : Nat) : sequencerEvents (List.replicate n Event.edge) = [] := by
  simp [sequencerEvents]

@[simp] theorem receive_length (s : State) (n : Nat) : (receive s n).length = n := by simp [receive]

end Sys2Proof.Machine
end

