-- ==== Sys2Proof/Laws/Sequencer.lean ====
section
/-! SUPPORT. What running legs does: `ticks` over a program of gated transactions is `gx` one transaction after another, and
everything `gx` can do is said once. -/

namespace Sys2Proof.Machine

/-! ### What a transaction leaves alone -/

/-- The fields no transaction writes (R53): everything but RDY, HPREV, TMO, TRACE and the environment's. -/
structure Kept (s t : State) : Prop where
  resetN : t.resetN = s.resetN
  info : t.info = s.info
  infoValid : t.infoValid = s.infoValid
  configured : t.configured = s.configured
  rma : t.rma = s.rma
  asleep : t.asleep = s.asleep
  faults : t.faults = s.faults
  seq : t.seq = s.seq
  params : t.params = s.params
  resp : t.resp = s.resp
  requests : t.requests = s.requests

theorem Kept.refl (s : State) : Kept s s := ⟨rfl, rfl, rfl, rfl, rfl, rfl, rfl, rfl, rfl, rfl, rfl⟩

theorem Kept.trans {s t u : State} (a : Kept s t) (b : Kept t u) : Kept s u :=
  ⟨b.resetN.trans a.resetN, b.info.trans a.info, b.infoValid.trans a.infoValid, b.configured.trans a.configured,
   b.rma.trans a.rma, b.asleep.trans a.asleep, b.faults.trans a.faults, b.seq.trans a.seq, b.params.trans a.params,
   b.resp.trans a.resp, b.requests.trans a.requests⟩

theorem environment_kept (s : State) : Kept s (environment s) := ⟨rfl, rfl, rfl, rfl, rfl, rfl, rfl, rfl, rfl, rfl, rfl⟩

/-! ### TRACE only grows, and TMO counts its timeouts -/

/-- TRACE of `t` extends that of `s` (R48), and TMO has counted the timeouts among the new events (R36). -/
def Grows (s t : State) : Prop :=
  ∃ new, t.trace = s.trace ++ new ∧ t.tmo = s.tmo + BitVec.ofNat 32 (timeoutsOf new)

theorem Grows.refl (s : State) : Grows s s := ⟨[], by simp, by simp⟩

theorem Grows.trans {s t u : State} (a : Grows s t) (b : Grows t u) : Grows s u := by
  obtain ⟨x, hx, ax⟩ := a
  obtain ⟨y, hy, ay⟩ := b
  refine ⟨x ++ y, by rw [hy, hx, List.append_assoc], ?_⟩
  rw [ay, ax, timeoutsOf_append, BitVec.ofNat_add, BitVec.add_assoc]

theorem environment_grows (s : State) : Grows s (environment s) :=
  ⟨List.replicate (readyAfter s).edges Event.edge, rfl, by simp⟩

theorem transact_grows (ws : List Word) (s : State) : Grows s (transact ws s) := by
  refine ⟨_, rfl, ?_⟩
  by_cases h : ws.isEmpty <;> simp [h]

theorem takeFault_grows (opc : Byte) (c : Cause) (s : State) : Grows s (takeFault opc c s) := ⟨_, rfl, by simp⟩

theorem perform_grows (opc : Byte) (a : Act) (e : Bool) (s : State) : Grows s (perform opc a e s) := by
  cases a with
  | prime => exact ⟨_, rfl, by simp [perform]⟩
  | xfer ws => exact transact_grows _ _
  | xferArg w => exact transact_grows _ _
  | xferBase high =>
    simp only [perform]
    split
    · exact transact_grows _ _
    · exact takeFault_grows _ _ _
  | await =>
    refine ⟨_, rfl, ?_⟩
    by_cases h : s.rdy = true <;> simp [h, perform]
  | drive v => exact ⟨_, rfl, by simp [perform]⟩
  | delay d => exact ⟨_, rfl, by simp [perform]⟩
  | startupWait =>
    refine ⟨_, rfl, ?_⟩
    by_cases h : (s.hrdy && !e) = true <;> simp [h, perform]
  | beginReset => exact ⟨[], by simp [perform], by simp [perform]⟩
  | storeInfo =>
    simp only [perform]
    split
    · exact ⟨[], by simp, by simp⟩
    · exact takeFault_grows _ _ _
  | setRma v => exact ⟨[], by simp [perform], by simp [perform]⟩
  | setAsleep v => exact ⟨[], by simp [perform], by simp [perform]⟩
  | setConfigured => exact ⟨[], by simp [perform], by simp [perform]⟩
  | pollCheck =>
    simp only [perform]
    split <;> exact ⟨[], by simp, by simp⟩
  | finish r => exact ⟨_, rfl, by simp [perform]⟩

theorem stepAct_grows (opc : Byte) (a : Act) (s : State) : Grows s (stepAct opc a s) :=
  (environment_grows s).trans (perform_grows _ _ _ _)

theorem load_grows (opc : Byte) (p : List Act) (s : State) : Grows s (load opc p s) := ⟨[], by simp, by simp⟩

theorem tick_grows (s : State) : Grows s (tick s) := by
  unfold tick
  split
  · exact (load_grows _ _ s).trans (stepAct_grows _ _ _)
  · exact stepAct_grows _ _ _
  · exact Grows.refl s
  · exact Grows.refl s

theorem ticks_grows (n : Nat) (s : State) : Grows s (ticks n s) := by
  induction n generalizing s with
  | zero => exact Grows.refl s
  | succ n ih => exact (tick_grows s).trans (ih _)

/-! ### Running a program -/

theorem ticks_add (m n : Nat) (s : State) : ticks (m + n) s = ticks n (ticks m s) := by
  induction m generalizing s with
  | zero => simp [ticks]
  | succ m ih => rw [Nat.succ_add]; exact ih (tick s)

@[simp] theorem ticks_zero (s : State) : ticks 0 s = s := rfl

theorem ticks_succ (n : Nat) (s : State) : ticks (n + 1) s = ticks n (tick s) := rfl

theorem tick_load_cons (opc : Byte) (a : Act) (rest : List Act) (s : State) :
    tick (load opc (a :: rest) s) = stepAct opc a (load opc rest s) :=
  congrArg (stepAct opc a) (rfl : { load opc (a :: rest) s with seq := .busy opc rest } = load opc rest s)

/-- `ticks` through the first act of what is to do. -/
theorem ticks_load_cons (n : Nat) (opc : Byte) (a : Act) (rest : List Act) (s : State) :
    ticks (n + 1) (load opc (a :: rest) s) = ticks n (stepAct opc a (load opc rest s)) := by
  rw [ticks_succ, tick_load_cons]

/-- An atomic step that does not touch the sequencer's position: it can be taken before or after the program is loaded. -/
def Act.straight : Act → Bool
  | .prime => true
  | .xfer _ => true
  | .xferArg _ => true
  | .await => true
  | .drive _ => true
  | .delay _ => true
  | .startupWait => true
  | .beginReset => true
  | .setRma _ => true
  | .setAsleep _ => true
  | .setConfigured => true
  | _ => false

theorem nextSlot_load (opc : Byte) (rest : List Act) (s : State) : nextSlot (load opc rest s) = nextSlot s := rfl

theorem environment_load (opc : Byte) (rest : List Act) (s : State) :
    environment (load opc rest s) = load opc rest (environment s) := rfl

theorem transact_load (opc : Byte) (rest : List Act) (ws : List Word) (s : State) :
    transact ws (load opc rest s) = load opc rest (transact ws s) := rfl

theorem perform_load (o opc : Byte) (a : Act) (e : Bool) (rest : List Act) (s : State) (h : a.straight = true) :
    perform o a e (load opc rest s) = load opc rest (perform 0x00 a e s) := by
  cases a with
  | xfer ws => exact transact_load _ _ _ _
  | xferArg w => exact transact_load _ _ _ _
  | prime => rfl
  | await => rfl
  | drive v => rfl
  | delay d => rfl
  | startupWait => rfl
  | beginReset => rfl
  | setRma v => rfl
  | setAsleep v => rfl
  | setConfigured => rfl
  | xferBase _ => exact absurd h Bool.false_ne_true
  | storeInfo => exact absurd h Bool.false_ne_true
  | pollCheck => exact absurd h Bool.false_ne_true
  | finish _ => exact absurd h Bool.false_ne_true

theorem stepAct_load (o opc : Byte) (a : Act) (rest : List Act) (s : State) (h : a.straight = true) :
    stepAct o a (load opc rest s) = load opc rest (stepAct 0x00 a s) := by
  rw [stepAct, nextSlot_load, environment_load, perform_load _ _ _ _ _ _ h, stepAct]

/-- A straight act at the head of a program. -/
theorem ticks_straight (n : Nat) (opc : Byte) (a : Act) (rest : List Act) (s : State) (h : a.straight = true) :
    ticks (n + 1) (load opc (a :: rest) s) = ticks n (load opc rest (stepAct 0x00 a s)) := by
  rw [ticks_load_cons, stepAct_load _ _ _ _ _ h]

/-- A gated transaction at the head of a program is `gx` (R147). -/
theorem ticks_gated (n : Nat) (opc : Byte) (x : Act) (rest : List Act) (s : State) (h : x.straight = true) :
    ticks (n + 3) (load opc (gated x ++ rest) s) = ticks n (load opc rest (gx x s)) := by
  show ticks (n + 2 + 1) (load opc (.prime :: x :: .await :: rest) s) = _
  rw [ticks_straight (n + 2) _ .prime _ _ rfl, ticks_straight (n + 1) _ x _ _ h, ticks_straight n _ .await _ _ rfl]
  rfl

/-- A gated transaction leaves the sequencer's position alone. -/
theorem gx_load (opc : Byte) (x : Act) (rest : List Act) (s : State) (h : x.straight = true) :
    gx x (load opc rest s) = load opc rest (gx x s) := by
  rw [gx, stepAct_load _ _ .prime _ _ rfl, stepAct_load _ _ x _ _ h, stepAct_load _ _ .await _ _ rfl, gx]

/-- The end of a program. -/
theorem ticks_finish (opc : Byte) (r : ResultSpec) (s : State) :
    ticks 1 (load opc [.finish r] s) = stepAct opc (.finish r) s := rfl

/-! ### Several transactions -/

/-- Gated transactions one after another. -/
def gxs (fs : List (List Word)) (s : State) : State := fs.foldl (fun s ws => gx (.xfer ws) s) s

@[simp] theorem gxs_nil (s : State) : gxs [] s = s := rfl

@[simp] theorem gxs_cons (ws : List Word) (fs : List (List Word)) (s : State) :
    gxs (ws :: fs) s = gxs fs (gx (.xfer ws) s) := rfl

@[simp] theorem gxs_append (a b : List (List Word)) (s : State) : gxs (a ++ b) s = gxs b (gxs a s) := by
  simp [gxs, List.foldl_append]

/-- The legs of transactions that send `fs`. -/
def gatedAll (fs : List (List Word)) : List Act := fs.flatMap fun ws => gated (.xfer ws)

@[simp] theorem gatedAll_length (fs : List (List Word)) : (gatedAll fs).length = 3 * fs.length := by
  induction fs with
  | nil => rfl
  | cons f fs ih => simp [gatedAll, gated] at *; omega

theorem ticks_gatedAll (fs : List (List Word)) (n : Nat) (opc : Byte) (rest : List Act) (s : State) :
    ticks (3 * fs.length + n) (load opc (gatedAll fs ++ rest) s) = ticks n (load opc rest (gxs fs s)) := by
  induction fs generalizing s with
  | nil => simp [gatedAll]
  | cons f fs ih =>
    have e : 3 * (f :: fs).length + n = (3 * fs.length + n) + 3 := by simp; omega
    have l : gatedAll (f :: fs) ++ rest = gated (.xfer f) ++ (gatedAll fs ++ rest) := by simp [gatedAll]
    rw [e, l, ticks_gated _ _ _ _ _ rfl, ih]
    rfl

/-- A load argument is sent like any one-word DATA frame (R104). -/
theorem gx_xferArg (w : Word) (s : State) : gx (.xferArg w) s = gx (.xfer [Config.preData, w]) s := rfl

/-! ### The whole effect of a gated transaction -/

theorem stepAct_kept {a : Act} (h : a = .prime ∨ (∃ ws, a = .xfer ws) ∨ a = .await ∨ (∃ d, a = .delay d)) (s : State) :
    Kept s (stepAct 0x00 a s) := by
  rcases h with rfl | ⟨ws, rfl⟩ | rfl | ⟨d, rfl⟩ <;> exact ⟨rfl, rfl, rfl, rfl, rfl, rfl, rfl, rfl, rfl, rfl, rfl⟩

theorem gx_kept (ws : List Word) (s : State) : Kept s (gx (.xfer ws) s) :=
  ((stepAct_kept (.inl rfl) s).trans (stepAct_kept (.inr (.inl ⟨ws, rfl⟩)) _)).trans
    (stepAct_kept (.inr (.inr (.inl rfl))) _)

theorem gxs_kept (fs : List (List Word)) (s : State) : Kept s (gxs fs s) := by
  induction fs generalizing s with
  | nil => exact Kept.refl s
  | cons f fs ih => exact (gx_kept f s).trans (ih _)

theorem stepAct_prime_trace (o : Byte) (s : State) :
    (stepAct o .prime s).trace = s.trace ++ List.replicate (readyAfter s).edges Event.edge ++ [Event.prime] := rfl

theorem stepAct_xfer_trace (o : Byte) {ws : List Word} (hw : ws ≠ []) (s : State) :
    (stepAct o (.xfer ws) s).trace =
      s.trace ++ List.replicate (readyAfter s).edges Event.edge ++ [Event.frame ws (receive (environment s) ws.length)] := by
  cases ws with
  | nil => exact absurd rfl hw
  | cons w ws => rfl

theorem stepAct_await_trace (o : Byte) (s : State) :
    (stepAct o .await s).trace =
      s.trace ++ List.replicate (readyAfter s).edges Event.edge ++
        [if (environment s).rdy then Event.awaitOk else .timeout .data] := rfl

/-- The trace of a gated transaction: PRIME, the frame, the end of the wait, with the edges that fall between. -/
theorem gx_trace {ws : List Word} (hw : ws ≠ []) (s : State) :
    ∃ a b c rs w, rs.length = ws.length ∧ (w = .awaitOk ∨ w = .timeout .data) ∧ (gx (.xfer ws) s).rdata = rs ∧
      (gx (.xfer ws) s).trace =
        s.trace ++ List.replicate a Event.edge ++ [Event.prime] ++ List.replicate b Event.edge ++ [Event.frame ws rs] ++
          List.replicate c Event.edge ++ [w] := by
  have h := stepAct_await_trace 0x00 (stepAct 0x00 (.xfer ws) (stepAct 0x00 .prime s))
  rw [stepAct_xfer_trace _ hw, stepAct_prime_trace] at h
  refine ⟨_, _, _, _, _, receive_length _ _, ?_, rfl, h⟩
  split
  · exact .inl rfl
  · exact .inr rfl

@[simp] theorem lastReceived_frame (e w : Event) (f rs : List Word) (hw : w = .awaitOk ∨ w = .timeout .data)
    (he : framesOf [e] = []) : lastReceived [e, .frame f rs, w] = rs := by
  have h : framesOf ([e] ++ [Event.frame f rs, w]) = [(f, rs)] := by
    rw [framesOf_append, he]; rcases hw with rfl | rfl <;> rfl
  simp only [List.singleton_append] at h
  simp [lastReceived, h]

/-- The whole effect of a gated transaction of at least one word: the sequencer emits PRIME, the frame with as many words
received as sent, and the end of the wait; TMO counts the timeout; the words received are left in `rdata`; RDY is
consumed. -/
theorem gx_effect {ws : List Word} (hw : ws ≠ []) (s : State) :
    ∃ hs, Gated [ws] hs ∧
      sequencerEvents (gx (.xfer ws) s).trace = sequencerEvents s.trace ++ hs ∧
      (gx (.xfer ws) s).tmo = s.tmo + BitVec.ofNat 32 (timeoutsOf hs) ∧
      (gx (.xfer ws) s).rdata = lastReceived hs := by
  obtain ⟨new, hn, hm⟩ := ((stepAct_grows 0x00 .prime s).trans (stepAct_grows 0x00 (.xfer ws) _)).trans
    (stepAct_grows 0x00 .await _)
  obtain ⟨a, b, c, rs, w, hl, hw, hr, ht⟩ := gx_trace hw s
  refine ⟨[Event.prime, .frame ws rs, w], ⟨rs, w, [], rfl, hl, hw, rfl⟩, ?_, ?_, ?_⟩
  · rw [ht]; rcases hw with rfl | rfl <;> simp [sequencerEvents]
  · rw [← gx] at hn hm
    rw [hn] at ht
    have : new = List.replicate a Event.edge ++ [Event.prime] ++ List.replicate b Event.edge ++ [Event.frame ws rs] ++
        List.replicate c Event.edge ++ [w] := by
      simpa [List.append_assoc] using ht
    rw [hm, this]
    rcases hw with rfl | rfl <;> simp
  · rw [hr, lastReceived_frame _ _ _ _ hw rfl]

theorem Gated.append {fs gs : List (List Word)} {hs ks : List Event} (a : Gated fs hs) (b : Gated gs ks) :
    Gated (fs ++ gs) (hs ++ ks) := by
  induction fs generalizing hs with
  | nil => rw [show hs = [] from a]; exact b
  | cons f fs ih =>
    obtain ⟨rs, w, tl, rfl, hl, hw, ht⟩ := a
    exact ⟨rs, w, tl ++ ks, rfl, hl, hw, ih ht⟩

/-- The frames of gated transactions are those sent, each with as many words received. -/
theorem Gated.frames {fs : List (List Word)} {hs : List Event} (a : Gated fs hs) :
    (framesOf hs).map Prod.fst = fs ∧ ∀ q ∈ framesOf hs, q.2.length = q.1.length := by
  induction fs generalizing hs with
  | nil => rw [show hs = [] from a]; simp
  | cons f fs ih =>
    obtain ⟨rs, w, tl, rfl, hl, hw, ht⟩ := a
    obtain ⟨h1, h2⟩ := ih ht
    rcases hw with rfl | rfl <;> refine ⟨by simp [h1], ?_⟩ <;> simp only [framesOf, List.mem_cons, forall_eq_or_imp] <;>
      exact ⟨hl, h2⟩

theorem lastReceived_append (hs ks : List Event) (h : framesOf ks ≠ []) : lastReceived (hs ++ ks) = lastReceived ks := by
  rw [lastReceived, framesOf_append, List.getLast?_append_of_ne_nil _ h, lastReceived]

/-- Transactions one after another: their events in order, and nothing else from the sequencer (R84, R87). -/
theorem gxs_effect (fs : List (List Word)) (hf : ∀ f ∈ fs, f ≠ []) (s : State) :
    ∃ hs, Gated fs hs ∧
      sequencerEvents (gxs fs s).trace = sequencerEvents s.trace ++ hs ∧
      (gxs fs s).tmo = s.tmo + BitVec.ofNat 32 (timeoutsOf hs) ∧
      (gxs fs s).rdata = if fs = [] then s.rdata else lastReceived hs := by
  induction fs generalizing s with
  | nil => exact ⟨[], rfl, by simp, by simp, by simp⟩
  | cons f fs ih =>
    obtain ⟨h1, g1, t1, m1, r1⟩ := gx_effect (hf f (by simp)) s
    obtain ⟨h2, g2, t2, m2, r2⟩ := ih (fun g hg => hf g (by simp [hg])) (gx (.xfer f) s)
    refine ⟨h1 ++ h2, g1.append g2, ?_, ?_, ?_⟩
    · rw [gxs_cons, t2, t1, List.append_assoc]
    · rw [gxs_cons, m2, m1, timeoutsOf_append, BitVec.ofNat_add, BitVec.add_assoc]
    · rw [gxs_cons, r2, if_neg (List.cons_ne_nil _ _)]
      split
      · next h =>
        subst h
        rw [r1, show h2 = [] from g2, List.append_nil]
      · next h =>
        rw [lastReceived_append]
        intro hc
        have := g2.frames.1
        rw [hc] at this
        exact h this.symm

theorem gxs_grows (fs : List (List Word)) (s : State) : Grows s (gxs fs s) := by
  induction fs generalizing s with
  | nil => exact Grows.refl s
  | cons f fs ih =>
    exact (((stepAct_grows _ _ s).trans (stepAct_grows _ _ _)).trans (stepAct_grows _ _ _)).trans (ih _)

end Sys2Proof.Machine
end

