-- ==== Sys2Proof/Laws/Run.lean ====
section
/-! SUPPORT. How a host operation runs: the cases of `runOp`, and what a program of gated transactions, an optional flag write
and the end of the operation does as a whole. -/

namespace Sys2Proof.Machine

/-! ### The cases of a host operation -/

theorem runOp_go {i : Instr} {plan : Plan} {s : State} (hs : s.seq = .idle) (hf : firstFault i plan s = none)
    (hc : plan.config = none) :
    runOp i plan s = .next (ticks plan.prog.length (load i.opc plan.prog (accept i s))) := by
  simp only [runOp, hs, runPlan, hf, hc]

theorem runOp_faults {i : Instr} {plan : Plan} {s : State} {c : Cause} (hs : s.seq = .idle)
    (hf : firstFault i plan s = some c) : runOp i plan s = .next (takeFault i.opc c (accept i s)) := by
  simp only [runOp, hs, runPlan, hf]

theorem runOp_config {i : Instr} {plan : Plan} {s : State} {v : Rat} (hs : s.seq = .idle)
    (hf : firstFault i plan s = none) (hc : plan.config = some v) :
    runOp i plan s = .next (configError v (accept i s)) := by
  simp only [runOp, hs, runPlan, hf, hc]

theorem runOp_halted {i : Instr} {plan : Plan} {s : State} (hs : s.seq = .halted) : runOp i plan s = .fault .halted := by
  simp only [runOp, hs]

theorem runOp_busy {i : Instr} {plan : Plan} {s : State} {opc : Byte} {todo : List Act} (hs : s.seq = .busy opc todo) :
    runOp i plan s = .fault .notAccepted := by
  simp only [runOp, hs]

/-- An accepted operation's fault as one state. -/
theorem takeFault_accept (i : Instr) (c : Cause) (s : State) :
    takeFault i.opc c (accept i s) =
      { s with
        faults := addFault ⟨c, i.opc⟩ s.faults
        trace := s.trace ++ [Event.op i, .endOp (.fault c)]
        seq := .halted
        resp := none
        rdata := [] } := by
  simp [takeFault, accept]

theorem configError_accept (i : Instr) (v : Rat) (s : State) :
    configError v (accept i s) =
      { s with
        trace := s.trace ++ [Event.op i, .endOp .config]
        seq := .idle
        resp := some ⟨.config, .rejected v⟩
        rdata := [] } := by
  simp [configError, accept]

/-- What a next state of `runOp` can be. -/
theorem runOp_cases {i : Instr} {plan : Plan} {s t : State} (h : runOp i plan s = .next t) :
    s.seq = .idle ∧
      ((∃ c, firstFault i plan s = some c ∧ t = takeFault i.opc c (accept i s)) ∨
       (∃ v, firstFault i plan s = none ∧ plan.config = some v ∧ t = configError v (accept i s)) ∨
       (firstFault i plan s = none ∧ plan.config = none ∧
         t = ticks plan.prog.length (load i.opc plan.prog (accept i s)))) := by
  cases hs : s.seq with
  | busy opc todo => rw [runOp_busy hs] at h; exact absurd h (by simp)
  | halted => rw [runOp_halted hs] at h; exact absurd h (by simp)
  | idle =>
    refine ⟨rfl, ?_⟩
    cases hf : firstFault i plan s with
    | some c =>
      rw [runOp_faults hs hf] at h
      exact .inl ⟨c, rfl, by injection h with h; exact h.symm⟩
    | none =>
      cases hc : plan.config with
      | some v =>
        rw [runOp_config hs hf hc] at h
        exact .inr (.inl ⟨v, rfl, rfl, by injection h with h; exact h.symm⟩)
      | none =>
        rw [runOp_go hs hf hc] at h
        exact .inr (.inr ⟨rfl, rfl, by injection h with h; exact h.symm⟩)

/-! ### SameBlock -/

theorem SameBlock.refl (s : State) : SameBlock s s := ⟨rfl, rfl, rfl, rfl, rfl, rfl, rfl, rfl, rfl⟩

theorem SameBlock.trans {s t u : State} (a : SameBlock s t) (b : SameBlock t u) : SameBlock s u :=
  ⟨b.resetN.trans a.resetN, b.info.trans a.info, b.infoValid.trans a.infoValid, b.configured.trans a.configured,
   b.rma.trans a.rma, b.asleep.trans a.asleep, b.faults.trans a.faults, b.params.trans a.params,
   b.requests.trans a.requests⟩

theorem Kept.sameBlock {s t : State} (h : Kept s t) : SameBlock s t :=
  ⟨h.resetN, h.info, h.infoValid, h.configured, h.rma, h.asleep, h.faults, h.params, h.requests⟩

theorem environment_sameBlock (s : State) : SameBlock s (environment s) := ⟨rfl, rfl, rfl, rfl, rfl, rfl, rfl, rfl, rfl⟩

theorem accept_sameBlock (i : Instr) (s : State) : SameBlock s (accept i s) :=
  ⟨rfl, rfl, rfl, rfl, rfl, rfl, rfl, rfl, rfl⟩

theorem load_sameBlock (opc : Byte) (prog : List Act) (s : State) : SameBlock s (load opc prog s) :=
  ⟨rfl, rfl, rfl, rfl, rfl, rfl, rfl, rfl, rfl⟩

/-! ### Single steps -/

/-- A step that emits nothing of the sequencer's own and waits for nothing: the flag writes. -/
def Act.silent : Act → Bool
  | .beginReset => true
  | .setRma _ => true
  | .setAsleep _ => true
  | .setConfigured => true
  | _ => false

/-- What a flag write does to the block. -/
def flagEffect (a : Act) (s : State) : State := perform 0x00 a false s

theorem stepAct_silent {a : Act} (h : a.silent = true) (s : State) :
    sequencerEvents (stepAct 0x00 a s).trace = sequencerEvents s.trace ∧ (stepAct 0x00 a s).tmo = s.tmo ∧
      (stepAct 0x00 a s).rdata = s.rdata ∧ (stepAct 0x00 a s).seq = s.seq ∧ (stepAct 0x00 a s).resp = s.resp ∧
      SameBlock (flagEffect a s) (stepAct 0x00 a s) := by
  cases a with
  | beginReset =>
    exact ⟨by simp [stepAct, perform], rfl, rfl, rfl, rfl, ⟨rfl, rfl, rfl, rfl, rfl, rfl, rfl, rfl, rfl⟩⟩
  | setRma v =>
    exact ⟨by simp [stepAct, perform], rfl, rfl, rfl, rfl, ⟨rfl, rfl, rfl, rfl, rfl, rfl, rfl, rfl, rfl⟩⟩
  | setAsleep v =>
    exact ⟨by simp [stepAct, perform], rfl, rfl, rfl, rfl, ⟨rfl, rfl, rfl, rfl, rfl, rfl, rfl, rfl, rfl⟩⟩
  | setConfigured =>
    exact ⟨by simp [stepAct, perform], rfl, rfl, rfl, rfl, ⟨rfl, rfl, rfl, rfl, rfl, rfl, rfl, rfl, rfl⟩⟩
  | prime => exact absurd h Bool.false_ne_true
  | xfer _ => exact absurd h Bool.false_ne_true
  | xferArg _ => exact absurd h Bool.false_ne_true
  | xferBase _ => exact absurd h Bool.false_ne_true
  | await => exact absurd h Bool.false_ne_true
  | drive _ => exact absurd h Bool.false_ne_true
  | delay _ => exact absurd h Bool.false_ne_true
  | startupWait => exact absurd h Bool.false_ne_true
  | storeInfo => exact absurd h Bool.false_ne_true
  | pollCheck => exact absurd h Bool.false_ne_true
  | finish _ => exact absurd h Bool.false_ne_true

theorem flagEffect_sameBlock {a : Act} (h : a.silent = true) {s t : State} (e : SameBlock s t) :
    SameBlock (flagEffect a s) (flagEffect a t) := by
  cases a with
  | beginReset => exact ⟨e.resetN, rfl, rfl, rfl, rfl, rfl, e.faults, e.params, e.requests⟩
  | setRma v => exact ⟨e.resetN, e.info, e.infoValid, e.configured, rfl, e.asleep, e.faults, e.params, e.requests⟩
  | setAsleep v => exact ⟨e.resetN, e.info, e.infoValid, e.configured, e.rma, rfl, e.faults, e.params, e.requests⟩
  | setConfigured => exact ⟨e.resetN, e.info, e.infoValid, rfl, e.rma, e.asleep, e.faults, e.params, e.requests⟩
  | prime => exact absurd h Bool.false_ne_true
  | xfer _ => exact absurd h Bool.false_ne_true
  | xferArg _ => exact absurd h Bool.false_ne_true
  | xferBase _ => exact absurd h Bool.false_ne_true
  | await => exact absurd h Bool.false_ne_true
  | drive _ => exact absurd h Bool.false_ne_true
  | delay _ => exact absurd h Bool.false_ne_true
  | startupWait => exact absurd h Bool.false_ne_true
  | storeInfo => exact absurd h Bool.false_ne_true
  | pollCheck => exact absurd h Bool.false_ne_true
  | finish _ => exact absurd h Bool.false_ne_true

theorem silent_straight {a : Act} (h : a.silent = true) : a.straight = true := by
  cases a <;> first | rfl | exact absurd h Bool.false_ne_true

/-- The end of an operation. -/
theorem finish_effect (opc : Byte) (r : ResultSpec) (s : State) :
    sequencerEvents (stepAct opc (.finish r) s).trace = sequencerEvents s.trace ++ [Event.endOp .ok] ∧
      (stepAct opc (.finish r) s).tmo = s.tmo ∧ (stepAct opc (.finish r) s).seq = .idle ∧
      (stepAct opc (.finish r) s).rdata = s.rdata ∧
      (stepAct opc (.finish r) s).answers (resultOf s r) ∧ SameBlock s (stepAct opc (.finish r) s) := by
  refine ⟨?_, rfl, rfl, rfl, ?_, ⟨rfl, rfl, rfl, rfl, rfl, rfl, rfl, rfl, rfl⟩⟩
  · simp [stepAct, perform, sequencerEvents]
  · cases r <;> rfl

/-! ### Programs of gated transactions -/

/-- The words a transaction of such a program sends. -/
def Act.sent : Act → List Word
  | .xfer ws => ws
  | .xferArg w => [Config.preData, w]
  | _ => []

/-- A transaction whose words the operation gives. -/
def Act.isUnit : Act → Bool
  | .xfer ws => !ws.isEmpty
  | .xferArg _ => true
  | _ => false

theorem gx_unit {x : Act} (h : x.isUnit = true) (s : State) : gx x s = gx (.xfer x.sent) s := by
  cases x <;> first | rfl | exact absurd h Bool.false_ne_true

theorem isUnit_straight {x : Act} (h : x.isUnit = true) : x.straight = true := by
  cases x <;> first | rfl | exact absurd h Bool.false_ne_true

theorem isUnit_sent {x : Act} (h : x.isUnit = true) : x.sent ≠ [] := by
  cases x with
  | xfer ws => intro e; rw [show ws = [] from e] at h; exact absurd h Bool.false_ne_true
  | xferArg w => exact List.cons_ne_nil _ _
  | _ => exact absurd h Bool.false_ne_true

/-- A program that begins with gated transactions sends them, one after another, and goes on. -/
theorem ticks_units (xs : List Act) (hx : ∀ x ∈ xs, x.isUnit = true) (n : Nat) (opc : Byte) (rest : List Act)
    (s : State) :
    ticks (3 * xs.length + n) (load opc (xs.flatMap gated ++ rest) s) =
      ticks n (load opc rest (gxs (xs.map Act.sent) s)) := by
  induction xs generalizing s with
  | nil => simp
  | cons x xs ih =>
    have e : 3 * (x :: xs).length + n = (3 * xs.length + n) + 3 := by simp; omega
    have l : (x :: xs).flatMap gated ++ rest = gated x ++ (xs.flatMap gated ++ rest) := by simp
    have hu := hx x (by simp)
    rw [e, l, ticks_gated _ _ _ _ _ (isUnit_straight hu), ih (fun y hy => hx y (by simp [hy])), gx_unit hu]
    rfl

theorem sent_ne_nil {xs : List Act} (hx : ∀ x ∈ xs, x.isUnit = true) : ∀ f ∈ xs.map Act.sent, f ≠ [] := by
  intro f hf
  obtain ⟨x, hx', rfl⟩ := List.mem_map.1 hf
  exact isUnit_sent (hx x hx')

/-- What an operation whose legs are the transactions `xs`, then the flag writes `fl`, does as a whole. -/
theorem run_units (i : Instr) (xs fl : List Act) (r : ResultSpec) (hx : ∀ x ∈ xs, x.isUnit = true)
    (hfl : ∀ a ∈ fl, a.silent = true) (s : State) :
    ∃ hs t, ticks (xs.flatMap gated ++ fl ++ [Act.finish r]).length
        (load i.opc (xs.flatMap gated ++ fl ++ [Act.finish r]) (accept i s)) = t ∧
      Gated (xs.map Act.sent) hs ∧ Ran i s t hs ∧
      SameBlock (fl.foldl (fun s a => flagEffect a s) s) t ∧
      t.rdata = (if xs = [] then [] else lastReceived hs) ∧ t.answers (resultOf t r) := by
  have flags : ∀ (fl : List Act), (∀ a ∈ fl, a.silent = true) → ∀ (u b : State), SameBlock b u →
      ∃ w, ticks (fl.length + 1) (load i.opc (fl ++ [Act.finish r]) u) = stepAct i.opc (.finish r) w ∧
        sequencerEvents w.trace = sequencerEvents u.trace ∧ w.tmo = u.tmo ∧ w.rdata = u.rdata ∧
        SameBlock (fl.foldl (fun s a => flagEffect a s) b) w := by
    intro fl
    induction fl with
    | nil =>
      intro _ u b hb
      exact ⟨load i.opc [] u, rfl, rfl, rfl, rfl, hb.trans (load_sameBlock _ _ _)⟩
    | cons a fl ih =>
      intro h u b hb
      have ha := h a (by simp)
      obtain ⟨h1, h2, h3, _, _, h6⟩ := stepAct_silent ha u
      obtain ⟨w, e1, e2, e3, e4, e5⟩ := ih (fun c hc => h c (by simp [hc])) (stepAct 0x00 a u) (flagEffect a b)
        ((flagEffect_sameBlock ha hb).trans h6)
      refine ⟨w, ?_, e2.trans h1, e3.trans h2, e4.trans h3, e5⟩
      rw [← e1]
      exact ticks_straight _ _ _ _ _ (silent_straight ha)
  obtain ⟨hs, g, he, hm, hr⟩ := gxs_effect (xs.map Act.sent) (sent_ne_nil hx) (accept i s)
  have hk := (gxs_kept (xs.map Act.sent) (accept i s)).sameBlock
  obtain ⟨w, e1, e2, e3, e4, e5⟩ := flags fl hfl (gxs (xs.map Act.sent) (accept i s)) s ((accept_sameBlock i s).trans hk)
  obtain ⟨f1, f2, f3, f4, f5, f6⟩ := finish_effect i.opc r w
  refine ⟨hs, _, rfl, g, ⟨?_, ?_, ?_⟩, ?_, ?_, ?_⟩
  all_goals
    rw [show (xs.flatMap gated ++ fl ++ [Act.finish r]).length = 3 * xs.length + (fl.length + 1) by
          have : (xs.flatMap gated).length = 3 * xs.length := by
            clear hx he hm hr hk e1 e2 e3 e4 e5 f1 f2 f3 f4 f5 f6 w g hs flags
            induction xs with
            | nil => rfl
            | cons x xs ih => simp [gated] at *; omega
          simp [this],
      List.append_assoc, ticks_units xs hx, e1]
  · rw [f1, e2, he]; simp [sequencerEvents]
  · rw [f2, e3, hm, accept_tmo]
  · exact f3
  · exact e5.trans f6
  · rw [f4, e4, hr]; simp
  · refine f5.trans ?_
    congr 2

end Sys2Proof.Machine
end

