-- ==== Sys2Proof/Laws/Machine.lean ====
section
/-! SUPPORT. The shape of `exec` and `step`: each instruction is a host operation by a plan or a gated transaction, so that a
relation every atomic step keeps holds between the state before and after any instruction and any step. Then the relations
the claims name: growth of TRACE, the environment's own fields, the oracle's bytes, the parameters, FAULT. -/

namespace Sys2Proof.Machine

/-! ### The two kinds of instruction -/

/-- A host operation runs by a plan. -/
theorem exec_host {i : Instr} (h : i.opc?.isSome = true) (s : State) : ∃ plan, exec i s = runOp i plan s := by
  cases i <;> first | exact ⟨_, rfl⟩ | exact absurd h Bool.false_ne_true

/-- A wire row sends one transaction. -/
theorem exec_wire {i : Instr} (h : i.opc?.isSome = false) (s : State) :
    (∃ ws, exec i s = runWire (.xfer ws) s) ∨ ∃ w, exec i s = runWire (.xferArg w) s := by
  cases i <;> first | exact .inl ⟨_, rfl⟩ | exact .inr ⟨_, rfl⟩ | exact absurd h.symm Bool.false_ne_true

theorem runWire_next {x : Act} {s t : State} (h : runWire x s = .next t) : s.seq ≠ .halted ∧ t = gx x s := by
  unfold runWire at h
  split at h
  · exact absurd h (by simp)
  · next hs => exact ⟨by simp [hs], by injection h with h; exact h.symm⟩
  · next hs => exact ⟨by simp [hs], by injection h with h; exact h.symm⟩

theorem runWire_go {x : Act} {s : State} (h : s.seq ≠ .halted) : runWire x s = .next (gx x s) := by
  unfold runWire
  split
  · next hs => exact absurd hs h
  · rfl
  · rfl

/-! ### Relations that every atomic step keeps -/

/-- A relation between states that holds over every atomic step and every bookkeeping of the model. -/
structure StepRel (R : State → State → Prop) : Prop where
  refl : ∀ s, R s s
  trans : ∀ {s t u}, R s t → R t u → R s u
  env : ∀ s, R s (environment s)
  act : ∀ opc a s, R s (stepAct opc a s)
  load : ∀ opc prog s, R s (load opc prog s)
  accept : ∀ i s, R s (accept i s)
  fault : ∀ opc c s, R s (takeFault opc c s)
  config : ∀ v s, R s (configError v s)
  requests : ∀ rs s, R s { s with requests := rs }
  resp : ∀ s, R s { s with resp := none }

theorem StepRel.gx {R : State → State → Prop} (hR : StepRel R) (x : Act) (s : State) : R s (gx x s) :=
  hR.trans (hR.trans (hR.act _ _ _) (hR.act _ _ _)) (hR.act _ _ _)

theorem StepRel.tick {R : State → State → Prop} (hR : StepRel R) (s : State) : R s (tick s) := by
  unfold Machine.tick
  split
  · exact hR.trans (hR.load _ _ s) (hR.act _ _ _)
  · exact hR.act _ _ _
  · exact hR.refl s
  · exact hR.refl s

theorem StepRel.ticks {R : State → State → Prop} (hR : StepRel R) (n : Nat) (s : State) : R s (ticks n s) := by
  induction n generalizing s with
  | zero => exact hR.refl s
  | succ n ih => exact hR.trans (hR.tick s) (ih _)

theorem StepRel.runOp {R : State → State → Prop} (hR : StepRel R) {i : Instr} {plan : Plan} {s t : State}
    (h : runOp i plan s = .next t) : R s t := by
  obtain ⟨_, ⟨c, _, rfl⟩ | ⟨v, _, _, rfl⟩ | ⟨_, _, rfl⟩⟩ := runOp_cases h
  · exact hR.trans (hR.accept i s) (hR.fault _ _ _)
  · exact hR.trans (hR.accept i s) (hR.config _ _)
  · exact hR.trans (hR.trans (hR.accept i s) (hR.load _ _ _)) (hR.ticks _ _)

theorem StepRel.exec {R : State → State → Prop} (hR : StepRel R) {i : Instr} {s t : State} (h : exec i s = .next t) :
    R s t := by
  cases hi : i.opc?.isSome with
  | true =>
    obtain ⟨plan, e⟩ := exec_host hi s
    exact hR.runOp (e ▸ h)
  | false =>
    obtain ⟨ws, e⟩ | ⟨w, e⟩ := exec_wire hi s
    all_goals
      rw [e] at h
      obtain ⟨_, rfl⟩ := runWire_next h
      exact hR.gx _ _

theorem StepRel.step {R : State → State → Prop} (hR : StepRel R) {s t : State} (h : step s = .next t) : R s t := by
  unfold Machine.step at h
  split at h
  · split at h
    · injection h with h; exact h ▸ hR.env s
    · split at h
      · exact hR.trans (hR.trans (hR.env s) (hR.requests _ _)) (hR.exec h)
      · injection h with h
        exact h ▸ hR.trans (hR.trans (hR.trans (hR.env s) (hR.requests _ _)) (hR.resp _)) (hR.fault _ _ _)
  · split at h
    · split at h
      · exact hR.trans (hR.load _ _ s) (hR.exec h)
      · injection h with h; exact h ▸ hR.tick s
    · injection h with h; exact h ▸ hR.tick s
  · split at h
    · exact absurd h (by simp)
    · injection h with h; exact h ▸ hR.env s

/-! ### TRACE and TMO -/

theorem grows_stepRel : StepRel Grows where
  refl := Grows.refl
  trans := Grows.trans
  env := environment_grows
  act := stepAct_grows
  load := load_grows
  accept := fun _ _ => ⟨_, rfl, by simp⟩
  fault := takeFault_grows
  config := fun _ _ => ⟨_, rfl, by simp⟩
  requests := fun _ _ => ⟨[], by simp, by simp⟩
  resp := fun _ => ⟨[], by simp, by simp⟩

theorem Grows.newEvents {s t : State} (h : Grows s t) :
    t.trace = s.trace ++ newEvents s t ∧ t.tmo = s.tmo + BitVec.ofNat 32 (timeoutsOf (newEvents s t)) := by
  obtain ⟨new, hn, hm⟩ := h
  have : Machine.newEvents s t = new := by rw [Machine.newEvents, hn, List.drop_left]
  exact ⟨by rw [this, hn], by rw [this, hm]⟩

theorem newEvents_of_append {s t : State} {new : List Event} (h : t.trace = s.trace ++ new) : newEvents s t = new := by
  rw [newEvents, h, List.drop_left]

/-! ### The ready path at an interleaving point -/

theorem envMove_ready (ms : List EnvMove) (r : ReadyPath) :
    r.edges ≤ (ms.foldl envMove r).edges ∧
      (ms.foldl envMove r).rdy = (r.rdy || decide (r.edges < (ms.foldl envMove r).edges)) := by
  induction ms generalizing r with
  | nil => simp
  | cons m ms ih =>
    obtain ⟨a, b⟩ := ih (envMove r m)
    rw [List.foldl_cons, b]
    generalize (ms.foldl envMove (envMove r m)).edges = n at a
    cases m with
    | pin l => exact ⟨a, rfl⟩
    | edge =>
      have rise : ∀ x : Bool, r.edges + x.toNat ≤ n →
          r.edges ≤ n ∧ (r.rdy || x || decide (r.edges + x.toNat < n)) = (r.rdy || decide (r.edges < n)) := by
        intro x hx
        cases x with
        | false => simpa using hx
        | true =>
          have : r.edges < n := by simpa using hx
          exact ⟨by omega, by simp [this]⟩
      exact rise _ a

/-- RDY after an interleaving point: it was 1, or an edge was seen (R34, R304). -/
theorem readyAfter_rdy (s : State) : (readyAfter s).rdy = (s.rdy || decide (0 < (readyAfter s).edges)) :=
  (envMove_ready (nextSlot s).moves ⟨s.hrdy, s.hprev, s.rdy, 0⟩).2

theorem envMove_lines (ms : List EnvMove) (r : ReadyPath) :
    ((ms.foldl envMove r).hrdy, (ms.foldl envMove r).hprev) = ms.foldl lineMove (r.hrdy, r.hprev) := by
  induction ms generalizing r with
  | nil => rfl
  | cons m ms ih => rw [List.foldl_cons, ih]; cases m <;> rfl

theorem slotAt_zero (s : State) : slotAt s 0 = nextSlot s := by
  unfold slotAt nextSlot
  cases s.script <;> simp

theorem linesAfter_one (s : State) : linesAfter 1 s = ((readyAfter s).hrdy, (readyAfter s).hprev) := by
  simp only [linesAfter, List.range_one, List.flatMap_cons, List.flatMap_nil, List.append_nil, slotAt_zero]
  exact (envMove_lines _ ⟨s.hrdy, s.hprev, s.rdy, 0⟩).symm

/-! ### The environment's own fields -/

theorem EnvRan.refl (s : State) : EnvRan s s := ⟨0, rfl, rfl, rfl⟩

theorem EnvRan.trans {s t u : State} (a : EnvRan s t) (b : EnvRan t u) : EnvRan s u := by
  obtain ⟨m, m1, m2, m3⟩ := a
  obtain ⟨n, n1, n2, n3⟩ := b
  refine ⟨m + n, by rw [n1, m1, Nat.add_assoc], by rw [n2, m2, List.drop_drop], ?_⟩
  have hs : ∀ k, slotAt t k = slotAt s (m + k) := by
    intro k
    simp only [slotAt, m1, m2, List.getD_eq_getElem?_getD, List.getElem?_drop, Nat.add_assoc]
  rw [n3, linesAfter, m3, linesAfter, linesAfter, List.range_add, List.flatMap_append, List.foldl_append,
    List.flatMap_map]
  simp only [hs]

/-- A change that leaves the environment's fields alone. -/
theorem EnvRan.of_eq {s t : State} (h1 : t.slots = s.slots) (h2 : t.script = s.script) (h3 : t.hrdy = s.hrdy)
    (h4 : t.hprev = s.hprev) : EnvRan s t := ⟨0, h1, h2, by rw [h3, h4]; rfl⟩

theorem environment_envRan (s : State) : EnvRan s (environment s) :=
  ⟨1, rfl, by simp, (linesAfter_one s).symm⟩

theorem perform_envRan (opc : Byte) (a : Act) (e : Bool) (s : State) : EnvRan s (perform opc a e s) := by
  cases a with
  | xferBase high => simp only [perform]; split <;> exact EnvRan.of_eq rfl rfl rfl rfl
  | storeInfo => simp only [perform]; split <;> exact EnvRan.of_eq rfl rfl rfl rfl
  | pollCheck => simp only [perform]; split <;> exact EnvRan.of_eq rfl rfl rfl rfl
  | xfer ws => exact EnvRan.of_eq rfl rfl rfl rfl
  | xferArg w => exact EnvRan.of_eq rfl rfl rfl rfl
  | _ => exact EnvRan.of_eq rfl rfl rfl rfl

theorem envRan_stepRel : StepRel EnvRan where
  refl := EnvRan.refl
  trans := EnvRan.trans
  env := environment_envRan
  act := fun _ _ _ => (environment_envRan _).trans (perform_envRan _ _ _ _)
  load := fun _ _ _ => EnvRan.of_eq rfl rfl rfl rfl
  accept := fun _ _ => EnvRan.of_eq rfl rfl rfl rfl
  fault := fun _ _ _ => EnvRan.of_eq rfl rfl rfl rfl
  config := fun _ _ => EnvRan.of_eq rfl rfl rfl rfl
  requests := fun _ _ => EnvRan.of_eq rfl rfl rfl rfl
  resp := fun _ => EnvRan.of_eq rfl rfl rfl rfl

/-! ### The oracle's bytes -/

@[simp] theorem receivedWords_append (a b : List Event) : receivedWords (a ++ b) = receivedWords a ++ receivedWords b := by
  simp [receivedWords]

@[simp] theorem receivedWords_edges (n : Nat) : receivedWords (List.replicate n Event.edge) = [] := by simp [receivedWords]

theorem rxByte_drop (s t : State) (k j : Nat) (h1 : t.draws = s.draws + k) (h2 : t.rx = s.rx.drop k) :
    rxByte t j = rxByte s (k + j) := by
  simp only [rxByte, h1, h2, List.getD_eq_getElem?_getD, List.getElem?_drop, Nat.add_assoc]

theorem receive_append (s t : State) (m n : Nat) (h1 : t.draws = s.draws + 2 * m) (h2 : t.rx = s.rx.drop (2 * m)) :
    receive s (m + n) = receive s m ++ receive t n := by
  simp only [receive, List.range_add, List.map_append, List.map_map]
  congr 1
  apply List.map_congr_left
  intro j _
  simp only [Function.comp, rxByte_drop s t _ _ h1 h2]
  congr 2 <;> omega

/-- `Drew` with the new events named. -/
def DrewAs (s t : State) (new : List Event) : Prop :=
  t.trace = s.trace ++ new ∧ receivedWords new = receive s (receivedWords new).length ∧
    t.draws = s.draws + 2 * (receivedWords new).length ∧ t.rx = s.rx.drop (2 * (receivedWords new).length)

theorem DrewAs.drew {s t : State} {new : List Event} (h : DrewAs s t new) : Drew s t := by
  unfold Drew
  rw [newEvents_of_append h.1]
  exact h.2

theorem DrewAs.trans {s t u : State} {x y : List Event} (a : DrewAs s t x) (b : DrewAs t u y) : DrewAs s u (x ++ y) := by
  obtain ⟨a1, a2, a3, a4⟩ := a
  obtain ⟨b1, b2, b3, b4⟩ := b
  refine ⟨by rw [b1, a1, List.append_assoc], ?_, ?_, ?_⟩
  · rw [receivedWords_append, List.length_append, receive_append s t _ _ a3 a4, ← a2, ← b2]
  · rw [b3, a3, receivedWords_append, List.length_append]; omega
  · rw [b4, a4, receivedWords_append, List.length_append, List.drop_drop]; congr 1; omega

/-- A change that receives nothing. -/
theorem DrewAs.of_eq {s t : State} {new : List Event} (h1 : t.trace = s.trace ++ new) (h2 : receivedWords new = [])
    (h3 : t.draws = s.draws) (h4 : t.rx = s.rx) : DrewAs s t new :=
  ⟨h1, by rw [h2]; rfl, by rw [h2, h3]; rfl, by rw [h2, h4]; rfl⟩

theorem transact_drew (ws : List Word) (s : State) : ∃ new, DrewAs s (transact ws s) new := by
  refine ⟨_, rfl, ?_⟩
  cases ws with
  | nil => exact ⟨rfl, rfl, rfl⟩
  | cons w ws =>
    have h : receivedWords [Event.frame (w :: ws) (receive s (w :: ws).length)] = receive s (w :: ws).length := by
      simp [receivedWords]
    rw [show (w :: ws).isEmpty = false from rfl, if_neg Bool.false_ne_true, h, receive_length]
    exact ⟨rfl, rfl, rfl⟩

theorem environment_drew (s : State) : ∃ new, DrewAs s (environment s) new :=
  ⟨_, DrewAs.of_eq rfl (by simp) rfl rfl⟩

theorem drewAs_nil {s t : State} (h1 : t.trace = s.trace) (h2 : t.draws = s.draws) (h3 : t.rx = s.rx) :
    ∃ new, DrewAs s t new := ⟨[], DrewAs.of_eq (by rw [h1, List.append_nil]) rfl h2 h3⟩

theorem perform_drew (opc : Byte) (a : Act) (e : Bool) (s : State) : ∃ new, DrewAs s (perform opc a e s) new := by
  cases a with
  | prime => exact ⟨_, DrewAs.of_eq rfl rfl rfl rfl⟩
  | xfer ws => exact transact_drew _ _
  | xferArg w => exact transact_drew _ _
  | xferBase high =>
    simp only [perform]
    split
    · exact transact_drew _ _
    · exact ⟨_, DrewAs.of_eq rfl rfl rfl rfl⟩
  | await => refine ⟨_, DrewAs.of_eq rfl ?_ rfl rfl⟩; split <;> rfl
  | drive v => exact ⟨_, DrewAs.of_eq rfl rfl rfl rfl⟩
  | delay d => exact ⟨_, DrewAs.of_eq rfl rfl rfl rfl⟩
  | startupWait => refine ⟨_, DrewAs.of_eq rfl ?_ rfl rfl⟩; split <;> rfl
  | beginReset => exact drewAs_nil rfl rfl rfl
  | storeInfo =>
    simp only [perform]
    split
    · exact drewAs_nil rfl rfl rfl
    · exact ⟨_, DrewAs.of_eq rfl rfl rfl rfl⟩
  | setRma v => exact drewAs_nil rfl rfl rfl
  | setAsleep v => exact drewAs_nil rfl rfl rfl
  | setConfigured => exact drewAs_nil rfl rfl rfl
  | pollCheck => simp only [perform]; split <;> exact drewAs_nil rfl rfl rfl
  | finish r => exact ⟨_, DrewAs.of_eq rfl rfl rfl rfl⟩

theorem drew_stepRel : StepRel fun s t => ∃ new, DrewAs s t new where
  refl := fun _ => drewAs_nil rfl rfl rfl
  trans := fun ⟨x, a⟩ ⟨y, b⟩ => ⟨x ++ y, a.trans b⟩
  env := environment_drew
  act := fun opc a s => by
    obtain ⟨x, hx⟩ := environment_drew s
    obtain ⟨y, hy⟩ := perform_drew opc a (nextSlot s).expire (environment s)
    exact ⟨x ++ y, hx.trans hy⟩
  load := fun _ _ _ => drewAs_nil rfl rfl rfl
  accept := fun _ _ => ⟨_, DrewAs.of_eq rfl rfl rfl rfl⟩
  fault := fun _ _ _ => ⟨_, DrewAs.of_eq rfl rfl rfl rfl⟩
  config := fun _ _ => ⟨_, DrewAs.of_eq rfl rfl rfl rfl⟩
  requests := fun _ _ => drewAs_nil rfl rfl rfl
  resp := fun _ => drewAs_nil rfl rfl rfl

/-! ### Parameters -/

theorem params_stepRel : StepRel fun s t => t.params = s.params where
  refl := fun _ => rfl
  trans := fun a b => b.trans a
  env := fun _ => rfl
  act := fun opc a s => by
    unfold stepAct
    cases a with
    | xferBase high => simp only [perform]; split <;> rfl
    | storeInfo => simp only [perform]; split <;> rfl
    | pollCheck => simp only [perform]; split <;> rfl
    | xfer ws => rfl
    | xferArg w => rfl
    | _ => rfl
  load := fun _ _ _ => rfl
  accept := fun _ _ => rfl
  fault := fun _ _ _ => rfl
  config := fun _ _ => rfl
  requests := fun _ _ => rfl
  resp := fun _ => rfl

/-! ### RDY without a handshake -/

/-- `ReadyByEdges` with the new events named. -/
def ReadyBy (s t : State) (new : List Event) : Prop :=
  t.trace = s.trace ++ new ∧ t.rdy = (s.rdy || new.contains .edge)

theorem ReadyBy.ready {s t : State} {new : List Event} (h : ReadyBy s t new) : ReadyByEdges s t := by
  rw [ReadyByEdges, newEvents_of_append h.1]
  exact h.2

theorem ReadyBy.trans {s t u : State} {x y : List Event} (a : ReadyBy s t x) (b : ReadyBy t u y) :
    ReadyBy s u (x ++ y) := by
  refine ⟨by rw [b.1, a.1, List.append_assoc], ?_⟩
  rw [b.2, a.2, List.contains_append, Bool.or_assoc]

theorem environment_readyBy (s : State) : ReadyBy s (environment s) (List.replicate (readyAfter s).edges Event.edge) := by
  refine ⟨rfl, ?_⟩
  rw [environment_rdy, readyAfter_rdy]
  cases (readyAfter s).edges <;> simp [List.replicate_succ]

/-- A straight step that is neither half of a handshake. -/
def Act.quiet : Act → Bool
  | .prime => false
  | .await => false
  | a => a.straight

theorem perform_readyBy {a : Act} (h : a.quiet = true) (opc : Byte) (e : Bool) (s : State) :
    ∃ new, ReadyBy s (perform opc a e s) new := by
  cases a with
  | xfer ws => cases ws <;> exact ⟨_, rfl, (Bool.or_false _).symm⟩
  | xferArg w => exact ⟨_, rfl, (Bool.or_false _).symm⟩
  | drive v => exact ⟨_, rfl, (Bool.or_false _).symm⟩
  | delay d => exact ⟨_, rfl, (Bool.or_false _).symm⟩
  | startupWait => exact ⟨_, rfl, by cases s.hrdy <;> cases e <;> simp [perform]⟩
  | beginReset => exact ⟨[], by simp [perform], by simp [perform]⟩
  | setRma v => exact ⟨[], by simp [perform], by simp [perform]⟩
  | setAsleep v => exact ⟨[], by simp [perform], by simp [perform]⟩
  | setConfigured => exact ⟨[], by simp [perform], by simp [perform]⟩
  | prime => exact absurd h Bool.false_ne_true
  | await => exact absurd h Bool.false_ne_true
  | xferBase _ => exact absurd h Bool.false_ne_true
  | storeInfo => exact absurd h Bool.false_ne_true
  | pollCheck => exact absurd h Bool.false_ne_true
  | finish _ => exact absurd h Bool.false_ne_true

theorem finish_readyBy (opc : Byte) (r : ResultSpec) (e : Bool) (s : State) :
    ReadyBy s (perform opc (.finish r) e s) [Event.endOp .ok] := ⟨rfl, (Bool.or_false _).symm⟩

theorem quiet_straight {a : Act} (h : a.quiet = true) : a.straight = true := by
  cases a <;> first | rfl | exact h

/-- An operation without a handshake leaves RDY to the edge agent. -/
theorem run_quiet (i : Instr) (as : List Act) (ha : ∀ a ∈ as, a.quiet = true) (r : ResultSpec) (s : State) :
    ReadyByEdges s (ticks (as ++ [Act.finish r]).length (load i.opc (as ++ [Act.finish r]) (accept i s))) := by
  have go : ∀ (as : List Act), (∀ a ∈ as, a.quiet = true) → ∀ u : State,
      ∃ new, ReadyBy u (ticks (as ++ [Act.finish r]).length (load i.opc (as ++ [Act.finish r]) u)) new := by
    intro as
    induction as with
    | nil =>
      intro _ u
      exact ⟨_, (environment_readyBy (load i.opc [] u)).trans (finish_readyBy i.opc r (nextSlot u).expire _)⟩
    | cons a as ih =>
      intro h u
      have hq := h a (by simp)
      obtain ⟨x, hx⟩ := perform_readyBy hq 0x00 (nextSlot u).expire (environment u)
      obtain ⟨y, hy⟩ := ih (fun b hb => h b (by simp [hb])) (stepAct 0x00 a u)
      refine ⟨_, ((environment_readyBy u).trans hx).trans (y := y) ?_⟩
      rw [List.cons_append, List.length_cons, ticks_straight _ _ _ _ _ (quiet_straight hq)]
      exact hy
  obtain ⟨new, hn⟩ := go as ha (accept i s)
  have ha : ReadyBy s (accept i s) [Event.op i] := ⟨rfl, (Bool.or_false _).symm⟩
  exact (ha.trans hn).ready

end Sys2Proof.Machine
end

