-- ==== Sys2Proof/Laws/Legs.lean ====
section
/-! SUPPORT. A gated transaction in full (40_transport.md R147), the chunk loop's arithmetic (R150), and the HWRESET body
(R156). -/

namespace Sys2Proof.Machine

/-! ### A gated transaction -/

theorem receive_congr {s t : State} (h1 : t.rx = s.rx) (h2 : t.draws = s.draws) (n : Nat) : receive t n = receive s n := by
  simp only [receive, rxByte, h1, h2]

/-- The words a gated transaction receives are the bytes that come next: neither PRIME nor the moves before it take one. -/
theorem gx_receive (s : State) (n : Nat) : receive (environment (stepAct 0x00 .prime s)) n = receive s n :=
  (receive_congr (environment_rx _) (environment_draws _) n).trans (receive_congr rfl rfl n)

/-- Everything `gx` does: PRIME, the frame, the wait that ends OK exactly when an edge was seen since PRIME. -/
theorem gx_between {ws : List Word} (hw : ws ≠ []) (s : State) :
    ∃ a b c : Nat,
      (gx (.xfer ws) s).trace =
          s.trace ++ (List.replicate a Event.edge ++ [Event.prime] ++ List.replicate b Event.edge ++ [Event.frame ws (receive s ws.length)] ++
            List.replicate c Event.edge ++ [if b + c = 0 then Event.timeout .data else Event.awaitOk]) ∧
        (gx (.xfer ws) s).rdata = receive s ws.length ∧ (gx (.xfer ws) s).rdy = false ∧
        (gx (.xfer ws) s).tmo = (if b + c = 0 then s.tmo + 1 else s.tmo) := by
  let u := stepAct 0x00 .prime s
  let v := stepAct 0x00 (.xfer ws) u
  have hu : u.rdy = false := rfl
  have hv : v.rdy = decide (0 < (readyAfter u).edges) := by
    show (environment u).rdy = _
    rw [environment_rdy, readyAfter_rdy, hu, Bool.false_or]
  have hr : (environment v).rdy = decide (0 < (readyAfter u).edges + (readyAfter v).edges) := by
    rw [environment_rdy, readyAfter_rdy, hv, Bool.eq_iff_iff]
    simp only [Bool.or_eq_true, decide_eq_true_eq]
    omega
  have ht : (gx (.xfer ws) s).trace =
      s.trace ++ List.replicate (readyAfter s).edges Event.edge ++ [Event.prime] ++ List.replicate (readyAfter u).edges Event.edge ++
        [Event.frame ws (receive s ws.length)] ++ List.replicate (readyAfter v).edges Event.edge ++
        [if (environment v).rdy then Event.awaitOk else .timeout .data] := by
    have h := stepAct_await_trace 0x00 v
    rw [stepAct_xfer_trace _ hw, stepAct_prime_trace, gx_receive] at h
    exact h
  have hm : (gx (.xfer ws) s).tmo = if (environment v).rdy then s.tmo else s.tmo + 1 := by
    have h1 : u.tmo = s.tmo := rfl
    have h2 : v.tmo = u.tmo := rfl
    have h3 : (stepAct 0x00 .await v).tmo = if (environment v).rdy then v.tmo else v.tmo + 1 := rfl
    rw [h2, h1] at h3
    exact h3
  have hd : (gx (.xfer ws) s).rdata = receive s ws.length := by
    have h1 : v.rdata = receive (environment u) ws.length := rfl
    have h2 : (stepAct 0x00 .await v).rdata = v.rdata := rfl
    exact h2.trans (h1.trans (gx_receive s _))
  refine ⟨(readyAfter s).edges, (readyAfter u).edges, (readyAfter v).edges, ?_, hd, rfl, ?_⟩
  · rw [ht, hr]
    by_cases h : (readyAfter u).edges + (readyAfter v).edges = 0
    · simp [h]
    · rw [if_neg h, decide_eq_true (Nat.pos_of_ne_zero h)]; simp
  · rw [hm, hr]
    by_cases h : (readyAfter u).edges + (readyAfter v).edges = 0
    · simp [h]
    · rw [if_neg h, decide_eq_true (Nat.pos_of_ne_zero h)]; simp

/-! ### Chunks -/

theorem chunksFrom_nil {α : Type} (fuel k : Nat) : chunksFrom fuel k ([] : List α) = [] := by cases fuel <;> rfl

/-- What the chunks of a list are. -/
theorem chunksFrom_spec {α : Type} {k : Nat} (hk : 1 ≤ k) (fuel : Nat) (l : List α) (h : l.length ≤ fuel) :
    (chunksFrom fuel k l).flatten = l ∧ (chunksFrom fuel k l).length = (l.length + k - 1) / k ∧
      (∀ c ∈ chunksFrom fuel k l, c ≠ [] ∧ c.length ≤ k) ∧ ∀ c ∈ (chunksFrom fuel k l).dropLast, c.length = k := by
  induction fuel generalizing l with
  | zero =>
    obtain rfl : l = [] := List.length_eq_zero_iff.1 (by omega)
    have : (k - 1) / k = 0 := Nat.div_eq_of_lt (by omega)
    simp [chunksFrom, this]
  | succ fuel ih =>
    cases l with
    | nil =>
      have : (k - 1) / k = 0 := Nat.div_eq_of_lt (by omega)
      simp [chunksFrom, this]
    | cons x xs =>
      have hl : ((x :: xs).drop k).length ≤ fuel := by simp at *; omega
      obtain ⟨i1, i2, i3, i4⟩ := ih ((x :: xs).drop k) hl
      have e : chunksFrom (fuel + 1) k (x :: xs) = (x :: xs).take k :: chunksFrom fuel k ((x :: xs).drop k) := rfl
      refine ⟨?_, ?_, ?_, ?_⟩
      · rw [e, List.flatten_cons, i1, List.take_append_drop]
      · rw [e, List.length_cons, i2, List.length_drop]
        rcases Nat.le_total (x :: xs).length k with hle | hle
        · have h1 : (x :: xs).length - k + k - 1 = k - 1 := by omega
          have h2 : (x :: xs).length + k - 1 = (x :: xs).length - 1 + k := by simp only [List.length_cons]; omega
          have h3 : (x :: xs).length - 1 < k := by simp only [List.length_cons] at *; omega
          rw [h1, h2, Nat.div_eq_of_lt (by omega), Nat.add_div_right _ (by omega), Nat.div_eq_of_lt h3]
        · have h1 : (x :: xs).length + k - 1 = ((x :: xs).length - k + k - 1) + k := by omega
          rw [h1, Nat.add_div_right _ (by omega)]
      · intro c hc
        rw [e, List.mem_cons] at hc
        rcases hc with rfl | hc
        · refine ⟨?_, by simp⟩
          obtain ⟨m, rfl⟩ : ∃ m, k = m + 1 := ⟨k - 1, by omega⟩
          simp
        · exact i3 c hc
      · intro c hc
        rw [e] at hc
        cases hd : chunksFrom fuel k ((x :: xs).drop k) with
        | nil => rw [hd] at hc; simp at hc
        | cons y ys =>
          rw [hd, List.dropLast_cons_of_ne_nil (List.cons_ne_nil _ _), List.mem_cons] at hc
          rcases hc with rfl | hc
          · rw [List.length_take]
            apply Nat.min_eq_left
            by_contra hlt
            rw [List.drop_eq_nil_of_le (by omega), chunksFrom_nil] at hd
            exact absurd hd (by simp)
          · exact i4 c (hd ▸ hc)

theorem chunksOf_spec {α : Type} {k : Nat} (hk : 1 ≤ k) (l : List α) :
    (chunksOf k l).flatten = l ∧ (chunksOf k l).length = (l.length + k - 1) / k ∧
      (∀ c ∈ chunksOf k l, c ≠ [] ∧ c.length ≤ k) ∧ ∀ c ∈ (chunksOf k l).dropLast, c.length = k :=
  chunksFrom_spec hk _ _ (Nat.le_refl _)

/-- The payload's legs as transactions. -/
def payloadUnits (chunk : Nat) (ws : List Word) : List Act := (chunksOf chunk ws).map fun c => .xfer (Config.preData :: c)

theorem payloadActs_units (chunk : Nat) (ws : List Word) : payloadActs chunk ws = (payloadUnits chunk ws).flatMap gated := by
  rw [payloadActs, payloadUnits, List.flatMap_map]

theorem payloadUnits_isUnit (chunk : Nat) (ws : List Word) : ∀ x ∈ payloadUnits chunk ws, x.isUnit = true := by
  intro x hx
  obtain ⟨c, _, rfl⟩ := List.mem_map.1 hx
  rfl

theorem payloadUnits_sent (chunk : Nat) (ws : List Word) :
    (payloadUnits chunk ws).map Act.sent = (chunksOf chunk ws).map (Config.preData :: ·) := by
  rw [payloadUnits, List.map_map]
  rfl

/-- A command and its arguments as transactions (R104, R124). -/
theorem cmdArgs_units (code : Word) (args : List Word) :
    cmdArgs code args =
      (Act.xfer [Config.preCmd, code] :: args.map fun a => Act.xfer [Config.preData, a]).flatMap gated := by
  rw [cmdArgs, List.flatMap_cons, List.flatMap_map]
  rfl

/-! ### A bare exchange -/

/-- A raw operation that only exchanges words and sets RMA (R141, R148 with `wait = 0`). -/
theorem run_bare (i : Instr) (ws : List Word) (r : ResultSpec) (s : State) :
    ∃ t, ticks [Act.xfer ws, .setRma true, .finish r].length
        (load i.opc [Act.xfer ws, .setRma true, .finish r] (accept i s)) = t ∧
      Ran i s t (if ws = [] then [] else [Event.frame ws (receive s ws.length)]) ∧
      SameBlock { s with rma := true } t ∧ t.rdata = receive s ws.length ∧ t.tmo = s.tmo ∧ t.answers (resultOf t r) := by
  let u := stepAct 0x00 (.xfer ws) (accept i s)
  have hu : sequencerEvents u.trace = sequencerEvents s.trace ++ [Event.op i] ++
      (if ws = [] then [] else [Event.frame ws (receive s ws.length)]) := by
    have h : u.trace = s.trace ++ [Event.op i] ++ List.replicate (readyAfter (accept i s)).edges Event.edge ++
        (if ws.isEmpty then [] else [Event.frame ws (receive s ws.length)]) := rfl
    rw [h]
    cases ws <;> simp [sequencerEvents]
  obtain ⟨h1, h2, h3, _, _, h6⟩ := stepAct_silent (a := .setRma true) rfl u
  have k : SameBlock s u := ⟨rfl, rfl, rfl, rfl, rfl, rfl, rfl, rfl, rfl⟩
  have hd : u.rdata = receive s ws.length := rfl
  have hm : u.tmo = s.tmo := rfl
  have ht : ticks 3 (load i.opc [Act.xfer ws, .setRma true, .finish r] (accept i s)) =
      stepAct i.opc (.finish r) (load i.opc [] (stepAct 0x00 (.setRma true) u)) := by
    rw [ticks_straight 2 _ _ _ _ rfl, ticks_straight 1 _ _ _ _ rfl]
    rfl
  generalize u = u at *
  have hb := (flagEffect_sameBlock (a := .setRma true) rfl k).trans h6
  generalize stepAct 0x00 (.setRma true) u = v at *
  obtain ⟨f1, f2, f3, f4, f5, f6⟩ := finish_effect i.opc r (load i.opc [] v)
  have ha : resultOf (load i.opc [] v) r = resultOf (stepAct i.opc (.finish r) (load i.opc [] v)) r := by
    cases r <;> rfl
  refine ⟨_, ht, ⟨?_, ?_, f3⟩, (hb.trans (load_sameBlock i.opc [] v)).trans f6, ?_, ?_, ?_⟩
  · rw [f1, load_trace, h1, hu]
  · rw [f2, load_tmo, h2, hm]
    by_cases h : ws = [] <;> simp [h]
  · rw [f4, load_rdata, h3, hd]
  · rw [f2, load_tmo, h2, hm]
  · rw [← ha]; exact f5

/-! ### The HWRESET body -/

/-- The state after the body of HWRESET. -/
@[irreducible] def afterReset (s : State) : State :=
  stepAct 0x00 .startupWait (stepAct 0x00 (.delay .postReset) (stepAct 0x00 (.drive true)
    (stepAct 0x00 (.delay .resetLow) (stepAct 0x00 (.drive false) (stepAct 0x00 .beginReset s)))))

theorem ticks_hwreset (n : Nat) (opc : Byte) (rest : List Act) (s : State) :
    ticks (n + 6) (load opc (hwresetBody ++ rest) s) = ticks n (load opc rest (afterReset s)) := by
  show ticks (n + 5 + 1) (load opc (.beginReset :: _) s) = _
  rw [ticks_straight (n + 5) _ .beginReset _ _ rfl]
  show ticks (n + 4 + 1) (load opc (.drive false :: _) _) = _
  rw [ticks_straight (n + 4) _ _ _ _ rfl]
  show ticks (n + 3 + 1) (load opc (.delay .resetLow :: _) _) = _
  rw [ticks_straight (n + 3) _ _ _ _ rfl]
  show ticks (n + 2 + 1) (load opc (.drive true :: _) _) = _
  rw [ticks_straight (n + 2) _ _ _ _ rfl]
  show ticks (n + 1 + 1) (load opc (.delay .postReset :: _) _) = _
  rw [ticks_straight (n + 1) _ _ _ _ rfl]
  show ticks (n + 1) (load opc (.startupWait :: rest) _) = _
  rw [ticks_straight n _ _ _ _ rfl, afterReset]

/-- The fields HWRESET writes, as it leaves them (R341). -/
def resetBlock (s : State) : State :=
  { s with infoValid := false, configured := false, asleep := false, rma := true, info := none, resetN := true }

theorem resetBlock_sameBlock {s t : State} (e : SameBlock s t) : SameBlock (resetBlock s) (resetBlock t) :=
  ⟨rfl, rfl, rfl, rfl, rfl, rfl, e.faults, e.params, e.requests⟩

/-- The events of HWRESET, with `w` the end of the startup wait: nothing, or its timeout. -/
def resetEvents (w : List Event) : List Event :=
  [Event.sigResetN false, .delay .resetLow, .sigResetN true, .delay .postReset] ++ w

/-- The lines after some atomic steps that are not the environment's. -/
theorem stepAct_lines {a : Act} (h : a.straight = true) (s : State) :
    (stepAct 0x00 a s).hrdy = (readyAfter s).hrdy ∧ (stepAct 0x00 a s).hprev = (readyAfter s).hprev ∧
      (stepAct 0x00 a s).slots = s.slots + 1 ∧ (stepAct 0x00 a s).script = s.script.tail := by
  cases a with
  | xfer ws => exact ⟨rfl, rfl, rfl, rfl⟩
  | xferArg w => exact ⟨rfl, rfl, rfl, rfl⟩
  | prime => exact ⟨rfl, rfl, rfl, rfl⟩
  | await => exact ⟨rfl, rfl, rfl, rfl⟩
  | drive v => exact ⟨rfl, rfl, rfl, rfl⟩
  | delay d => exact ⟨rfl, rfl, rfl, rfl⟩
  | startupWait => exact ⟨rfl, rfl, rfl, rfl⟩
  | beginReset => exact ⟨rfl, rfl, rfl, rfl⟩
  | setRma v => exact ⟨rfl, rfl, rfl, rfl⟩
  | setAsleep v => exact ⟨rfl, rfl, rfl, rfl⟩
  | setConfigured => exact ⟨rfl, rfl, rfl, rfl⟩
  | xferBase _ => exact absurd h Bool.false_ne_true
  | storeInfo => exact absurd h Bool.false_ne_true
  | pollCheck => exact absurd h Bool.false_ne_true
  | finish _ => exact absurd h Bool.false_ne_true

theorem slotAt_tail {s t : State} (h1 : t.slots = s.slots + 1) (h2 : t.script = s.script.tail) (k : Nat) :
    slotAt t k = slotAt s (k + 1) := by
  have e : s.slots + 1 + k = s.slots + (k + 1) := by omega
  simp only [slotAt, h1, h2, List.getD_eq_getElem?_getD, List.getElem?_tail, e]

/-- The lines after `n + 1` interleaving points, by the first of them. -/
theorem linesAfter_succ {s t : State} (n : Nat) (h1 : t.hrdy = (readyAfter s).hrdy) (h2 : t.hprev = (readyAfter s).hprev)
    (h3 : t.slots = s.slots + 1) (h4 : t.script = s.script.tail) : linesAfter (n + 1) s = linesAfter n t := by
  have e : (t.hrdy, t.hprev) = (slotAt s 0).moves.foldl lineMove (s.hrdy, s.hprev) := by
    rw [h1, h2, slotAt_zero]
    exact envMove_lines (nextSlot s).moves ⟨s.hrdy, s.hprev, s.rdy, 0⟩
  rw [linesAfter, linesAfter, e, List.range_succ_eq_map, List.flatMap_cons, List.foldl_append, List.flatMap_map]
  simp only [slotAt_tail h3 h4, Nat.succ_eq_add_one]

theorem linesAfter_stepAct {a : Act} (h : a.straight = true) (n : Nat) (s : State) :
    linesAfter (n + 1) s = linesAfter n (stepAct 0x00 a s) :=
  let ⟨h1, h2, h3, h4⟩ := stepAct_lines h s
  linesAfter_succ n h1 h2 h3 h4

theorem slotAt_stepAct {a : Act} (h : a.straight = true) (k : Nat) (s : State) :
    slotAt (stepAct 0x00 a s) k = slotAt s (k + 1) :=
  let ⟨_, _, h3, h4⟩ := stepAct_lines h s
  slotAt_tail h3 h4 k

@[simp] theorem slotAt_accept (i : Instr) (s : State) (k : Nat) : slotAt (accept i s) k = slotAt s k := rfl

@[simp] theorem linesAfter_accept (i : Instr) (s : State) (n : Nat) : linesAfter n (accept i s) = linesAfter n s := rfl

@[simp] theorem receive_accept (i : Instr) (s : State) (n : Nat) : receive (accept i s) n = receive s n := rfl

@[simp] theorem receive_environment (s : State) (n : Nat) : receive (environment s) n = receive s n := rfl

/-- What the body of HWRESET does (R156, R157, R341). -/
theorem afterReset_effect (s : State) :
    ∃ w, (w = [] ∨ w = [Event.timeout .reset]) ∧
      (w = [] ↔ (linesAfter 6 s).1 = true ∧ (slotAt s 5).expire = false) ∧
      sequencerEvents (afterReset s).trace = sequencerEvents s.trace ++ resetEvents w ∧
      (afterReset s).tmo = s.tmo + BitVec.ofNat 32 (timeoutsOf w) ∧
      SameBlock (resetBlock s) (afterReset s) := by
  let s1 := stepAct 0x00 .beginReset s
  let s2 := stepAct 0x00 (.drive false) s1
  let s3 := stepAct 0x00 (.delay .resetLow) s2
  let s4 := stepAct 0x00 (.drive true) s3
  let s5 := stepAct 0x00 (.delay .postReset) s4
  have ha : afterReset s = stepAct 0x00 .startupWait s5 := by simp only [afterReset, s5, s4, s3, s2, s1]
  rw [ha]
  have hl : linesAfter 6 s = linesAfter 1 s5 := by
    rw [linesAfter_stepAct (a := .beginReset) rfl, linesAfter_stepAct (a := .drive false) rfl,
      linesAfter_stepAct (a := .delay .resetLow) rfl, linesAfter_stepAct (a := .drive true) rfl,
      linesAfter_stepAct (a := .delay .postReset) rfl]
  have hx : slotAt s 5 = nextSlot s5 := by
    rw [← slotAt_zero, slotAt_stepAct rfl, slotAt_stepAct rfl, slotAt_stepAct rfl, slotAt_stepAct rfl,
      slotAt_stepAct rfl]
  have ok : ∀ b, b = ((linesAfter 6 s).1 && !(slotAt s 5).expire) →
      b = ((environment s5).hrdy && !(nextSlot s5).expire) := by
    intro b hb
    rw [hb, hl, hx, linesAfter_one, environment_hrdy]
  have h5 : sequencerEvents s5.trace = sequencerEvents s.trace ++
      [Event.sigResetN false, .delay .resetLow, .sigResetN true, .delay .postReset] := by
    have e1 : sequencerEvents s1.trace = sequencerEvents s.trace := (stepAct_silent (a := .beginReset) rfl s).1
    have e2 : sequencerEvents s2.trace = sequencerEvents s1.trace ++ [Event.sigResetN false] := by
      simp [s2, stepAct, perform, sequencerEvents]
    have e3 : sequencerEvents s3.trace = sequencerEvents s2.trace ++ [Event.delay .resetLow] := by
      simp [s3, stepAct, perform, sequencerEvents]
    have e4 : sequencerEvents s4.trace = sequencerEvents s3.trace ++ [Event.sigResetN true] := by
      simp [s4, stepAct, perform, sequencerEvents]
    have e5 : sequencerEvents s5.trace = sequencerEvents s4.trace ++ [Event.delay .postReset] := by
      simp [s5, stepAct, perform, sequencerEvents]
    rw [e5, e4, e3, e2, e1]
    simp
  have ht : sequencerEvents (stepAct 0x00 .startupWait s5).trace = sequencerEvents s5.trace ++
      (if (environment s5).hrdy && !(nextSlot s5).expire then [] else [Event.timeout .reset]) := by
    cases h : ((environment s5).hrdy && !(nextSlot s5).expire) <;>
      simp only [stepAct, perform, h, sequencerEvents_append, environment_trace, sequencerEvents_edges] <;> simp [sequencerEvents]
  have hm : (stepAct 0x00 .startupWait s5).tmo = if (environment s5).hrdy && !(nextSlot s5).expire then s5.tmo else s5.tmo + 1 := rfl
  have keep : ∀ (u v : State) (b : Bool), v.resetN = b → Kept { u with resetN := b } v →
      ∀ z : State, SameBlock z u → SameBlock { z with resetN := b } v := fun u v b h k z e =>
    ⟨h, k.info.trans e.info, k.infoValid.trans e.infoValid, k.configured.trans e.configured, k.rma.trans e.rma,
      k.asleep.trans e.asleep, k.faults.trans e.faults, k.params.trans e.params, k.requests.trans e.requests⟩
  have b1 : SameBlock { s with infoValid := false, configured := false, asleep := false, rma := true, info := none } s1 :=
    ⟨rfl, rfl, rfl, rfl, rfl, rfl, rfl, rfl, rfl⟩
  have b2 := keep s1 s2 false rfl ⟨rfl, rfl, rfl, rfl, rfl, rfl, rfl, rfl, rfl, rfl, rfl⟩ _ b1
  have b3 := b2.trans (stepAct_kept (.inr (.inr (.inr ⟨.resetLow, rfl⟩))) s2).sameBlock
  have b4 := keep s3 s4 true rfl ⟨rfl, rfl, rfl, rfl, rfl, rfl, rfl, rfl, rfl, rfl, rfl⟩ _ b3
  have b5 := b4.trans (stepAct_kept (.inr (.inr (.inr ⟨.postReset, rfl⟩))) s4).sameBlock
  have b6 : SameBlock s5 (stepAct 0x00 .startupWait s5) := ⟨rfl, rfl, rfl, rfl, rfl, rfl, rfl, rfl, rfl⟩
  have hk : SameBlock (resetBlock s) (stepAct 0x00 .startupWait s5) := b5.trans b6
  have t5 : s5.tmo = s.tmo := by
    have t1 : s1.tmo = s.tmo := rfl
    have t2 : s2.tmo = s1.tmo := rfl
    have t3 : s3.tmo = s2.tmo := rfl
    have t4 : s4.tmo = s3.tmo := rfl
    exact ((rfl : s5.tmo = s4.tmo).trans t4).trans (t3.trans (t2.trans t1))
  cases hb : ((linesAfter 6 s).1 && !(slotAt s 5).expire) with
  | true =>
    have h := (ok true hb.symm).symm
    refine ⟨[], .inl rfl, ⟨fun _ => ?_, fun _ => rfl⟩, ?_, ?_, hk⟩
    · simpa using hb
    · rw [ht, h5, h]; simp [resetEvents]
    · rw [hm, h, t5]; simp
  | false =>
    have h := (ok false hb.symm).symm
    refine ⟨[Event.timeout .reset], .inr rfl, ⟨fun h => absurd h (by simp), fun h => ?_⟩, ?_, ?_, hk⟩
    · rw [h.1, h.2] at hb; exact absurd hb.symm Bool.false_ne_true
    · rw [ht, h5, h]; simp [resetEvents]
    · rw [hm, h, t5]; rfl

theorem hwresetBody_quiet : ∀ a ∈ hwresetBody, a.quiet = true := List.all_eq_true.1 rfl

/-- HWRESET as a whole. -/
theorem run_hwreset (s : State) :
    ∃ w t, ticks (hwresetBody ++ [Act.finish .none]).length
        (load Instr.hwreset.opc (hwresetBody ++ [Act.finish .none]) (accept .hwreset s)) = t ∧
      (w = [] ∨ w = [Event.timeout .reset]) ∧
      (w = [] ↔ (linesAfter 6 s).1 = true ∧ (slotAt s 5).expire = false) ∧
      Ran .hwreset s t (resetEvents w) ∧ t.answers .none ∧ SameBlock (resetBlock s) t := by
  obtain ⟨w, hw, h1, he, hm, hb⟩ := afterReset_effect (accept .hwreset s)
  rw [linesAfter_accept, slotAt_accept] at h1
  have ht : ticks (hwresetBody ++ [Act.finish .none]).length
      (load Instr.hwreset.opc (hwresetBody ++ [Act.finish .none]) (accept .hwreset s)) =
        stepAct 0x06 (.finish .none) (load 0x06 [] (afterReset (accept .hwreset s))) :=
    (ticks_hwreset 1 0x06 [Act.finish .none] (accept .hwreset s)).trans (ticks_finish 0x06 .none _)
  rw [ht]
  generalize afterReset (accept .hwreset s) = u at he hm hb
  obtain ⟨f1, f2, f3, _, f5, f6⟩ := finish_effect 0x06 .none (load 0x06 [] u)
  refine ⟨w, _, rfl, hw, h1, ⟨?_, ?_, f3⟩, f5, ?_⟩
  · rw [f1, load_trace, he]
    simp [sequencerEvents]
  · rw [f2, load_tmo, hm, accept_tmo]
    rcases hw with rfl | rfl <;> rfl
  · exact (((resetBlock_sameBlock (accept_sameBlock .hwreset s)).trans hb).trans (load_sameBlock 0x06 [] u)).trans f6

end Sys2Proof.Machine
end

