-- ==== Sys2Proof/Laws/Init.lean ====
section
/-! SUPPORT. The legs that read or write DeviceInfo (42_protocol.md R201, R240; 20_memory.md R75): inside QINFO and INIT their
guards never fire, and QINFO and INIT as a whole. -/

namespace Sys2Proof.Machine

/-! ### The legs that touch DeviceInfo -/

/-- A received READ frame of 22 words is a reply. -/
theorem deviceInfoOf_some {l : List Word} (h : l.length = 22) :
    ∃ d, deviceInfoOf l = some d ∧ (l.drop 2).length = 20 ∧ d.panelW = (l.drop 2).getD 0 0 ∧
      d.panelH = (l.drop 2).getD 1 0 ∧ d.imgAddr = imgAddrOf ((l.drop 2).getD 2 0) ((l.drop 2).getD 3 0) ∧
      d.fwv.toList = ((l.drop 2).drop 4).take 8 ∧ d.lutv.toList = (l.drop 2).drop 12 := by
  match l, h with
  | [_, _, r0, r1, r2, r3, r4, r5, r6, r7, r8, r9, r10, r11, r12, r13, r14, r15, r16, r17, r18, r19], _ =>
    exact ⟨_, rfl, rfl, rfl, rfl, rfl, rfl, rfl⟩

/-- Low word first (R75). -/
theorem imgAddrOf_toNat (lo hi : Word) : (imgAddrOf lo hi).toNat = lo.toNat + 65536 * hi.toNat := by
  have hl := lo.isLt
  have hh := hi.isLt
  simp only [imgAddrOf, BitVec.truncate_eq_setWidth, BitVec.toNat_or, BitVec.toNat_shiftLeft, BitVec.toNat_setWidth]
  rw [Nat.mod_eq_of_lt (show lo.toNat < 2 ^ 32 by omega), Nat.mod_eq_of_lt (show hi.toNat < 2 ^ 32 by omega),
    Nat.mod_eq_of_lt (show hi.toNat <<< 16 < 2 ^ 32 by rw [Nat.shiftLeft_eq]; omega), Nat.or_comm,
    ← Nat.shiftLeft_add_eq_or_of_lt hl, Nat.shiftLeft_eq]
  omega

/-- The DeviceInfo writes of the QINFO body. -/
def storeTo (d : DeviceInfo) (s : State) : State := { environment s with info := some d, infoValid := true }

theorem stepAct_storeInfo {d : DeviceInfo} {s : State} (h : deviceInfoOf s.rdata = some d) (opc : Byte)
    (rest : List Act) : stepAct opc .storeInfo (load opc rest s) = load opc rest (storeTo d s) := by
  have hr : (environment (load opc rest s)).rdata = s.rdata := rfl
  simp only [stepAct, perform, hr, h]
  rfl

theorem stepAct_xferBase {d : DeviceInfo} {s : State} (h : s.readInfo = some d) (opc : Byte) (high : Bool)
    (rest : List Act) :
    stepAct opc (.xferBase high) (load opc rest s) =
      load opc rest (stepAct 0x00 (.xfer [Config.preData, addrHalf high d.imgAddr]) s) := by
  have hr : (environment (load opc rest s)).readInfo = some d := h
  simp only [stepAct, perform, hr]
  rfl

/-- A gated half of the base address. -/
theorem ticks_base {d : DeviceInfo} {s : State} (h : s.readInfo = some d) (n : Nat) (opc : Byte) (high : Bool)
    (rest : List Act) :
    ticks (n + 3) (load opc (gated (.xferBase high) ++ rest) s) =
      ticks n (load opc rest (gx (.xfer [Config.preData, addrHalf high d.imgAddr]) s)) := by
  have hp : (stepAct 0x00 .prime s).readInfo = some d := h
  show ticks (n + 2 + 1) (load opc (.prime :: .xferBase high :: .await :: rest) s) = _
  rw [ticks_straight (n + 2) _ .prime _ _ rfl]
  show ticks (n + 1 + 1) _ = _
  rw [ticks_load_cons, stepAct_xferBase hp, ticks_straight n _ .await _ _ rfl]
  rfl

theorem readInfo_of_kept {s t : State} (k : Kept s t) : t.readInfo = s.readInfo := by
  simp only [State.readInfo, k.info, k.infoValid]

theorem storeTo_readInfo (d : DeviceInfo) (s : State) : (storeTo d s).readInfo = some d := rfl

/-! ### The bodies -/

/-- The transactions of the QINFO body. -/
def qinfoFrames (p : Params) : List (List Word) := [[Config.preCmd, p.cmdGetDevInfo], readFrame p Config.infoWords]

theorem readFrame_ne_nil (p : Params) (n : Nat) : readFrame p n ≠ [] := List.cons_ne_nil _ _

theorem qinfoFrames_ne (p : Params) : qinfoFrames p ≠ [] := List.cons_ne_nil _ _

theorem qinfoFrames_ne_nil (p : Params) : ∀ f ∈ qinfoFrames p, f ≠ [] := by
  intro f hf
  simp only [qinfoFrames, List.mem_cons, List.not_mem_nil, or_false] at hf
  rcases hf with rfl | rfl
  · exact List.cons_ne_nil _ _
  · exact readFrame_ne_nil _ _

/-- Gated transactions, the last of `f`: as many words are received last as `f` has. -/
theorem Gated.last_length {fs : List (List Word)} {f : List Word} {hs : List Event} (g : Gated (fs ++ [f]) hs) :
    (lastReceived hs).length = f.length := by
  obtain ⟨h1, h2⟩ := g.frames
  have hne : framesOf hs ≠ [] := by
    intro h
    rw [h] at h1
    exact absurd h1.symm (by simp)
  have hl := List.getLast?_eq_some_getLast hne
  have hq := h2 _ (List.getLast_mem hne)
  have hf : ((framesOf hs).getLast hne).1 = f := by
    have hm := congrArg List.getLast? h1
    rw [List.getLast?_map, hl] at hm
    simpa using hm
  simp only [lastReceived, hl, Option.map_some, Option.getD_some]
  rw [hq, hf]

/-- The QINFO body from any position (R201). -/
theorem ticks_qinfo (n : Nat) (opc : Byte) (rest : List Act) (p : Params) (s : State) :
    ∃ d, deviceInfoOf (gxs (qinfoFrames p) s).rdata = some d ∧
      ticks (n + 7) (load opc (qinfoBody p ++ rest) s) =
        ticks n (load opc rest (storeTo d (gxs (qinfoFrames p) s))) := by
  obtain ⟨hs, g, _, _, hr⟩ := gxs_effect (qinfoFrames p) (qinfoFrames_ne_nil p) s
  have hr' : (gxs (qinfoFrames p) s).rdata = lastReceived hs := by rw [hr, if_neg (qinfoFrames_ne p)]
  have hl : (gxs (qinfoFrames p) s).rdata.length = 22 := by
    rw [hr', Gated.last_length (fs := [[Config.preCmd, p.cmdGetDevInfo]]) (f := readFrame p Config.infoWords) g]
    simp [readFrame, Config.infoWords]
  obtain ⟨d, hd, _⟩ := deviceInfoOf_some hl
  refine ⟨d, hd, ?_⟩
  have e : qinfoBody p ++ rest = gatedAll (qinfoFrames p) ++ (.storeInfo :: rest) := by
    simp [qinfoBody, cmdArgs, cmdActs, readActs, gatedAll, qinfoFrames]
  rw [e, show n + 7 = 3 * (qinfoFrames p).length + (n + 1) from by simp [qinfoFrames]; omega, ticks_gatedAll,
    ticks_load_cons, stepAct_storeInfo hd]

theorem storeTo_effect (d : DeviceInfo) (s : State) :
    sequencerEvents (storeTo d s).trace = sequencerEvents s.trace ∧ (storeTo d s).tmo = s.tmo ∧
      (storeTo d s).rdata = s.rdata := ⟨by simp [storeTo], rfl, rfl⟩

/-- DeviceInfo as QINFO leaves it. -/
def infoBlock (d : DeviceInfo) (s : State) : State := { s with info := some d, infoValid := true }

theorem storeTo_sameBlock (d : DeviceInfo) {b s : State} (e : SameBlock b s) : SameBlock (infoBlock d b) (storeTo d s) :=
  ⟨e.resetN, rfl, rfl, e.configured, e.rma, e.asleep, e.faults, e.params, e.requests⟩

theorem ticks_last (opc : Byte) (r : ResultSpec) (s : State) :
    ticks 1 (load opc [Act.finish r] s) = stepAct opc (.finish r) (load opc [] s) := rfl

/-- QINFO as a whole. -/
theorem run_qinfo (s : State) :
    ∃ hs d t, ticks (qinfoBody s.params ++ [Act.finish .deviceInfo]).length
        (load Instr.qinfo.opc (qinfoBody s.params ++ [Act.finish .deviceInfo]) (accept .qinfo s)) = t ∧
      Gated (qinfoFrames s.params) hs ∧ Ran .qinfo s t hs ∧ deviceInfoOf (lastReceived hs) = some d ∧
      t.answers (.info d.panelW d.panelH d.imgAddr d.fwv.chars d.lutv.chars) ∧ SameBlock (infoBlock d s) t := by
  obtain ⟨d, hd, ht⟩ := ticks_qinfo 1 Instr.qinfo.opc [Act.finish .deviceInfo] s.params (accept .qinfo s)
  obtain ⟨hs, g, he, hm, hr⟩ := gxs_effect (qinfoFrames s.params) (qinfoFrames_ne_nil _) (accept .qinfo s)
  rw [if_neg (qinfoFrames_ne _)] at hr
  have hk := (accept_sameBlock .qinfo s).trans (gxs_kept (qinfoFrames s.params) (accept .qinfo s)).sameBlock
  generalize gxs (qinfoFrames s.params) (accept .qinfo s) = u at *
  obtain ⟨s1, s2, s3⟩ := storeTo_effect d u
  have sb := storeTo_sameBlock d hk
  have si : (storeTo d u).info = some d := rfl
  rw [ticks_last] at ht
  generalize storeTo d u = v at *
  obtain ⟨f1, f2, f3, _, f5, f6⟩ := finish_effect Instr.qinfo.opc .deviceInfo (load Instr.qinfo.opc [] v)
  refine ⟨hs, d, _, ht, g, ⟨?_, ?_, ?_⟩, by rw [← hr]; exact hd, ?_, ?_⟩
  · rw [f1, load_trace, s1, he]; simp [sequencerEvents]
  · rw [f2, load_tmo, s2, hm, accept_tmo]
  · exact f3
  · have : resultOf (load Instr.qinfo.opc [] v) .deviceInfo =
        .info d.panelW d.panelH d.imgAddr d.fwv.chars d.lutv.chars := by simp only [resultOf, load_info, si]
    rw [this] at f5
    exact f5
  · exact (sb.trans (load_sameBlock _ _ _)).trans f6

/-- The transactions of INIT after DeviceInfo is stored (R240): SETBASE, ENPACKED, SETVCOM. -/
def setupFrames (p : Params) (vcom : Rat) (d : DeviceInfo) : List (List Word) :=
  [[Config.preCmd, p.cmdRegWr], [Config.preData, p.regLisarH], [Config.preData, addrHalf true d.imgAddr],
   [Config.preCmd, p.cmdRegWr], [Config.preData, p.regLisarL], [Config.preData, addrHalf false d.imgAddr],
   [Config.preCmd, p.cmdRegWr], [Config.preData, p.regI80cpcr], [Config.preData, p.packedOn],
   [Config.preCmd, p.cmdVcom], [Config.preData, p.vcomSet], [Config.preData, vcomWord vcom]]

/-- SETBASE from any position where DeviceInfo holds a value. -/
theorem ticks_setBase {d : DeviceInfo} {s : State} (h : s.readInfo = some d) (n : Nat) (opc : Byte) (rest : List Act)
    (p : Params) :
    ticks (n + 18) (load opc (setBaseActs p ++ rest) s) =
      ticks n (load opc rest (gxs [[Config.preCmd, p.cmdRegWr], [Config.preData, p.regLisarH],
        [Config.preData, addrHalf true d.imgAddr], [Config.preCmd, p.cmdRegWr], [Config.preData, p.regLisarL],
        [Config.preData, addrHalf false d.imgAddr]] s)) := by
  have e : setBaseActs p ++ rest =
      gatedAll [[Config.preCmd, p.cmdRegWr], [Config.preData, p.regLisarH]] ++ (gated (.xferBase true) ++
        (gatedAll [[Config.preCmd, p.cmdRegWr], [Config.preData, p.regLisarL]] ++ (gated (.xferBase false) ++ rest))) := by
    simp [setBaseActs, cmdArgs, cmdActs, argActs, gatedAll]
  have h1 : (gxs [[Config.preCmd, p.cmdRegWr], [Config.preData, p.regLisarH]] s).readInfo = some d := by
    rw [readInfo_of_kept (gxs_kept _ _), h]
  rw [e, show n + 18 = 3 * [[Config.preCmd, p.cmdRegWr], [Config.preData, p.regLisarH]].length + (n + 9 + 3) from
      by simp only [List.length_cons, List.length_nil]; omega,
    ticks_gatedAll, ticks_base h1]
  have h2 : (gx (.xfer [Config.preData, addrHalf true d.imgAddr])
      (gxs [[Config.preCmd, p.cmdRegWr], [Config.preData, p.regLisarH]] s)).readInfo = some d := by
    rw [readInfo_of_kept (gx_kept _ _), h1]
  have h3 : (gxs [[Config.preCmd, p.cmdRegWr], [Config.preData, p.regLisarL]]
      (gx (.xfer [Config.preData, addrHalf true d.imgAddr])
        (gxs [[Config.preCmd, p.cmdRegWr], [Config.preData, p.regLisarH]] s))).readInfo = some d := by
    rw [readInfo_of_kept (gxs_kept _ _), h2]
  rw [show n + 9 = 3 * [[Config.preCmd, p.cmdRegWr], [Config.preData, p.regLisarL]].length + (n + 3) from by
      simp only [List.length_cons, List.length_nil]; omega,
    ticks_gatedAll, ticks_base h3]
  rfl

/-- The last six transactions of INIT. -/
def lastFrames (p : Params) (vcom : Rat) : List (List Word) :=
  [[Config.preCmd, p.cmdRegWr], [Config.preData, p.regI80cpcr], [Config.preData, p.packedOn],
   [Config.preCmd, p.cmdVcom], [Config.preData, p.vcomSet], [Config.preData, vcomWord vcom]]

/-- INIT's legs in the pieces the lemmas above run. -/
theorem initActs_eq (p : Params) (vcom : Rat) :
    initActs p vcom =
      hwresetBody ++ (gated (.xfer [Config.preCmd, p.cmdSysRun]) ++ (qinfoBody p ++ (setBaseActs p ++
        (gatedAll (lastFrames p vcom) ++ [Act.setConfigured, .finish .none])))) := by
  simp [initActs, enPackedActs, wrregActs, setvcomBody, cmdArgs, cmdActs, argActs, gatedAll, lastFrames]

theorem initActs_length (p : Params) (vcom : Rat) : (initActs p vcom).length = 2 + 18 + 18 + 7 + 3 + 6 := by
  simp [initActs, hwresetBody, cmdArgs, cmdActs, argActs, gated, qinfoBody, readActs, setBaseActs, enPackedActs,
    wrregActs, setvcomBody]

/-- From where DeviceInfo is stored, INIT sends the rest of its frames. -/
theorem ticks_setup {d : DeviceInfo} {s : State} (h : s.readInfo = some d) (n : Nat) (opc : Byte) (rest : List Act)
    (p : Params) (vcom : Rat) :
    ticks (n + 18 + 18) (load opc (setBaseActs p ++ (gatedAll (lastFrames p vcom) ++ rest)) s) =
      ticks n (load opc rest (gxs (setupFrames p vcom d) s)) := by
  rw [ticks_setBase h, show n + 18 = 3 * (lastFrames p vcom).length + n from by
    simp only [lastFrames, List.length_cons, List.length_nil]; omega, ticks_gatedAll, ← gxs_append]
  rfl

theorem ticks_init_end (opc : Byte) (s : State) :
    ticks 2 (load opc [Act.setConfigured, .finish .none] s) =
      stepAct opc (.finish .none) (load opc [] (stepAct 0x00 .setConfigured s)) := by
  rw [ticks_straight 1 _ _ _ _ rfl]
  rfl

/-- What INIT leaves in the block (R240). -/
def initBlock (d : DeviceInfo) (s : State) : State := { infoBlock d (resetBlock s) with configured := true }

theorem setupFrames_ne_nil (p : Params) (vcom : Rat) (d : DeviceInfo) : ∀ f ∈ setupFrames p vcom d, f ≠ [] := by
  intro f hf
  simp only [setupFrames, List.mem_cons, List.not_mem_nil, or_false] at hf
  rcases hf with rfl | rfl | rfl | rfl | rfl | rfl | rfl | rfl | rfl | rfl | rfl | rfl <;> exact List.cons_ne_nil _ _

/-- INIT's transactions up to DeviceInfo. -/
def firstFrames (p : Params) : List (List Word) := [Config.preCmd, p.cmdSysRun] :: qinfoFrames p

theorem firstFrames_ne_nil (p : Params) : ∀ f ∈ firstFrames p, f ≠ [] := by
  intro f hf
  rcases List.mem_cons.1 hf with rfl | hf
  · exact List.cons_ne_nil _ _
  · exact qinfoFrames_ne_nil p f hf

/-- INIT from its first transaction on. -/
theorem ticks_afterReset (opc : Byte) (p : Params) (vcom : Rat) (s : State) :
    ∃ d, deviceInfoOf (gxs (firstFrames p) s).rdata = some d ∧
      ticks (2 + 18 + 18 + 7 + 3) (load opc (gated (.xfer [Config.preCmd, p.cmdSysRun]) ++ (qinfoBody p ++
          (setBaseActs p ++ (gatedAll (lastFrames p vcom) ++ [Act.setConfigured, .finish .none])))) s) =
        stepAct opc (.finish .none) (load opc [] (stepAct 0x00 .setConfigured
          (gxs (setupFrames p vcom d) (storeTo d (gxs (firstFrames p) s))))) := by
  rw [ticks_gated _ _ _ _ _ rfl, firstFrames, gxs_cons]
  obtain ⟨d, hd, ht⟩ := ticks_qinfo (2 + 18 + 18) opc (setBaseActs p ++ (gatedAll (lastFrames p vcom) ++
    [Act.setConfigured, .finish .none])) p (gx (.xfer [Config.preCmd, p.cmdSysRun]) s)
  refine ⟨d, hd, ?_⟩
  rw [ht, ticks_setup (storeTo_readInfo d _), ticks_init_end]

/-- INIT as a whole. -/
theorem run_init (vcom : Rat) (s : State) :
    ∃ w hs ks d t, ticks (initActs s.params vcom).length
        (load (Instr.init vcom).opc (initActs s.params vcom) (accept (.init vcom) s)) = t ∧
      (w = [] ∨ w = [Event.timeout .reset]) ∧ Gated (firstFrames s.params) hs ∧ Gated (setupFrames s.params vcom d) ks ∧
      deviceInfoOf (lastReceived hs) = some d ∧ Ran (.init vcom) s t (resetEvents w ++ (hs ++ ks)) ∧ t.answers .none ∧
      SameBlock (initBlock d s) t := by
  obtain ⟨w, hw, _, he1, hm1, hb1⟩ := afterReset_effect (accept (.init vcom) s)
  have hb1 := (resetBlock_sameBlock (accept_sameBlock (.init vcom) s)).trans hb1
  rw [initActs_length, initActs_eq, ticks_hwreset]
  generalize afterReset (accept (.init vcom) s) = u1 at *
  generalize (Instr.init vcom).opc = o
  obtain ⟨d, hd, ht⟩ := ticks_afterReset o s.params vcom u1
  obtain ⟨hs, g, he2, hm2, hr2⟩ := gxs_effect (firstFrames s.params) (firstFrames_ne_nil _) u1
  have hk2 := hb1.trans (gxs_kept (firstFrames s.params) u1).sameBlock
  rw [if_neg (show firstFrames s.params ≠ [] from List.cons_ne_nil _ _)] at hr2
  generalize gxs (firstFrames s.params) u1 = u2 at *
  obtain ⟨s1, s2, _⟩ := storeTo_effect d u2
  have sb := storeTo_sameBlock d hk2
  generalize storeTo d u2 = u3 at *
  obtain ⟨ks, gk, he4, hm4, _⟩ := gxs_effect (setupFrames s.params vcom d) (setupFrames_ne_nil s.params vcom d) u3
  have hk4 := sb.trans (gxs_kept (setupFrames s.params vcom d) u3).sameBlock
  generalize gxs (setupFrames s.params vcom d) u3 = u4 at *
  obtain ⟨c1, c2, _, _, _, c6⟩ := stepAct_silent (a := .setConfigured) rfl u4
  have cb := (flagEffect_sameBlock (a := .setConfigured) rfl hk4).trans c6
  generalize stepAct 0x00 .setConfigured u4 = u5 at *
  obtain ⟨f1, f2, f3, _, f5, f6⟩ := finish_effect o .none (load o [] u5)
  refine ⟨w, hs, ks, d, _, ht, hw, g, gk, by rw [← hr2]; exact hd, ⟨?_, ?_, f3⟩, f5, ?_⟩
  · rw [f1, load_trace, c1, he4, s1, he2, he1]
    simp [sequencerEvents]
  · rw [f2, load_tmo, c2, hm4, s2, hm2, hm1, accept_tmo]
    have hz : timeoutsOf (resetEvents w) = timeoutsOf w := by
      rcases hw with rfl | rfl <;> rfl
    rw [timeoutsOf_append, timeoutsOf_append, hz, BitVec.ofNat_add, BitVec.ofNat_add, BitVec.add_assoc, BitVec.add_assoc]
  · exact (cb.trans (load_sameBlock o [] u5)).trans f6

end Sys2Proof.Machine
end

