-- ==== Sys2Proof/Laws/Poll.lean ====
section
/-! SUPPORT. WAITDPY's poll loop (42_protocol.md R232): the test of the status word, and the legs of a poll as transactions. -/

namespace Sys2Proof.Machine

/-- The transactions of one poll (R210, R232). -/
def statusFrames (p : Params) : List (List Word) :=
  [[Config.preCmd, p.cmdRegRd], [Config.preData, p.regStatus], [Config.preRead, p.dummy, p.dummy]]

theorem pollActs_eq (p : Params) : pollActs p = gatedAll (statusFrames p) ++ [Act.pollCheck, .finish .none] := rfl

theorem statusFrames_ne_nil (p : Params) : ∀ f ∈ statusFrames p, f ≠ [] := by
  intro f hf
  simp only [statusFrames, List.mem_cons, List.not_mem_nil, or_false] at hf
  rcases hf with rfl | rfl | rfl <;> exact List.cons_ne_nil _ _

/-- A zero status clears RMA and goes on to the end. -/
theorem pollCheck_zero {s : State} (h : s.rdata[2]? = some 0) (opc : Byte) (rest : List Act) :
    stepAct opc .pollCheck (load opc rest s) = load opc rest (stepAct 0x00 (.setRma false) s) := by
  have hr : (environment (load opc rest s)).rdata[2]? = some 0 := h
  simp only [stepAct, perform, hr, if_true]
  rfl

/-- Any other status goes round the loop. -/
theorem pollCheck_nonzero {s : State} (h : s.rdata[2]? ≠ some 0) (opc : Byte) (rest : List Act) :
    stepAct opc .pollCheck (load opc rest s) = load opc (.delay .poll :: pollActs s.params) (environment s) := by
  have hr : ¬((environment (load opc rest s)).rdata[2]? = some 0) := h
  simp only [stepAct, perform, if_neg hr]
  rfl

/-- The last two steps of a poll that reads zero. -/
theorem poll_ends {s : State} (h : s.rdata[2]? = some 0) (opc : Byte) :
    ticks 2 (load opc [Act.pollCheck, .finish .none] s) =
      stepAct opc (.finish .none) (load opc [] (stepAct 0x00 (.setRma false) s)) := by
  rw [ticks_load_cons 1, pollCheck_zero h]
  rfl

/-- The last two steps of a poll that reads anything else. -/
theorem poll_goes_round {s : State} (h : s.rdata[2]? ≠ some 0) (opc : Byte) :
    ticks 2 (load opc [Act.pollCheck, .finish .none] s) =
      load opc (pollActs s.params) (stepAct 0x00 (.delay .poll) (environment s)) := by
  rw [ticks_load_cons 1, pollCheck_nonzero h, ticks_straight 0 _ _ _ _ rfl]
  rfl

theorem delay_effect (d : DelayName) (s : State) :
    sequencerEvents (stepAct 0x00 (.delay d) s).trace = sequencerEvents s.trace ++ [Event.delay d] ∧
      (stepAct 0x00 (.delay d) s).tmo = s.tmo ∧ (stepAct 0x00 (.delay d) s).rdata = s.rdata ∧
      Kept s (stepAct 0x00 (.delay d) s) := by
  refine ⟨?_, rfl, rfl, stepAct_kept (.inr (.inr (.inr ⟨d, rfl⟩))) s⟩
  simp [stepAct, perform, sequencerEvents]

end Sys2Proof.Machine
end

