-- ==== Sys2Proof/Laws/Step.lean ====
section
/-! SUPPORT. A step of a BUSY block at a gated transaction: what is decoded is what is sent (30_encoding.md R103, R106), so the
step is that transaction. -/

namespace Sys2Proof.Machine

/-- A code of the command table is sent by the command it is decoded to. -/
theorem exec_decoded_command {p : Params} {code : Word} {i : Instr} (h : decodeCommand p code = .ok i) {u : State}
    (hu : u.params = p) : exec i u = runWire (.xfer [Config.preCmd, code]) u := by
  subst hu
  unfold decodeCommand at h
  split at h
  · next e he =>
    have hi : e.2 = i := by injection h
    have hc : e.1 = code := by simpa using List.find?_some he
    have hm := List.mem_of_find?_eq_some he
    subst hc hi
    simp only [commandTable, List.mem_cons, List.not_mem_nil, or_false] at hm
    rcases hm with rfl | rfl | rfl | rfl | rfl | rfl | rfl | rfl | rfl | rfl <;> rfl
  · exact absurd h (by simp)

/-- What a frame decodes to sends that frame. -/
theorem exec_decoded_frame {p : Params} {ws : List Word} {i : Instr} (h : decodeWire p (.frame ws) = .ok i) {u : State}
    (hu : u.params = p) : exec i u = runWire (.xfer ws) u := by
  change decodeFrame p ws = .ok i at h
  cases ws with
  | nil => exact absurd h (by simp [decodeFrame])
  | cons w rest =>
    simp only [decodeFrame] at h
    split at h
    · next hw =>
      subst hw
      match rest, h with
      | [code], h => exact exec_decoded_command h hu
      | [], h => exact absurd h (by simp [decodeCmdRest])
      | _ :: _ :: _, h => exact absurd h (by simp [decodeCmdRest])
    · split at h
      · next hw =>
        subst hw
        match rest, h with
        | [], h => exact absurd h (by simp [decodeDataRest])
        | d :: ds, h =>
          obtain rfl : Instr.frameData (d :: ds) = i := by injection h
          rfl
      · split at h
        · next hw =>
          subst hw
          match rest, h with
          | [], h => exact absurd h (by simp [decodeReadRest])
          | d :: ds, h =>
            simp only [decodeReadRest] at h
            split at h
            · next hd =>
              obtain rfl : Instr.frameRead ds.length = i := by injection h
              have hr : readFrame u.params ds.length = Config.preRead :: d :: ds := by
                rw [readFrame, hu]
                congr 1
                have := List.eq_replicate_of_mem (a := p.dummy) (l := d :: ds) fun b hb => by
                  simpa using List.all_eq_true.1 hd b hb
                rw [this]
                simp
              show runWire (.xfer (readFrame u.params ds.length)) u = _
              rw [hr]
            · exact absurd h (by simp)
        · exact absurd h (by simp)

/-- The fields of a word whose reserved bits are zero make the word again (R106); no bit of it is dropped. -/
theorem loadArgWord_fields (w : Word) :
    loadArgWord (w.extractLsb' 8 8) (w.extractLsb' 4 4) (w.extractLsb' 0 4) = w := by
  ext i hi
  simp only [loadArgWord, BitVec.truncate_eq_setWidth, BitVec.getElem_or, BitVec.getElem_shiftLeft,
    BitVec.getLsbD_extractLsb', BitVec.getElem_setWidth]
  rw [← BitVec.getLsbD_eq_getElem]
  by_cases h4 : i < 4
  · have h8 : i < 8 := by omega
    simp [h4, h8]
  · by_cases h8 : i < 8
    · have : i - 4 < 4 := by omega
      have e : 4 + (i - 4) = i := by omega
      simp [h4, h8, this, e]
    · have : ¬(i - 4 < 4) := by omega
      have h88 : i - 8 < 8 := by omega
      have e : 8 + (i - 8) = i := by omega
      simp [h4, h8, this, h88, e]

/-- What a load argument decodes to sends that word. -/
theorem exec_decoded_loadArg {p : Params} {w : Word} {i : Instr} (h : decodeWire p (.loadArg w) = .ok i) (u : State) :
    exec i u = runWire (.xferArg w) u := by
  change decodeLoadArg w = .ok i at h
  unfold decodeLoadArg at h
  split at h
  · obtain rfl : Instr.ldarg (w.extractLsb' 8 8) (w.extractLsb' 4 4) (w.extractLsb' 0 4) = i := by injection h
    show runWire (.xferArg (loadArgWord _ _ _)) u = _
    rw [loadArgWord_fields]
  · exact absurd h (by simp)

/-- A step at a gated frame that decodes is that transaction. -/
theorem step_gated {s : State} {opc : Byte} {ws : List Word} {rest : List Act} {i : Instr}
    (h : s.seq = .busy opc (gated (.xfer ws) ++ rest)) (hd : decodeWire s.params (.frame ws) = .ok i) :
    step s = .next (gx (.xfer ws) (load opc rest s)) := by
  have e : step s = exec i (load opc rest s) := by simp [step, h, gated, fetchUnit, hd, load]
  rw [e, exec_decoded_frame hd (u := load opc rest s) rfl]
  exact runWire_go (by simp)

/-- Every CMD frame of a table code decodes, whichever command has the code. -/
theorem decode_cmd_frame {p : Params} {code : Word} {i : Instr} (h : (code, i) ∈ commandTable p) :
    ∃ j, decodeWire p (.frame [Config.preCmd, code]) = .ok j := by
  have hs : ((commandTable p).find? fun e => e.1 == code).isSome = true :=
    List.find?_isSome.2 ⟨(code, i), h, by simp⟩
  obtain ⟨e, he⟩ := Option.isSome_iff_exists.1 hs
  refine ⟨e.2, ?_⟩
  show decodeFrame p [Config.preCmd, code] = _
  simp only [decodeFrame, if_true, decodeCmdRest, decodeCommand, he]

/-- A step at a gated frame of at least the preamble, from a position given by `load`. -/
theorem step_load_gated {s : State} {opc : Byte} {ws : List Word} {rest : List Act} {i : Instr}
    (hd : decodeWire s.params (.frame ws) = .ok i) :
    step (load opc (gated (.xfer ws) ++ rest) s) = .next (load opc rest (gx (.xfer ws) s)) := by
  rw [step_gated (s := load opc (gated (.xfer ws) ++ rest) s) rfl hd, ← gx_load _ _ _ _ rfl]
  rfl

theorem decode_read_frame (p : Params) (n : Nat) : decodeWire p (.frame (readFrame p n)) = .ok (.frameRead n) := by
  have h1 : (Config.preRead = Config.preCmd) = False := by decide
  have h2 : (Config.preRead = Config.preData) = False := by decide
  change decodeFrame p (Config.preRead :: List.replicate (n + 1) p.dummy) = _
  simp only [decodeFrame, h1, h2, if_false, if_true, List.replicate_succ, decodeReadRest]
  simp

/-- The poll's transactions, one step each. -/
theorem steps_poll {s : State} (h : s.seq = .busy 0x28 (pollActs s.params)) :
    ∃ u v, step s = .next u ∧ step u = .next v ∧
      step v = .next (load 0x28 [Act.pollCheck, .finish .none] (gxs (statusFrames s.params) s)) := by
  obtain ⟨i, hi⟩ := decode_cmd_frame (p := s.params) (code := s.params.cmdRegRd) (i := .cmdRegRd) (by simp [commandTable])
  let tail2 := gated (.xfer [Config.preRead, s.params.dummy, s.params.dummy]) ++ [Act.pollCheck, .finish .none]
  let tail1 := gated (.xfer [Config.preData, s.params.regStatus]) ++ tail2
  let a := gx (.xfer [Config.preCmd, s.params.cmdRegRd]) s
  let b := gx (.xfer [Config.preData, s.params.regStatus]) a
  have pa : a.params = s.params := (gx_kept _ s).params
  have pb : b.params = s.params := (gx_kept _ a).params.trans pa
  have hs : s = load 0x28 (gated (.xfer [Config.preCmd, s.params.cmdRegRd]) ++ tail1) s := by
    have : s.seq = .busy 0x28 (gated (.xfer [Config.preCmd, s.params.cmdRegRd]) ++ tail1) := h
    cases s
    simp only [load]
    congr
  refine ⟨load 0x28 tail1 a, load 0x28 tail2 b, ?_, ?_, ?_⟩
  · rw [hs]
    exact step_load_gated hi
  · exact step_load_gated (i := .frameData [s.params.regStatus]) (by rw [pa]; rfl)
  · exact step_load_gated (i := .frameRead 1) (by rw [pb]; exact decode_read_frame _ 1)

end Sys2Proof.Machine
end

