-- ==== Sys2Proof/Laws/Outcome.lean ====
section
/-! SUPPORT. What an instruction can do, said once for all of them: it faults before anything else, or is turned away with
`E_CONFIG`, or runs to its end with the block as `doneBlock` says, or is a WAITDPY still BUSY. -/

namespace Sys2Proof.Machine

/-- The flags a host operation needs to be admitted (R200, R201, R240). -/
def Admitted (s : State) : Instr → Prop
  | .qinfo => s.asleep = false ∧ s.infoValid = false
  | .rdreg _ => s.configured = true ∧ s.asleep = false
  | .wrreg _ _ => s.configured = true ∧ s.asleep = false
  | .getvcom => s.configured = true ∧ s.asleep = false
  | .setvcom _ => s.configured = true ∧ s.asleep = false
  | .loadimgFull _ _ _ => s.configured = true ∧ s.asleep = false ∧ s.rma = false
  | .loadimgArea _ _ _ _ _ => s.configured = true ∧ s.asleep = false ∧ s.rma = false
  | .dpyarea _ _ _ _ _ => s.configured = true ∧ s.asleep = false ∧ s.rma = false
  | .waitdpy => s.configured = true ∧ s.asleep = false
  | .sleep => s.configured = true ∧ s.asleep = false ∧ s.rma = false
  | .wake => s.configured = true
  | .init _ => s.configured = false
  | _ => True

/-- The block as an operation that ends leaves it, up to RDY, HPREV, TMO, SEQ, TRACE and the environment's fields; `d` is the
DeviceInfo read. -/
def doneBlock (d : DeviceInfo) (s : State) : Instr → State
  | .xfer _ => { s with rma := true }
  | .wcmd _ _ => { s with rma := true }
  | .wdata _ => { s with rma := true }
  | .wwords _ _ => { s with rma := true }
  | .rwords _ => { s with rma := true }
  | .hwreset => resetBlock s
  | .qinfo => infoBlock d s
  | .dpyarea _ _ _ _ _ => { s with rma := true }
  | .waitdpy => { s with rma := false }
  | .sleep => { s with asleep := true }
  | .wake => { s with asleep := false }
  | .init _ => initBlock d s
  | _ => s

/-! ### From the checks to the flags -/

theorem needReady_none {s : State} (h : s.needReady = none) : s.configured = true ∧ s.asleep = false := by
  unfold State.needReady State.needConfigured State.needAwake at h
  cases hc : s.configured <;> cases ha : s.asleep <;> simp [hc, ha] at h ⊢

theorem needReadyIdle_none {s : State} (h : s.needReadyIdle = none) :
    s.configured = true ∧ s.asleep = false ∧ s.rma = false := by
  unfold State.needReadyIdle at h
  cases hr : s.needReady with
  | some r => rw [hr] at h; exact absurd h (by simp)
  | none =>
    rw [hr] at h
    obtain ⟨h1, h2⟩ := needReady_none hr
    unfold State.needNoRefresh at h
    cases hm : s.rma
    · exact ⟨h1, h2, rfl⟩
    · rw [hm] at h; exact absurd h (by simp)

theorem or_none_left {α : Type} {a b : Option α} (h : a.or b = none) : a = none := by
  cases a with
  | none => rfl
  | some x => exact absurd h (by simp)

theorem firstFault_precond {i : Instr} {plan : Plan} {s : State} (h : firstFault i plan s = none) :
    plan.precond = none := by
  unfold firstFault at h
  cases hp : plan.precond with
  | none => rfl
  | some r =>
    rw [hp] at h
    cases ho : operandFault s.params i <;> rw [ho] at h <;> exact absurd h (by simp)

/-! ### The cases -/

/-- What `exec` of a host operation can answer. -/
inductive HostOutcome (i : Instr) (s t : State) : Prop where
  | faulted (c : Cause) (h : t = takeFault i.opc c (accept i s))
  | rejected (v : Rat) (hi : i = .setvcom v ∨ i = .init v) (ha : Admitted s i) (h : t = configError v (accept i s))
  | ended (d : DeviceInfo) (ha : Admitted s i) (hs : t.seq = .idle) (hb : SameBlock (doneBlock d s i) t)
  | waiting (hi : i = .waitdpy) (ha : Admitted s i) (hs : t.seq = .busy 0x28 (pollActs s.params)) (hb : SameBlock s t)

/-- A `DeviceInfo` for the operations that read none. -/
def someInfo : DeviceInfo := ⟨0, 0, 0, ⟨0, 0, 0, 0, 0, 0, 0, 0⟩, ⟨0, 0, 0, 0, 0, 0, 0, 0⟩⟩

/-- An operation whose legs are transactions and flag writes, and that cannot be rejected. -/
theorem outcome_units {i : Instr} {plan : Plan} {s t : State} (xs fl : List Act) (r : ResultSpec)
    (h : runOp i plan s = .next t) (hc : plan.config = none) (ha : plan.precond = none → Admitted s i)
    (hp : plan.prog = xs.flatMap gated ++ fl ++ [Act.finish r]) (hx : ∀ x ∈ xs, x.isUnit = true)
    (hf : ∀ a ∈ fl, a.silent = true)
    (hb : ∀ _u, SameBlock (fl.foldl (fun s a => flagEffect a s) s) _u → SameBlock (doneBlock someInfo s i) _u) :
    HostOutcome i s t := by
  obtain ⟨_, ⟨c, _, e⟩ | ⟨v, _, e, _⟩ | ⟨h1, _, e⟩⟩ := runOp_cases h
  · exact .faulted c e
  · rw [hc] at e; exact absurd e (by simp)
  · obtain ⟨_, u, hu, _, hr, hk, _⟩ := run_units i xs fl r hx hf s
    rw [hp, hu] at e
    subst e
    exact .ended someInfo (ha (firstFault_precond h1)) hr.idle (hb _ hk)

theorem outcome_raw {i : Instr} {s t : State} (xs : List Act) (r : ResultSpec)
    (h : runOp i { prog := xs.flatMap gated ++ [Act.setRma true] ++ [Act.finish r] } s = .next t)
    (ha : Admitted s i) (hx : ∀ x ∈ xs, x.isUnit = true) (hd : doneBlock someInfo s i = { s with rma := true }) :
    HostOutcome i s t :=
  outcome_units xs [.setRma true] r h rfl (fun _ => ha) rfl hx (List.all_eq_true.1 rfl) fun _ hu => hd ▸ hu

theorem outcome_bare {i : Instr} {s t : State} (ws : List Word) (r : ResultSpec)
    (h : runOp i { prog := [Act.xfer ws, .setRma true, .finish r] } s = .next t)
    (ha : Admitted s i) (hd : doneBlock someInfo s i = { s with rma := true }) : HostOutcome i s t := by
  obtain ⟨_, ⟨c, _, e⟩ | ⟨v, _, e, _⟩ | ⟨_, _, e⟩⟩ := runOp_cases h
  · exact .faulted c e
  · exact absurd e (by simp)
  · obtain ⟨u, hu, hr, hk, _⟩ := run_bare i ws r s
    rw [show ({ prog := [Act.xfer ws, .setRma true, .finish r] } : Plan).prog = [Act.xfer ws, .setRma true, .finish r]
      from rfl, hu] at e
    subst e
    exact .ended someInfo ha hr.idle (hd ▸ hk)

theorem payload_program (p : Params) (code : Word) (bpp rot : Int) (rect : List Word) (pix : List Int) :
    loadActs p code bpp rot rect pix =
      ([Act.xfer [Config.preCmd, code], .xferArg (loadArg p bpp rot)] ++ rect.map (fun a => Act.xfer [Config.preData, a]) ++
        payloadUnits p.chunk (packPixels p.pack3 (formatOf bpp) (pix.map byteOf)) ++
        [Act.xfer [Config.preCmd, p.cmdLdImgEnd]]).flatMap gated ++ [] ++ [Act.finish .none] := by
  simp [loadActs, payloadActs_units, cmdActs, List.flatMap_map]
  rfl

theorem payload_isUnit (p : Params) (code : Word) (bpp rot : Int) (rect : List Word) (ws : List Word) :
    ∀ x ∈ [Act.xfer [Config.preCmd, code], .xferArg (loadArg p bpp rot)] ++
        rect.map (fun a => Act.xfer [Config.preData, a]) ++ payloadUnits p.chunk ws ++
        [Act.xfer [Config.preCmd, p.cmdLdImgEnd]], x.isUnit = true := by
  intro x hx
  simp only [List.mem_append, List.mem_map, List.mem_cons, List.not_mem_nil, or_false] at hx
  rcases hx with (((rfl | rfl) | ⟨a, _, rfl⟩) | hx) | rfl
  · rfl
  · rfl
  · rfl
  · exact payloadUnits_isUnit _ _ x hx
  · rfl

/-- The result of a poll: WAITDPY ended, or it goes on. -/
theorem outcome_waitdpy {s t : State} (h : execWaitdpy s = .next t) : HostOutcome .waitdpy s t := by
  obtain ⟨_, ⟨c, _, e⟩ | ⟨v, _, e, _⟩ | ⟨h1, _, e⟩⟩ := runOp_cases h
  · exact .faulted c e
  · exact absurd e (by simp)
  · have ha := needReady_none (firstFault_precond h1)
    change t = ticks (3 * (statusFrames s.params).length + 2) (load 0x28 (pollActs s.params) (accept .waitdpy s)) at e
    rw [pollActs_eq, ticks_gatedAll] at e
    have k := gxs_kept (statusFrames s.params) (accept .waitdpy s)
    have kb := (accept_sameBlock .waitdpy s).trans k.sameBlock
    have kp : (gxs (statusFrames s.params) (accept .waitdpy s)).params = s.params := kb.params
    generalize gxs (statusFrames s.params) (accept .waitdpy s) = u at *
    by_cases hz : u.rdata[2]? = some 0
    · rw [poll_ends hz] at e
      obtain ⟨_, _, _, _, _, q⟩ := stepAct_silent (a := .setRma false) rfl u
      have qb := (flagEffect_sameBlock (a := .setRma false) rfl kb).trans q
      generalize stepAct 0x00 (.setRma false) u = v at *
      obtain ⟨_, _, f3, _, _, f6⟩ := finish_effect 0x28 .none (load 0x28 [] v)
      subst e
      exact .ended someInfo ha f3 ((qb.trans (load_sameBlock _ _ _)).trans f6)
    · rw [poll_goes_round hz, kp] at e
      obtain ⟨_, _, _, d⟩ := delay_effect .poll (environment u)
      have db := (kb.trans (environment_sameBlock u)).trans d.sameBlock
      subst e
      exact .waiting rfl ha rfl (db.trans (load_sameBlock _ _ _))

theorem outcome_hwreset {s t : State} (h : execHwreset s = .next t) : HostOutcome .hwreset s t := by
  obtain ⟨_, ⟨c, _, e⟩ | ⟨v, _, e, _⟩ | ⟨_, _, e⟩⟩ := runOp_cases h
  · exact .faulted c e
  · exact absurd e (by simp)
  · obtain ⟨_, u, hu, _, _, hr, _, hk⟩ := run_hwreset s
    have e' : t = u := e.trans hu
    subst e'
    exact .ended someInfo trivial hr.idle hk

theorem outcome_qinfo {s t : State} (h : execQinfo s = .next t) : HostOutcome .qinfo s t := by
  obtain ⟨_, ⟨c, _, e⟩ | ⟨v, _, e, _⟩ | ⟨h1, _, e⟩⟩ := runOp_cases h
  · exact .faulted c e
  · exact absurd e (by simp)
  · have hp : s.needAwake.or s.needNoInfo = none := firstFault_precond h1
    obtain ⟨_, d, u, hu, _, hr, _, _, hk⟩ := run_qinfo s
    have e' : t = u := e.trans hu
    subst e'
    refine .ended d ?_ hr.idle hk
    unfold State.needAwake State.needNoInfo at hp
    constructor
    · cases ha : s.asleep
      · rfl
      · rw [ha] at hp; exact absurd hp (by simp)
    · cases hv : s.infoValid
      · rfl
      · cases ha : s.asleep <;> rw [ha, hv] at hp <;> exact absurd hp (by simp)

theorem needUnconfigured_none {s : State} (h : s.needUnconfigured = none) : s.configured = false := by
  unfold State.needUnconfigured at h
  cases hc : s.configured
  · rfl
  · rw [hc] at h; exact absurd h (by simp)

theorem vcomCheck_some {v w : Rat} (h : vcomCheck v = some w) : w = v := by
  unfold vcomCheck at h
  split at h
  · exact absurd h (by simp)
  · injection h with h; exact h.symm

theorem outcome_init {v : Rat} {s t : State} (h : execInit v s = .next t) : HostOutcome (.init v) s t := by
  obtain ⟨_, ⟨c, _, e⟩ | ⟨w, h1, hv, e⟩ | ⟨h1, _, e⟩⟩ := runOp_cases h
  · exact .faulted c e
  · obtain rfl := vcomCheck_some hv
    exact .rejected w (.inr rfl) (needUnconfigured_none (firstFault_precond h1)) e
  · obtain ⟨_, _, _, d, u, hu, _, _, _, _, hr, _, hk⟩ := run_init v s
    have e' : t = u := e.trans hu
    subst e'
    exact .ended d (needUnconfigured_none (firstFault_precond h1)) hr.idle hk

theorem outcome_setvcom {v : Rat} {s t : State} (h : execSetvcom v s = .next t) : HostOutcome (.setvcom v) s t := by
  obtain ⟨_, ⟨c, _, e⟩ | ⟨w, h1, hv, e⟩ | ⟨h1, _, e⟩⟩ := runOp_cases h
  · exact .faulted c e
  · obtain rfl := vcomCheck_some hv
    exact .rejected w (.inl rfl) (needReady_none (firstFault_precond h1)) e
  · obtain ⟨_, u, hu, _, hr, hk, _⟩ := run_units (.setvcom v)
      [.xfer [Config.preCmd, s.params.cmdVcom], .xfer [Config.preData, s.params.vcomSet],
        .xfer [Config.preData, vcomWord v]] [] .none (List.all_eq_true.1 rfl) (by simp) s
    have e' : t = u := e.trans hu
    subst e'
    exact .ended someInfo (needReady_none (firstFault_precond h1)) hr.idle hk

/-- The cases of every host operation. -/
theorem host_outcome {i : Instr} (hi : i.opc?.isSome = true) {s t : State} (h : exec i s = .next t) :
    HostOutcome i s t := by
  cases i with
  | xfer ws => exact outcome_bare (ws.map wordOf) .rxAll h trivial rfl
  | wcmd code wait =>
    by_cases hw : wait = 1
    · subst hw
      exact outcome_raw [.xfer [Config.preCmd, wordOf code]] .none h trivial (List.all_eq_true.1 rfl) rfl
    · have e : wcmdActs code wait = [Act.xfer [Config.preCmd, wordOf code], .setRma true, .finish .none] := by
        simp [wcmdActs, hw]
      change runOp (.wcmd code wait) { prog := wcmdActs code wait } s = _ at h
      rw [e] at h
      exact outcome_bare _ .none h trivial rfl
  | wdata w => exact outcome_raw [.xfer [Config.preData, wordOf w]] .none h trivial (List.all_eq_true.1 rfl) rfl
  | wwords ws chunk =>
    have e : wwordsActs ws chunk = (payloadUnits chunk.toNat (ws.map wordOf)).flatMap gated ++ [Act.setRma true] ++
        [Act.finish .none] := by simp [wwordsActs, payloadActs_units]
    change runOp (.wwords ws chunk) { prog := wwordsActs ws chunk } s = _ at h
    rw [e] at h
    exact outcome_raw _ .none h trivial (payloadUnits_isUnit _ _) rfl
  | rwords count =>
    exact outcome_raw [.xfer (readFrame s.params count.toNat)] .rxData h trivial (List.all_eq_true.1 rfl) rfl
  | hwreset => exact outcome_hwreset h
  | rdstat => exact outcome_units [] [] .status h rfl (fun _ => trivial) rfl (by simp) (by simp) fun _ hu => hu
  | pack2 pix =>
    exact outcome_units [] [] _ h rfl (fun _ => trivial) rfl (by simp) (by simp) fun _ hu => hu
  | pack3 pix =>
    exact outcome_units [] [] _ h rfl (fun _ => trivial) rfl (by simp) (by simp) fun _ hu => hu
  | pack4 pix =>
    exact outcome_units [] [] _ h rfl (fun _ => trivial) rfl (by simp) (by simp) fun _ hu => hu
  | pack8 pix =>
    exact outcome_units [] [] _ h rfl (fun _ => trivial) rfl (by simp) (by simp) fun _ hu => hu
  | qinfo => exact outcome_qinfo h
  | rdreg addr =>
    exact outcome_units [.xfer [Config.preCmd, s.params.cmdRegRd], .xfer [Config.preData, wordOf addr],
      .xfer (readFrame s.params 1)] [] .rxWord h rfl needReady_none rfl (List.all_eq_true.1 rfl) (by simp) fun _ hu => hu
  | wrreg addr value =>
    exact outcome_units [.xfer [Config.preCmd, s.params.cmdRegWr], .xfer [Config.preData, wordOf addr],
      .xfer [Config.preData, wordOf value]] [] .none h rfl needReady_none rfl (List.all_eq_true.1 rfl) (by simp)
      fun _ hu => hu
  | getvcom =>
    exact outcome_units [.xfer [Config.preCmd, s.params.cmdVcom], .xfer [Config.preData, s.params.vcomGet],
      .xfer (readFrame s.params 1)] [] .rxVolts h rfl needReady_none rfl (List.all_eq_true.1 rfl) (by simp)
      fun _ hu => hu
  | setvcom v => exact outcome_setvcom h
  | loadimgFull bpp rot pix =>
    exact outcome_units _ [] .none h rfl (fun hp => needReadyIdle_none (or_none_left hp)) (payload_program _ _ _ _ [] _)
      (payload_isUnit _ _ _ _ _ _) (by simp) fun _ hu => hu
  | loadimgArea bpp rot origin dims pix =>
    exact outcome_units _ [] .none h rfl (fun hp => needReadyIdle_none (or_none_left hp))
      (payload_program _ _ _ _ _ _) (payload_isUnit _ _ _ _ _ _) (by simp) fun _ hu => hu
  | dpyarea x y w h' mode =>
    exact outcome_units [.xfer [Config.preCmd, s.params.cmdDpyArea], .xfer [Config.preData, wordOf x],
      .xfer [Config.preData, wordOf y], .xfer [Config.preData, wordOf w], .xfer [Config.preData, wordOf h'],
      .xfer [Config.preData, wordOf mode]] [.setRma true] .none h rfl
      (fun hp => needReadyIdle_none (or_none_left hp)) rfl (List.all_eq_true.1 rfl) (List.all_eq_true.1 rfl)
      fun _ hu => hu
  | waitdpy => exact outcome_waitdpy h
  | sleep =>
    exact outcome_units [.xfer [Config.preCmd, s.params.cmdSleep]] [.setAsleep true] .none h rfl needReadyIdle_none rfl
      (List.all_eq_true.1 rfl) (List.all_eq_true.1 rfl) fun _ hu => hu
  | wake =>
    refine outcome_units [.xfer [Config.preCmd, s.params.cmdSysRun]] [.setAsleep false] .none h rfl (fun hp => ?_) rfl
      (List.all_eq_true.1 rfl) (List.all_eq_true.1 rfl) fun _ hu => hu
    change s.needConfigured = none at hp
    unfold State.needConfigured at hp
    cases hc : s.configured
    · rw [hc] at hp; exact absurd hp (by simp)
    · exact hc
  | init v => exact outcome_init h
  | cmdSysRun => exact absurd hi Bool.false_ne_true
  | cmdSleep => exact absurd hi Bool.false_ne_true
  | cmdRegRd => exact absurd hi Bool.false_ne_true
  | cmdRegWr => exact absurd hi Bool.false_ne_true
  | cmdLdImg => exact absurd hi Bool.false_ne_true
  | cmdLdImgArea => exact absurd hi Bool.false_ne_true
  | cmdLdImgEnd => exact absurd hi Bool.false_ne_true
  | cmdDpyArea => exact absurd hi Bool.false_ne_true
  | cmdVcom => exact absurd hi Bool.false_ne_true
  | cmdGetDevInfo => exact absurd hi Bool.false_ne_true
  | frameData _ => exact absurd hi Bool.false_ne_true
  | frameRead _ => exact absurd hi Bool.false_ne_true
  | ldarg _ _ _ => exact absurd hi Bool.false_ne_true

end Sys2Proof.Machine
end

