-- ==== Sys2Proof/Laws/PerInstr.lean ====
section
/-! SUPPORT. Facts about each instruction as syntax, one lemma per constructor. Family RoundTrip: decoding what the encoder
writes gives the instruction back (30_encoding.md R103 to R106, R120). -/

namespace Sys2Proof.Laws.RoundTrip

/-- Under any legal parameters, a well-formed instruction is read back from its own encoding. -/
def Statement (i : Instr) : Prop := ∀ p : Params, p.wf = true → i.wf p = true → decode p (encode p i) = .ok i

theorem xfer (ws : List Int) : Statement (.xfer ws) := fun _ _ _ => rfl

theorem wcmd (code : Int) (wait : Int) : Statement (.wcmd code wait) := fun _ _ _ => rfl

theorem wdata (w : Int) : Statement (.wdata w) := fun _ _ _ => rfl

theorem wwords (ws : List Int) (chunk : Int) : Statement (.wwords ws chunk) := fun _ _ _ => rfl

theorem rwords (count : Int) : Statement (.rwords count) := fun _ _ _ => rfl

theorem hwreset : Statement (.hwreset) := fun _ _ _ => rfl

theorem rdstat : Statement (.rdstat) := fun _ _ _ => rfl

theorem pack2 (pix : List Int) : Statement (.pack2 pix) := fun _ _ _ => rfl

theorem pack3 (pix : List Int) : Statement (.pack3 pix) := fun _ _ _ => rfl

theorem pack4 (pix : List Int) : Statement (.pack4 pix) := fun _ _ _ => rfl

theorem pack8 (pix : List Int) : Statement (.pack8 pix) := fun _ _ _ => rfl

theorem qinfo : Statement (.qinfo) := fun _ _ _ => rfl

theorem rdreg (addr : Int) : Statement (.rdreg addr) := fun _ _ _ => rfl

theorem wrreg (addr : Int) (value : Int) : Statement (.wrreg addr value) := fun _ _ _ => rfl

theorem getvcom : Statement (.getvcom) := fun _ _ _ => rfl

theorem setvcom (v : Rat) : Statement (.setvcom v) := fun _ _ _ => rfl

theorem loadimgFull (bpp : Int) (rot : Int) (pix : List Int) : Statement (.loadimgFull bpp rot pix) := fun _ _ _ => rfl

theorem loadimgArea (bpp : Int) (rot : Int) (origin : Option (Int × Int)) (dims : Option (Int × Int)) (pix : List Int) : Statement (.loadimgArea bpp rot origin dims pix) := fun _ _ _ => rfl

theorem dpyarea (x : Int) (y : Int) (w : Int) (h : Int) (mode : Int) : Statement (.dpyarea x y w h mode) := fun _ _ _ => rfl

theorem waitdpy : Statement (.waitdpy) := fun _ _ _ => rfl

theorem sleep : Statement (.sleep) := fun _ _ _ => rfl

theorem wake : Statement (.wake) := fun _ _ _ => rfl

theorem init (vcom : Rat) : Statement (.init vcom) := fun _ _ _ => rfl

/-- The ten command codes are distinct (R105). -/
theorem codes_nodup {p : Params} (h : p.wf = true) : p.cmdCodes.Nodup := by
  simp only [Params.wf, Bool.and_eq_true, decide_eq_true_eq] at h
  exact h.1.1.1.1.1

/-- A CMD frame with a code of the table is the command of that code. -/
theorem command_at {p : Params} (h : p.wf = true) {i : Instr} {code : Word} (k : Nat)
    (hk : (commandTable p)[k]? = some (code, i)) : decode p (cmdFrame code) = .ok i := by
  have hn : ((commandTable p).map Prod.fst).Nodup := codes_nodup h
  have hf : (commandTable p).find? (fun e => e.1 == code) = some (code, i) := by
    generalize commandTable p = tab at hn hk
    induction tab generalizing k with
    | nil => simp at hk
    | cons e es ih =>
      simp only [List.map_cons, List.nodup_cons] at hn
      cases k with
      | zero =>
        have : e = (code, i) := by simpa using hk
        subst this
        simp
      | succ k =>
        have hm : (code, i) ∈ es := List.mem_of_getElem? (by simpa using hk)
        have hne : e.1 ≠ code := fun heq => hn.1 (heq ▸ List.mem_map.2 ⟨_, hm, rfl⟩)
        simp only [List.find?_cons, beq_eq_false_iff_ne.2 hne]
        exact ih k hn.2 (by simpa using hk)
  show decodeFrame p [Config.preCmd, code] = _
  simp only [decodeFrame, if_true, decodeCmdRest, decodeCommand, hf]

theorem cmdSysRun : Statement .cmdSysRun := fun _ hp _ => command_at hp 0 rfl

theorem cmdSleep : Statement .cmdSleep := fun _ hp _ => command_at hp 1 rfl

theorem cmdRegRd : Statement .cmdRegRd := fun _ hp _ => command_at hp 2 rfl

theorem cmdRegWr : Statement .cmdRegWr := fun _ hp _ => command_at hp 3 rfl

theorem cmdLdImg : Statement .cmdLdImg := fun _ hp _ => command_at hp 4 rfl

theorem cmdLdImgArea : Statement .cmdLdImgArea := fun _ hp _ => command_at hp 5 rfl

theorem cmdLdImgEnd : Statement .cmdLdImgEnd := fun _ hp _ => command_at hp 6 rfl

theorem cmdDpyArea : Statement .cmdDpyArea := fun _ hp _ => command_at hp 7 rfl

theorem cmdVcom : Statement .cmdVcom := fun _ hp _ => command_at hp 8 rfl

theorem cmdGetDevInfo : Statement .cmdGetDevInfo := fun _ hp _ => command_at hp 9 rfl

theorem frameData (payload : List Word) : Statement (.frameData payload) := by
  intro p _ hw
  have hne : payload ≠ [] := by
    intro h
    subst h
    exact absurd hw (by simp [Instr.wf])
  cases payload with
  | nil => exact absurd rfl hne
  | cons w ws => rfl

theorem frameRead (count : Nat) : Statement (.frameRead count) := by
  intro p _ _
  have h1 : (Config.preRead = Config.preCmd) = False := by decide
  have h2 : (Config.preRead = Config.preData) = False := by decide
  show decodeFrame p (Config.preRead :: List.replicate (count + 1) p.dummy) = _
  simp only [decodeFrame, h1, h2, if_false, if_true, List.replicate_succ, decodeReadRest]
  simp

theorem ldarg (endian : BitVec 8) (fmt rot : BitVec 4) : Statement (.ldarg endian fmt rot) := by
  intro p _ hw
  simp only [Instr.wf, decide_eq_true_eq] at hw
  obtain ⟨he, hf, hr⟩ := hw
  have e : ∃ e : Fin 2, endian = BitVec.ofNat 8 e := ⟨⟨endian.toNat, by omega⟩, by simp⟩
  have f : ∃ f : Fin 4, fmt = BitVec.ofNat 4 f := ⟨⟨fmt.toNat, by omega⟩, by simp⟩
  have r : ∃ r : Fin 4, rot = BitVec.ofNat 4 r := ⟨⟨rot.toNat, by omega⟩, by simp⟩
  obtain ⟨e, rfl⟩ := e
  obtain ⟨f, rfl⟩ := f
  obtain ⟨r, rfl⟩ := r
  have all : ∀ (e : Fin 2) (f r : Fin 4),
      decodeLoadArg (loadArgWord (BitVec.ofNat 8 e) (BitVec.ofNat 4 f) (BitVec.ofNat 4 r)) =
        .ok (.ldarg (BitVec.ofNat 8 e) (BitVec.ofNat 4 f) (BitVec.ofNat 4 r)) := by decide
  exact all e f r

end Sys2Proof.Laws.RoundTrip
end

