-- ==== Sys2Proof/Laws/Waits.lean ====
section
/-! SUPPORT. RDY and the end of every wait are what the events make of them: an `Await` ends OK exactly when RDY is 1 there
(40_transport.md R144), for every atomic step, instruction and step of the machine. -/

namespace Sys2Proof.Machine

/-- Every wait among some events ends as RDY says, from its value `r` before them. -/
def waitsOk : Bool → List Event → Bool
  | _, [] => true
  | r, e :: es => (!e.isWaitEnd || (e == .awaitOk) == r) && waitsOk (readyEvent r e) es

@[simp] theorem readyOf_nil (r : Bool) : readyOf r [] = r := rfl

@[simp] theorem readyOf_cons (r : Bool) (e : Event) (es : List Event) : readyOf r (e :: es) = readyOf (readyEvent r e) es := rfl

@[simp] theorem readyOf_append (r : Bool) (a b : List Event) : readyOf r (a ++ b) = readyOf (readyOf r a) b := by
  simp [readyOf]

theorem waitsOk_append (r : Bool) (a b : List Event) : waitsOk r (a ++ b) = (waitsOk r a && waitsOk (readyOf r a) b) := by
  induction a generalizing r with
  | nil => simp [waitsOk]
  | cons e es ih => simp [waitsOk, ih, Bool.and_assoc]

theorem readyOf_edges (r : Bool) (n : Nat) : readyOf r (List.replicate n Event.edge) = (r || decide (0 < n)) := by
  induction n generalizing r with
  | zero => simp
  | succ n ih => simp [List.replicate_succ, ih, readyEvent]

theorem waitsOk_edges (r : Bool) (n : Nat) : waitsOk r (List.replicate n Event.edge) = true := by
  induction n generalizing r with
  | zero => rfl
  | succ n ih => simp [List.replicate_succ, waitsOk, ih, Event.isWaitEnd]

/-- `t` comes after `s` with the events `new`, which determine its RDY and the ends of its waits. -/
structure Waits (s t : State) (new : List Event) : Prop where
  trace : t.trace = s.trace ++ new
  rdy : t.rdy = readyOf s.rdy new
  waits : waitsOk s.rdy new = true

theorem Waits.trans {s t u : State} {x y : List Event} (a : Waits s t x) (b : Waits t u y) : Waits s u (x ++ y) where
  trace := by rw [b.trace, a.trace, List.append_assoc]
  rdy := by rw [b.rdy, a.rdy, readyOf_append]
  waits := by rw [waitsOk_append, a.waits, ← a.rdy, b.waits]; rfl

theorem waits_nil {s t : State} (h1 : t.trace = s.trace) (h2 : t.rdy = s.rdy) : ∃ new, Waits s t new :=
  ⟨[], by rw [h1, List.append_nil], h2, rfl⟩

theorem waits_one {s t : State} (e : Event) (h1 : t.trace = s.trace ++ [e]) (h2 : t.rdy = readyEvent s.rdy e)
    (h3 : (!e.isWaitEnd || (e == .awaitOk) == s.rdy) = true) : ∃ new, Waits s t new :=
  ⟨[e], h1, h2, by simp only [waitsOk, h3, Bool.and_self]⟩

theorem environment_waits (s : State) : ∃ new, Waits s (environment s) new :=
  ⟨_, rfl, by rw [environment_rdy, readyAfter_rdy, readyOf_edges], waitsOk_edges _ _⟩

theorem transact_waits (ws : List Word) (s : State) : ∃ new, Waits s (transact ws s) new := by
  cases ws with
  | nil => exact waits_nil (by simp [transact]) rfl
  | cons w ws => exact waits_one _ rfl rfl rfl

theorem perform_waits (opc : Byte) (a : Act) (e : Bool) (s : State) : ∃ new, Waits s (perform opc a e s) new := by
  cases a with
  | prime => exact waits_one .prime rfl rfl rfl
  | xfer ws => exact transact_waits _ _
  | xferArg w => exact transact_waits _ _
  | xferBase high =>
    simp only [perform]
    split
    · exact transact_waits _ _
    · exact waits_one (.endOp _) rfl rfl rfl
  | await =>
    refine waits_one (if s.rdy then .awaitOk else .timeout .data) rfl ?_ ?_ <;> cases s.rdy <;> rfl
  | drive v => exact waits_one (.sigResetN v) rfl rfl rfl
  | delay d => exact waits_one (.delay d) rfl rfl rfl
  | startupWait =>
    cases h : s.hrdy && !e with
    | true => exact waits_nil (by simp [perform, h]) (by simp [perform])
    | false => exact waits_one (.timeout .reset) (by simp [perform, h]) (by simp [perform, readyEvent]) rfl
  | beginReset => exact waits_nil rfl rfl
  | storeInfo =>
    simp only [perform]
    split
    · exact waits_nil rfl rfl
    · exact waits_one (.endOp _) rfl rfl rfl
  | setRma v => exact waits_nil rfl rfl
  | setAsleep v => exact waits_nil rfl rfl
  | setConfigured => exact waits_nil rfl rfl
  | pollCheck => simp only [perform]; split <;> exact waits_nil rfl rfl
  | finish r => exact waits_one (.endOp .ok) rfl rfl rfl

theorem waits_stepRel : StepRel fun s t => ∃ new, Waits s t new where
  refl := fun _ => waits_nil rfl rfl
  trans := fun ⟨x, a⟩ ⟨y, b⟩ => ⟨x ++ y, a.trans b⟩
  env := environment_waits
  act := fun opc a s => by
    obtain ⟨x, hx⟩ := environment_waits s
    obtain ⟨y, hy⟩ := perform_waits opc a (nextSlot s).expire (environment s)
    exact ⟨x ++ y, hx.trans hy⟩
  load := fun _ _ _ => waits_nil rfl rfl
  accept := fun i _ => waits_one (.op i) rfl rfl rfl
  fault := fun _ c _ => waits_one (.endOp (.fault c)) rfl rfl rfl
  config := fun _ _ => waits_one (.endOp .config) rfl rfl rfl
  requests := fun _ _ => waits_nil rfl rfl
  resp := fun _ => waits_nil rfl rfl

/-- Events with no PRIME and no end of a wait only set RDY, by an EDGE. -/
theorem readyOf_between (r : Bool) (b : List Event) (hb : ∀ e ∈ b, e ≠ .prime ∧ e.isWaitEnd = false) :
    readyOf r b = (r || b.contains .edge) := by
  induction b generalizing r with
  | nil => simp
  | cons e es ih =>
    have he := hb e (by simp)
    rw [readyOf_cons, ih _ fun x hx => hb x (by simp [hx])]
    cases e with
    | edge => simp [readyEvent]
    | prime => exact absurd rfl he.1
    | awaitOk => exact absurd he.2 (by simp [Event.isWaitEnd])
    | timeout k => cases k with
      | data => exact absurd he.2 (by simp [Event.isWaitEnd])
      | reset => simp [readyEvent]
    | _ => simp [readyEvent]

/-- A wait's end among checked events says what RDY was. -/
theorem waitsOk_at {r : Bool} {a c : List Event} {w : Event} (h : waitsOk r (a ++ [w] ++ c) = true)
    (hw : w.isWaitEnd = true) : w = .awaitOk ↔ readyOf r a = true := by
  rw [waitsOk_append, waitsOk_append] at h
  simp only [Bool.and_eq_true, waitsOk, hw, Bool.not_true, Bool.false_or, and_true, beq_iff_eq] at h
  rw [← h.1.2, beq_iff_eq]

end Sys2Proof.Machine
end

