-- ==== Sys2Proof/Tests/Slice0.lean ====
section
/-! SUPPORT. The model's own tests: the ill-formed terms each check of WellFormed refuses, decoding of words written out from
the tables of spec/, one step of each instruction on a small state with the results spec/95_test_vectors.md gives, and the
witnesses that the hypotheses of the statements can be met. -/

open Sys2Proof Sys2Proof.Machine

/-! ### Well-formedness: one ill-formed term for each check -/

theorem test_wf_transport :
    Instr.wf Params.default (.xfer [0, 0x10000]) = false ∧
    Instr.wf Params.default (.wcmd 0x10000 1) = false ∧
    Instr.wf Params.default (.wcmd 1 2) = false ∧
    Instr.wf Params.default (.wdata (-1)) = false ∧
    Instr.wf Params.default (.wwords [-1] 1024) = false ∧
    Instr.wf Params.default (.wwords [] 0) = false ∧
    Instr.wf Params.default (.rwords 0x10000) = false := by decide

theorem test_wf_packer :
    Instr.wf Params.default (.pack2 [256]) = false ∧ Instr.wf Params.default (.pack3 [256]) = false ∧
    Instr.wf Params.default (.pack4 [-1]) = false ∧ Instr.wf Params.default (.pack8 [0, 256]) = false := by decide

theorem test_wf_registers :
    Instr.wf Params.default (.rdreg 0x10000) = false ∧ Instr.wf Params.default (.wrreg (-1) 0) = false ∧
    Instr.wf Params.default (.wrreg 0 0x10000) = false := by decide

theorem test_wf_loads :
    Instr.wf Params.default (.loadimgFull 5 0 []) = false ∧ Instr.wf Params.default (.loadimgFull 4 4 []) = false ∧
    Instr.wf Params.default (.loadimgFull 4 0 [256]) = false ∧
    Instr.wf Params.default (.loadimgArea 1 0 (some (0, 0)) none []) = false ∧
    Instr.wf Params.default (.loadimgArea 4 (-1) (some (0, 0)) none []) = false ∧
    Instr.wf Params.default (.loadimgArea 4 0 (some (0, 0x10000)) none []) = false ∧
    Instr.wf Params.default (.loadimgArea 4 0 (some (-1, 0)) none []) = false ∧
    Instr.wf Params.default (.loadimgArea 4 0 none none []) = false ∧
    Instr.wf Params.default (.loadimgArea 4 0 none (some (0, 1)) []) = false ∧
    Instr.wf Params.default (.loadimgArea 4 0 none (some (1, 0x10000)) []) = false ∧
    Instr.wf Params.default (.loadimgArea 4 0 none (some (1, 1)) [-1]) = false := by decide

theorem test_wf_display :
    Instr.wf Params.default (.dpyarea (-1) 0 1 1 0) = false ∧ Instr.wf Params.default (.dpyarea 0 0x10000 1 1 0) = false ∧
    Instr.wf Params.default (.dpyarea 0 0 0 1 0) = false ∧ Instr.wf Params.default (.dpyarea 0 0 1 0x10000 0) = false ∧
    Instr.wf Params.default (.dpyarea 0 0 1 1 8) = false := by decide

theorem test_wf_wire :
    Instr.wf Params.default (.frameData []) = false ∧ Instr.wf Params.default (.frameRead 65536) = false ∧
    Instr.wf Params.default (.ldarg 2 0 0) = false ∧ Instr.wf Params.default (.ldarg 0 4 0) = false ∧
    Instr.wf Params.default (.ldarg 0 0 4) = false := by decide

theorem test_wf_long_data_frame :
    Instr.wf Params.default (.frameData (List.replicate 65536 0)) = false := by
  simp only [Instr.wf, List.length_replicate]; decide

theorem test_wf_parameters :
    Params.default.wf = true ∧ ({ cmdSleep := 0x0001 : Params }).wf = false ∧ ({ fmt2 := 1 : Params }).wf = false ∧
    ({ chunk := 0 : Params }).wf = false ∧ ({ chunk := 65536 : Params }).wf = false ∧
    ({ areaAlign := 0 : Params }).wf = false ∧ ({ align := 0 : Params }).wf = false ∧
    ({ fmt8 := 4 : Params }).wf = false ∧ ({ endian := 2 : Params }).wf = false ∧
    ({ rotLeft := 4 : Params }).wf = false ∧ ({ rotNone := 1 : Params }).wf = false ∧
    ({ vcomGet := 1 : Params }).wf = false := by decide

/-! ### Decoding: every row's word, bit by bit from the tables of 30_encoding.md -/

/-- R120, the Transport. -/
theorem test_decode_transport :
    decodeTableWord 8 0b00000001 = some (.xfer []) ∧ decodeTableWord 8 0b00000010 = some (.wcmd 0 0) ∧
    decodeTableWord 8 0b00000011 = some (.wdata 0) ∧ decodeTableWord 8 0b00000100 = some (.wwords [] 0) ∧
    decodeTableWord 8 0b00000101 = some (.rwords 0) ∧ decodeTableWord 8 0b00000110 = some .hwreset ∧
    decodeTableWord 8 0b00000111 = some .rdstat := by decide

/-- R120, the Pixel Packer. -/
theorem test_decode_packer :
    decodeTableWord 8 0b00010000 = some (.pack2 []) ∧ decodeTableWord 8 0b00010001 = some (.pack3 []) ∧
    decodeTableWord 8 0b00010010 = some (.pack4 []) ∧ decodeTableWord 8 0b00010011 = some (.pack8 []) := by decide

/-- R120, the Controller Protocol. -/
theorem test_decode_protocol :
    decodeTableWord 8 0b00100000 = some .qinfo ∧ decodeTableWord 8 0b00100001 = some (.rdreg 0) ∧
    decodeTableWord 8 0b00100010 = some (.wrreg 0 0) ∧ decodeTableWord 8 0b00100011 = some .getvcom ∧
    decodeTableWord 8 0b00100100 = some (.setvcom 0) ∧ decodeTableWord 8 0b00100101 = some (.loadimgFull 0 0 []) ∧
    decodeTableWord 8 0b00100110 = some (.loadimgArea 0 0 none none []) ∧
    decodeTableWord 8 0b00100111 = some (.dpyarea 0 0 0 0 0) ∧ decodeTableWord 8 0b00101000 = some .waitdpy ∧
    decodeTableWord 8 0b00101001 = some .sleep ∧ decodeTableWord 8 0b00101010 = some .wake ∧
    decodeTableWord 8 0b00101111 = some (.init 0) := by decide

/-- R102, R105: preamble 0x6000 and the ten codes. -/
theorem test_decode_commands :
    decodeTableWord 32 0b01100000000000000000000000000001 = some .cmdSysRun ∧
    decodeTableWord 32 0b01100000000000000000000000000011 = some .cmdSleep ∧
    decodeTableWord 32 0b01100000000000000000000000010000 = some .cmdRegRd ∧
    decodeTableWord 32 0b01100000000000000000000000010001 = some .cmdRegWr ∧
    decodeTableWord 32 0b01100000000000000000000000100000 = some .cmdLdImg ∧
    decodeTableWord 32 0b01100000000000000000000000100001 = some .cmdLdImgArea ∧
    decodeTableWord 32 0b01100000000000000000000000100010 = some .cmdLdImgEnd ∧
    decodeTableWord 32 0b01100000000000000000000000110100 = some .cmdDpyArea ∧
    decodeTableWord 32 0b01100000000000000000000000111001 = some .cmdVcom ∧
    decodeTableWord 32 0b01100000000000000000001100000010 = some .cmdGetDevInfo := by decide

/-- R102, R103, R106: the data and read preambles, and an argument word with END 1, FMT 3, ROT 2. -/
theorem test_decode_frames :
    decodeTableWord 16 0b0000000000000000 = some (.frameData [0]) ∧
    decodeTableWord 16 0b0001000000000000 = some (.frameRead 0) ∧
    decodeTableWord 16 0b0000000100110010 = some (.ldarg 1 3 2) := by decide

/-- Longer frames by their bytes on the wire (20_memory.md R74; vectors T6, T12, V15). -/
theorem test_decode_bytes :
    decodeFrameBytes Params.default [0x00, 0x00, 0x12, 0x24] = .ok (.frameData [0x1224]) ∧
    decodeFrameBytes Params.default [0x10, 0x00, 0x00, 0x00, 0x00, 0x00, 0x00, 0x00] = .ok (.frameRead 2) ∧
    decodeFrameBytes Params.default [0x60, 0x00, 0x03, 0x02] = .ok .cmdGetDevInfo := by decide

/-- R102, R103, R105, R106, R115: what is no instruction is rejected by name. -/
theorem test_decode_rejects :
    decodeFrame Params.default [] = .error .emptyFrame ∧
    decodeFrame Params.default [0x2000, 0] = .error (.reservedPreamble 0x2000) ∧
    decodeFrame Params.default [0x6000, 0x0002] = .error (.unknownCommand 0x0002) ∧
    decodeFrame Params.default [0x6000, 0x0001, 0] = .error (.badCommandLength 2) ∧
    decodeFrame Params.default [0x0000] = .error .emptyData ∧
    decodeFrame Params.default [0x1000] = .error .emptyRead ∧
    decodeFrame Params.default [0x1000, 1] = .error .notDummy ∧
    decodeLoadArg 0x0040 = .error (.reservedArgBits 0x0040) ∧
    decodeFrameBytes Params.default [0x60] = .error (.oddBytes 1) ∧
    decodeHost Params.default ⟨0x08, {}⟩ = .error (.illegalOp 0x08) ∧
    decodeHost Params.default ⟨0x21, {}⟩ = .error (.missingOperand 0x21 .addr) := by decide

/-- R113, R104, on the frames of V15: the argument word is told from the payload by its place. -/
theorem test_decode_trace :
    decodeTrace Params.default
        [([0x6000, 0x0020], []), ([0x0000, 0x0020], []), ([0x0000, 0x3210, 0x7654, 0xBA98, 0xFEDC], []),
          ([0x6000, 0x0022], [])] =
      [.ok ⟨.cmdLdImg, .command, []⟩, .ok ⟨.ldarg 0 2 0, .loadArg, [0x0020]⟩,
        .ok ⟨.frameData [0x3210, 0x7654, 0xBA98, 0xFEDC], .payload, [0x3210, 0x7654, 0xBA98, 0xFEDC]⟩,
        .ok ⟨.cmdLdImgEnd, .command, []⟩] := by decide

/-- R113, R104, on the frames of V3 and V7: what follows a VCOM command depends on its selector word. -/
theorem test_decode_trace_vcom :
    decodeTrace Params.default
        [([0x6000, 0x0039], []), ([0, 0], []), ([0x1000, 0, 0], [7, 7, 0x05DC]), ([0x6000, 0x0039], []), ([0, 1], []),
          ([0, 0x05DC], []), ([0, 5], [])] =
      [.ok ⟨.cmdVcom, .command, []⟩, .ok ⟨.frameData [0], .selector, [0]⟩, .ok ⟨.frameRead 1, .vcomReply, [0x05DC]⟩,
        .ok ⟨.cmdVcom, .command, []⟩, .ok ⟨.frameData [1], .selector, [1]⟩, .ok ⟨.frameData [0x05DC], .millivolts, [0x05DC]⟩,
        .ok ⟨.frameData [5], .unplaced, [5]⟩] := by decide

/-! ### States for the tests -/

/-- The state an outcome goes on with. -/
def nextOf (o : Host.Outcome State Fault Refusal) : Option State :=
  match o with
  | .next t => some t
  | .fault _ => none
  | .refused _ => none

/-- `n` interleaving points at each of which HRDY falls and rises, so that every wait ends OK. -/
def okSlots (n : Nat) : List Slot := List.replicate n ⟨[.pin false, .edge, .pin true, .edge], false⟩

/-- `n` interleaving points at which nothing happens. -/
def quietSlots (n : Nat) : List Slot := List.replicate n ⟨[], false⟩

/-- Power-on with HRDY low and this script. -/
def powerOn (script : List Slot) : State := { State.reset with hrdy := false, hprev := false, script := script }

def noVersion : VersionWords := ⟨0, 0, 0, 0, 0, 0, 0, 0⟩

/-- The start state of the P-vectors on a `w` by `h` panel. -/
def configuredOn (w h : Word) (rma : Bool) : State :=
  { powerOn (okSlots 64) with
    info := some ⟨w, h, 0x001136E0, noVersion, noVersion⟩, infoValid := true, configured := true, rma := rma }

def sixteen : List Int :=
  [0x00, 0x11, 0x22, 0x33, 0x44, 0x55, 0x66, 0x77, 0x88, 0x99, 0xAA, 0xBB, 0xCC, 0xDD, 0xEE, 0xFF]

def eight : List Int := [0x10, 0x20, 0x30, 0x40, 0x50, 0x60, 0x70, 0x80]

/-- The bytes of the reply of V28, with the two words before it. -/
def replyBytes : List Byte :=
  [0, 0, 0, 0, 0x03, 0x20, 0x02, 0x58, 0x36, 0xE0, 0x00, 0x11, 0x76, 0x31, 0x2E, 0x30, 0, 0, 0, 0, 0, 0, 0, 0, 0, 0, 0, 0] ++
    [0x4D, 0x38, 0x34, 0x31, 0, 0, 0, 0, 0, 0, 0, 0, 0, 0, 0, 0]

/-- The words sent and the result, when the instruction completes. -/
def sentAndResult (i : Instr) (s : State) : Option (List (List Word) × Option Response) :=
  (nextOf (exec i s)).map fun t => (sentOf t.trace, t.resp)

/-- The faults recorded, SEQ, and the words sent. -/
def faultOf (i : Instr) (s : State) : Option (List FaultRec × Seq × List (List Word)) :=
  (nextOf (exec i s)).map fun t => (t.faults, t.seq, sentOf t.trace)

/-- HALTED with this fault and nothing sent. -/
def halts (c : Cause) (opc : Byte) : Option (List FaultRec × Seq × List (List Word)) := some ([⟨c, opc⟩], .halted, [])

def okWith (r : Result) : Option Response := some ⟨.ok, r⟩

/-! ### Transport (95_test_vectors.md section 2) -/

/-- T1 -/
theorem test_xfer :
    (nextOf (exec (.xfer [0x6000, 0x0302]) { powerOn (quietSlots 9) with rx := [0xAB, 0xCD, 0x12, 0x34], rma := false })).map
        (fun t => (wireBytesOf t.trace, t.resp, t.rma)) =
      some ([0x60, 0x00, 0x03, 0x02], okWith (.words [0xABCD, 0x1234]), true) := by decide

/-- T2 -/
theorem test_xfer_empty :
    sentAndResult (.xfer []) (powerOn (quietSlots 9)) = some ([], okWith (.words [])) := by decide

/-- T3: a stale edge does not end the wait; the edge after the frame does. -/
theorem test_wcmd_stale_edge :
    (nextOf (exec (.wcmd 0x0001 1)
        { powerOn (quietSlots 2 ++ [⟨[.pin true, .edge], false⟩] ++ quietSlots 2) with rdy := true, rx := [1, 2, 3, 4] })).map
        (fun t => (t.trace, t.rdy, t.tmo)) =
      some ([Event.op (.wcmd 1 1), .prime, .frame [0x6000, 0x0001] [0x0102, 0x0304], .edge, .awaitOk, .endOp .ok], false, 0) := by
  decide

/-- T5: `wait = 0`. -/
theorem test_wcmd_no_wait :
    (nextOf (exec (.wcmd 0x0302 0) { powerOn (quietSlots 9) with rdy := true, rx := [1, 2, 3, 4] })).map
        (fun t => (t.trace, t.rdy, t.rma)) =
      some ([Event.op (.wcmd 0x0302 0), .frame [0x6000, 0x0302] [0x0102, 0x0304], .endOp .ok], true, true) := by decide

/-- T6 -/
theorem test_wdata :
    (nextOf (exec (.wdata 0x1224) (powerOn (okSlots 9)))).map (fun t => wireBytesOf t.trace) =
      some [0x00, 0x00, 0x12, 0x24] := by decide

/-- T16: the counter wraps. -/
theorem test_wdata_timeout_wraps :
    (nextOf (exec (.wdata 0) { powerOn (quietSlots 9) with tmo := 0xFFFFFFFF })).map (fun t => (t.tmo, t.resp)) =
      some (0, okWith .none) := by decide

/-- T11 -/
theorem test_wwords_chunks :
    sentAndResult (.wwords [1, 2, 3] 1) (powerOn (okSlots 20)) = some ([[0, 1], [0, 2], [0, 3]], okWith .none) := by decide

/-- T10 with small numbers: five words in chunks of two, and the second chunk times out. -/
theorem test_wwords_timeout :
    (nextOf (exec (.wwords [1, 2, 3, 4, 5] 2) (powerOn (okSlots 3 ++ quietSlots 3 ++ okSlots 9)))).map
        (fun t => (sentOf t.trace, t.tmo)) = some ([[0, 1, 2], [0, 3, 4], [0, 5]], 1) := by decide

/-- T12 -/
theorem test_rwords :
    sentAndResult (.rwords 2) { powerOn (okSlots 9) with rx := [0, 0, 0, 0, 0xBE, 0xEF, 0x00, 0x01] } =
      some ([[0x1000, 0, 0, 0]], okWith (.words [0xBEEF, 0x0001])) := by decide

/-- T13 -/
theorem test_rwords_none :
    sentAndResult (.rwords 0) { powerOn (okSlots 9) with rx := [0, 0, 0, 0] } = some ([[0x1000, 0]], okWith (.words [])) := by
  decide

/-- T14, with DeviceInfo held before. -/
theorem test_hwreset :
    (nextOf (exec .hwreset { configuredOn 8 2 false with hrdy := true, hprev := true, script := quietSlots 9 })).map
        (fun t => ((t.trace, t.info, t.tmo), t.infoValid, t.configured, t.rma, t.asleep)) =
      some (([Event.op .hwreset, .sigResetN false, .delay .resetLow, .sigResetN true, .delay .postReset, .endOp .ok], none, 0),
        false, false, true, false) := by decide

/-- T15, the first part: the timeout of a startup wait whose level is 1 (R157 allows both). -/
theorem test_hwreset_timeout :
    (nextOf (exec .hwreset { powerOn (quietSlots 5 ++ [⟨[.pin true], true⟩] ++ quietSlots 1) with tmo := 0 })).map
        (fun t => (t.tmo, t.trace.contains (.timeout .reset))) = some (1, true) := by decide

/-- T15, the second part. -/
theorem test_rdstat :
    sentAndResult .rdstat { powerOn (quietSlots 1) with tmo := 1 } =
      some ([], okWith (.status 1 false false true false)) := by decide

/-- T17 to T20: an idle step in which the edge agent samples twice. -/
theorem test_edge_agent :
    (nextOf (step { powerOn [⟨[.edge, .pin true, .edge], false⟩] with hprev := true })).map
        (fun t => (t.rdy, t.hprev, t.trace)) = some (true, true, [Event.edge]) ∧
    (nextOf (step { powerOn [⟨[.edge], false⟩] with hrdy := true, hprev := true })).map
        (fun t => (t.rdy, t.hprev, t.trace)) = some (false, true, []) := by decide

/-! ### Pixel packer (section 3) -/

/-- The result of a packing operation. -/
def packed (i : Instr) : Option (Option Response) := (nextOf (exec i (powerOn (quietSlots 1)))).map fun t => t.resp

/-- K12 -/
theorem test_pack2 :
    packed (.pack2 [0x00, 0x40, 0x80, 0xC0, 0xFF, 0x3F, 0x7F, 0xBF]) = some (okWith (.words [0x93E4])) := by decide

/-- K13, K14 -/
theorem test_pack2_ends :
    packed (.pack2 [0xC0, 0, 0, 0, 0, 0, 0, 0, 0, 0, 0, 0, 0, 0, 0, 0xC0]) = some (okWith (.words [0x0003, 0xC000])) := by
  decide

/-- K10 -/
theorem test_pack3_mask_first : packed (.pack3 [0xFF, 0x1F, 0xE0, 0x21]) = some (okWith (.words [0x2E1F])) := by decide

/-- K11 -/
theorem test_pack3_shift_first :
    (nextOf (exec (.pack3 [0xFF, 0x1F, 0xE0, 0x21])
        { powerOn (quietSlots 1) with params := { pack3 := .shiftFirst } })).map (fun t => t.resp) =
      some (okWith (.words [0x2E0E])) := by decide

/-- S1 (the source's own example) -/
theorem test_pack4 :
    packed (.pack4 [0x00, 0x10, 0x20, 0x30, 0x40, 0x50, 0x60, 0x70, 0x80, 0x90, 0xA0, 0xB0, 0xC0, 0xD0, 0xE0, 0xF0]) =
      some (okWith (.words [0x3210, 0x7654, 0xBA98, 0xFEDC])) := by decide

/-- K18, K7: the operand check comes before the packing check. -/
theorem test_pack4_faults :
    faultOf (.pack4 [0x100, 0, 0]) (powerOn []) = halts (.operand .pix) 0x12 ∧
    faultOf (.pack4 [1, 2, 3]) (powerOn []) = halts (.packMisaligned 3 4) 0x12 := by decide

/-- K2 -/
theorem test_pack8 : packed (.pack8 [0x00, 0xFF, 0x80, 0x7F]) = some (okWith (.words [0xFF00, 0x7F80])) := by decide

/-- K3 -/
theorem test_pack8_misaligned : faultOf (.pack8 [0x12]) (powerOn []) = halts (.packMisaligned 1 2) 0x13 := by decide

/-- R185, on the words of K5 and K10. -/
theorem test_unpack :
    unpackWord .bpp4 0xDCBA = [0xA0, 0xB0, 0xC0, 0xD0] ∧ unpackWord .bpp3 0x2E1F = [0xE0, 0x00, 0xE0, 0x20] := by decide

/-! ### Protocol engine (sections 4 and 5) -/

/-- V28 -/
theorem test_qinfo :
    (nextOf (exec .qinfo { powerOn (okSlots 20) with rx := List.replicate 4 0 ++ replyBytes })).map
        (fun t => (sentOf t.trace, t.infoValid, t.info.map fun d => (d.panelW, d.panelH, d.imgAddr))) =
      some ([[0x6000, 0x0302], 0x1000 :: List.replicate 21 0], true, some (800, 600, 0x001136E0)) := by decide

/-- V28, the version strings. -/
theorem test_qinfo_strings :
    (nextOf (exec .qinfo { powerOn (okSlots 20) with rx := List.replicate 4 0 ++ replyBytes })).map (fun t => t.resp) =
      some (okWith (.info 800 600 0x001136E0 (['v', '1', '.', '0'] ++ List.replicate 12 (Char.ofNat 0))
        (['M', '8', '4', '1'] ++ List.replicate 12 (Char.ofNat 0)))) := by decide

/-- V1 -/
theorem test_rdreg :
    sentAndResult (.rdreg 0x1224) { configuredOn 8 2 true with rx := List.replicate 12 0xEE ++ [0x12, 0x34] } =
      some ([[0x6000, 0x0010], [0, 0x1224], [0x1000, 0, 0]], okWith (.word 0x1234)) := by decide

/-- E2 -/
theorem test_rdreg_unconfigured :
    faultOf (.rdreg 0x1224) (powerOn []) = halts (.precond .notConfigured) 0x21 := by decide

/-- V2 -/
theorem test_wrreg :
    sentAndResult (.wrreg 0x0004 0x0001) (configuredOn 8 2 true) =
      some ([[0x6000, 0x0011], [0, 0x0004], [0, 0x0001]], okWith .none) := by decide

/-- V3 -/
theorem test_getvcom :
    sentAndResult .getvcom { configuredOn 8 2 true with rx := List.replicate 12 0 ++ [0x05, 0xDC] } =
      some ([[0x6000, 0x0039], [0, 0], [0x1000, 0, 0]], okWith (.volts (-3 / 2))) := by decide +kernel

/-- V4, V5, V6 -/
theorem test_getvcom_volts :
    voltsOf 0xFFFF = 1 / 1000 ∧ voltsOf 0x8000 = 32768 / 1000 ∧ voltsOf 0x1387 = -4999 / 1000 := by decide +kernel

/-- V7 -/
theorem test_setvcom :
    sentAndResult (.setvcom (-3 / 2)) (configuredOn 8 2 true) =
      some ([[0x6000, 0x0039], [0, 1], [0, 0x05DC]], okWith .none) := by decide +kernel

/-- V12 to V14, and E3: the flags are checked before the voltage. -/
theorem test_setvcom_range :
    sentAndResult (.setvcom (-5)) (configuredOn 8 2 true) = some ([], some ⟨.config, .rejected (-5)⟩) ∧
    sentAndResult (.setvcom 0) (configuredOn 8 2 true) = some ([], some ⟨.config, .rejected 0⟩) ∧
    faultOf (.setvcom (-7)) (powerOn []) = halts (.precond .notConfigured) 0x24 := by decide +kernel

/-- V8 to V11 -/
theorem test_vcom_words :
    vcomWord (-23 / 10) = 0x08FC ∧ vcomWord (-1001 / 1000) = 0x03E9 ∧ vcomWord (-49999 / 10000) = 0x1387 ∧
    vcomWord (-4 / 10000) = 0x0000 := by decide +kernel

/-- V15 -/
theorem test_loadimg_full :
    sentAndResult (.loadimgFull 4 0 sixteen) (configuredOn 8 2 false) =
      some ([[0x6000, 0x0020], [0, 0x0020], [0, 0x3210, 0x7654, 0xBA98, 0xFEDC], [0x6000, 0x0022]], okWith .none) := by
  decide

/-- E11: PIXEL_COUNT is found before the packing check; E5. -/
theorem test_loadimg_full_faults :
    faultOf (.loadimgFull 4 0 (sixteen.take 15)) (configuredOn 8 2 false) = halts (.precond .pixelCount) 0x25 ∧
    faultOf (.loadimgFull 4 0 sixteen) (configuredOn 8 2 true) = halts (.precond .refreshMayBeActive) 0x25 := by decide

/-- V16, V17, V18 -/
theorem test_load_arguments :
    loadArg Params.default 8 2 = 0x0032 ∧ loadArg Params.default 2 1 = 0x0001 ∧ loadArg Params.default 3 3 = 0x0013 := by
  decide

/-- V19 -/
theorem test_loadimg_area :
    sentAndResult (.loadimgArea 8 0 (some (4, 0)) (some (4, 2)) eight) (configuredOn 8 2 false) =
      some ([[0x6000, 0x0021], [0, 0x0030], [0, 4], [0, 0], [0, 4], [0, 2], [0, 0x2010, 0x4030, 0x6050, 0x8070],
        [0x6000, 0x0022]], okWith .none) := by decide

/-- V21, E12, E14 -/
theorem test_loadimg_area_faults :
    faultOf (.loadimgArea 4 0 (some (4, 0)) none sixteen) (configuredOn 8 2 false) =
      halts (.precond .areaOutOfPanel) 0x26 ∧
    faultOf (.loadimgArea 4 0 (some (8, 4)) (some (1, 1)) [7]) (configuredOn 9 5 false) = halts (.packMisaligned 1 4) 0x26 ∧
    faultOf (.loadimgArea 4 0 none none sixteen) (configuredOn 8 2 false) = halts (.operand .origin) 0x26 := by decide

/-- V23 -/
theorem test_dpyarea :
    (nextOf (exec (.dpyarea 0 0 800 600 2) (configuredOn 800 600 false))).map (fun t => (sentOf t.trace, t.rma)) =
      some ([[0x6000, 0x0034], [0, 0], [0, 0], [0, 0x0320], [0, 0x0258], [0, 2]], true) := by decide

/-- E6, E7, E9, E10; E8 is accepted. -/
theorem test_dpyarea_checks :
    faultOf (.dpyarea 8 0 4 2 2) (configuredOn 8 2 false) = halts (.precond .areaOutOfPanel) 0x27 ∧
    faultOf (.dpyarea 2 0 4 2 2) (configuredOn 8 2 false) = halts (.precond .areaMisaligned) 0x27 ∧
    faultOf (.dpyarea 0 0 4 2 9) (configuredOn 8 2 false) = halts (.operand .mode) 0x27 ∧
    operandFault Params.default (.dpyarea 0 0 0 2 2) = some .w ∧
    rectReason Params.default ⟨8, 2, 0, noVersion, noVersion⟩ 0 0 4 2 = none := by
  refine ⟨by decide, by decide, by decide, by decide, by decide⟩

/-- V25 -/
theorem test_waitdpy :
    (nextOf (exec .waitdpy { configuredOn 8 2 true with rx := List.replicate 14 0 })).map
        (fun t => (sentOf t.trace, t.rma, t.seq)) =
      some ([[0x6000, 0x0010], [0, 0x1224], [0x1000, 0, 0]], false, .idle) := by decide

/-- V24, its first poll: the delay, and BUSY at the next poll with RMA kept. -/
theorem test_waitdpy_busy :
    (nextOf (exec .waitdpy { configuredOn 8 2 true with rx := List.replicate 13 0 ++ [1] })).map
        (fun t => (delaysOf t.trace, t.rma, t.seq, t.resp)) =
      some ([.poll], true, .busy 0x28 (pollActs Params.default), none) := by decide

/-- V26, E19 -/
theorem test_sleep :
    (nextOf (exec .sleep (configuredOn 8 2 false))).map (fun t => (sentOf t.trace, t.asleep)) =
      some ([[0x6000, 0x0003]], true) ∧
    faultOf .sleep (configuredOn 8 2 true) = halts (.precond .refreshMayBeActive) 0x29 := by decide

/-- V27, E17 -/
theorem test_wake :
    (nextOf (exec .wake { configuredOn 8 2 true with asleep := true })).map (fun t => (sentOf t.trace, t.asleep, t.rma)) =
      some ([[0x6000, 0x0001]], false, true) ∧
    faultOf (.rdreg 0x1224) { configuredOn 8 2 false with asleep := true } = halts (.precond .asleep) 0x21 := by decide

/-- P1 -/
theorem test_init :
    (nextOf (exec (.init (-3 / 2)) { powerOn (okSlots 64) with rx := List.replicate 8 0 ++ replyBytes })).map
        (fun t => (sentOf t.trace, t.configured, t.rma, t.tmo)) =
      some ([[0x6000, 0x0001], [0x6000, 0x0302], 0x1000 :: List.replicate 21 0, [0x6000, 0x0011], [0, 0x020A], [0, 0x0011],
        [0x6000, 0x0011], [0, 0x0208], [0, 0x36E0], [0x6000, 0x0011], [0, 4], [0, 1], [0x6000, 0x0039], [0, 1],
        [0, 0x05DC]], true, true, 0) := by decide +kernel

/-- E16, E15 -/
theorem test_init_checks :
    (nextOf (exec (.init 0) (powerOn []))).map (fun t => (t.trace, t.configured, t.seq)) =
      some ([Event.op (.init 0), .endOp .config], false, .idle) ∧
    faultOf (.init (-3 / 2)) (configuredOn 8 2 true) = halts (.precond .alreadyConfigured) 0x2F := by decide +kernel

/-! ### Wire rows: each sends its own words (30_encoding.md R103, R105, R106) -/

/-- The words one wire row sends. -/
def sends (i : Instr) : Option (List (List Word)) := (nextOf (exec i (powerOn (okSlots 3)))).map fun t => sentOf t.trace

theorem test_wire_commands :
    sends .cmdSysRun = some [[0x6000, 0x0001]] ∧ sends .cmdSleep = some [[0x6000, 0x0003]] ∧
    sends .cmdRegRd = some [[0x6000, 0x0010]] ∧ sends .cmdRegWr = some [[0x6000, 0x0011]] ∧
    sends .cmdLdImg = some [[0x6000, 0x0020]] ∧ sends .cmdLdImgArea = some [[0x6000, 0x0021]] ∧
    sends .cmdLdImgEnd = some [[0x6000, 0x0022]] ∧ sends .cmdDpyArea = some [[0x6000, 0x0034]] ∧
    sends .cmdVcom = some [[0x6000, 0x0039]] ∧ sends .cmdGetDevInfo = some [[0x6000, 0x0302]] := by decide

theorem test_wire_frames :
    sends (.frameData [0x1224, 1]) = some [[0, 0x1224, 1]] ∧ sends (.frameRead 20) = some [0x1000 :: List.replicate 21 0] ∧
    sends (.ldarg 1 2 3) = some [[0, 0x0123]] := by decide

/-! ### Steps -/

/-- E1: an illegal opcode halts the block. -/
theorem test_step_illegal :
    (nextOf (step { powerOn (okSlots 1) with requests := [⟨0x08, {}⟩] })).map (fun t => (t.faults, t.seq, t.resp)) =
      some ([⟨.illegalOp, 0x08⟩], .halted, none) := by decide

/-- E21 -/
theorem test_step_halted :
    step { powerOn [] with seq := .halted } = .fault .halted ∧
    exec .rdstat { powerOn [] with seq := .halted } = .fault .halted := ⟨rfl, rfl⟩

/-- A request is taken from the queue and run. -/
theorem test_step_request :
    (nextOf (step { powerOn (okSlots 9) with requests := [⟨0x03, { w := some 7 }⟩, ⟨0x07, {}⟩] })).map
        (fun t => (sentOf t.trace, t.requests)) = some ([[0, 7]], [⟨0x07, {}⟩]) := by decide

/-- R232: inside WAITDPY's loop a step sends the next frame. -/
theorem test_step_leg :
    (nextOf (step { powerOn (okSlots 3) with seq := .busy 0x28 (pollActs Params.default) })).map (fun t => sentOf t.trace) =
      some [[0x6000, 0x0010]] := by decide

/-- A word placed where the next step takes it. -/
theorem test_with_fetch_word :
    (nextOf (step ((powerOn (okSlots 9)).withFetchWord 32 0x60000034))).map (fun t => sentOf t.trace) =
      some [[0x6000, 0x0034]] ∧
    (nextOf (step ((powerOn (okSlots 9)).withFetchWord 8 0x03))).map (fun t => sentOf t.trace) = some [[0, 0]] := by decide

/-- R300: the numbers of the cause codes and of some reasons. -/
theorem test_codes :
    EndStatus.config.code = some 1 ∧ Status.config.code = some 1 ∧ (Event.timeout .data).code = some 2 ∧
    (Event.timeout .reset).code = some 2 ∧ (Cause.precond .asleep).code = 3 ∧ (Cause.packMisaligned 1 2).code = 4 ∧
    (Cause.operand .w).code = 5 ∧ Cause.illegalOp.code = 6 ∧ Reason.pixelCount.number = 10 := by decide

/-! ### Assembler (30_encoding.md R123, R124) -/

theorem test_assemble :
    assemble "RDREG 0x1224".toList = some ⟨0x21, { addr := some 0x1224 }⟩ ∧
    assemble "WCMD 0x0302, 1".toList = some ⟨0x02, { code := some 0x0302, wait := some 1 }⟩ := by decide

theorem test_assemble_rational :
    assemble "SETVCOM -1.5".toList = some ⟨0x24, { v := some (-3 / 2) }⟩ := by decide +kernel

theorem test_assemble_area :
    assemble ("LOADIMG.AREA bpp=8, rot=0, origin=(4,0), dims=(4,2), ".toList ++ openBrace :: "16, 32".toList ++ [closeBrace]) =
      some ⟨0x26, { bpp := some 8, rot := some 0, origin := some (4, 0), dims := some (4, 2), pix := some [16, 32] }⟩ := by
  decide

theorem test_assemble_load :
    assembleLoad [1] 2 none none = .loadimgFull 4 2 [1] ∧
    assembleLoad [1] 2 none (some (1, 1)) = .loadimgArea 4 2 none (some (1, 1)) [1] := by decide

theorem test_pseudo :
    setBase Params.default 0x001136E0 = [.wrreg 0x020A 0x0011, .wrreg 0x0208 0x36E0] ∧
    enPacked Params.default = [.wrreg 4 1] ∧ cmdArgsOps 0x39 [1, 2] = [.wcmd 0x39 1, .wdata 1, .wdata 2] := by decide

/-! ### Host model (section 6, S2, S3, P5) -/

/-- H1, H3, H4, H5, H6 -/
theorem test_boxes :
    Box.round 4 ⟨10, 10, 11, 11⟩ = ⟨8, 8, 12, 12⟩ ∧ Box.round 4 ⟨0, 0, 1, 1⟩ = ⟨0, 0, 4, 4⟩ ∧
    Box.round 4 ⟨3, 3, 5, 5⟩ = ⟨0, 0, 8, 8⟩ ∧ Box.rc 4 10 6 ⟨9, 5, 10, 6⟩ = ⟨8, 4, 10, 6⟩ ∧
    Box.rc 4 10 6 ⟨8, 4, 10, 6⟩ = ⟨8, 4, 10, 6⟩ := by decide

/-- H7, H8, H9 -/
theorem test_merge :
    mergeBox none none = none ∧ mergeBox (some ⟨0, 0, 4, 4⟩) (some ⟨8, 8, 12, 12⟩) = some ⟨0, 0, 12, 12⟩ ∧
    mergeBox (some ⟨0, 0, 4, 4⟩) none = some ⟨0, 0, 4, 4⟩ := by decide

/-- S2, S3 on smaller buffers. -/
theorem test_bboxdiff :
    bboxdiff 3 2 [1, 2, 3, 4, 5, 6] [1, 2, 3, 4, 5, 6] = none ∧
    bboxdiff 3 2 [1, 2, 3, 4, 5, 6] [1, 2, 3, 4, 9, 6] = some ⟨1, 1, 2, 2⟩ := by decide

/-- H10, H12, H13 -/
theorem test_pixels :
    [127, 128, 0, 255].map (quantise Params.default) = [0x00, 0xFF, 0x00, 0xFF] ∧
    view { rot180 := true } 3 2 [1, 2, 3, 4, 5, 6] = [6, 5, 4, 3, 2, 1] ∧
    crop 4 [0, 1, 2, 3, 4, 5, 6, 7] ⟨1, 0, 3, 2⟩ = [1, 2, 5, 6] := by decide

/-- H15 on a small panel. -/
theorem test_clear :
    clear Params.default ⟨4, 2, [1, 2, 3, 4, 5, 6, 7, 8], some [0, 0, 0, 0, 0, 0, 0, 0], some ⟨0, 0, 4, 2⟩⟩ =
      ([.waitdpy, .loadimgFull 4 0 (List.replicate 8 255), .dpyarea 0 0 4 2 0],
        ⟨4, 2, List.replicate 8 255, some (List.replicate 8 255), none⟩) := by decide

/-- P5's fast update: pixel (5, 1) of a white 16 by 8 panel turned to 0x40. -/
theorem test_draw_partial :
    (drawPartial Params.default 1
        ⟨16, 8, List.replicate 21 255 ++ [0x40] ++ List.replicate 106 255, some (List.replicate 128 255), none⟩).1 =
      [.waitdpy, .loadimgArea 4 0 (some (4, 0)) (some (4, 4)) (List.replicate 5 255 ++ [0] ++ List.replicate 10 255),
        .dpyarea 4 0 4 4 1] := by decide +kernel

/-- R274: E_CONFIG ends construction with no state; INIT of P1 leaves the panel's. -/
theorem test_construct :
    runConstruct 0 (powerOn []) = none ∧
    runConstruct (-3 / 2) { powerOn (okSlots 64) with rx := List.replicate 12 0 ++ [0, 8, 0, 2] ++ List.replicate 72 0 } =
      some ⟨8, 2, List.replicate 16 0xFF, none, none⟩ := by decide +kernel

/-- R275: any array of the buffer's size, and no other. -/
theorem test_draw_externally :
    drawExternally [1, 2] ⟨2, 1, [0, 0], none, none⟩ = ⟨2, 1, [1, 2], none, none⟩ ∧
    drawExternally [1] ⟨2, 1, [0, 0], none, none⟩ = ⟨2, 1, [0, 0], none, none⟩ := by decide

/-! ### Witnesses: the hypotheses of each statement can be met (by statement, each clause at the ends of its range) -/

/-- A block inside WAITDPY, at the start of a round of its poll loop, whose next status is `status`. -/
def polling (status : Byte) : State :=
  { configuredOn 8 2 true with seq := .busy 0x28 (pollActs Params.default), rx := List.replicate 13 0 ++ [status] }

/-- Something runs: the outcome is a next state. -/
def runs (o : Host.Outcome State Fault Refusal) : Bool := (nextOf o).isSome

theorem runs_next {o : Host.Outcome State Fault Refusal} (h : runs o = true) : ∃ t, o = .next t := by
  cases o with
  | next t => exact ⟨t, rfl⟩
  | fault f => cases h
  | refused r => cases h

theorem configured_inv (rma : Bool) : (configuredOn 8 2 rma).Inv := by
  refine ⟨?_, ?_, ?_, ?_, ?_, ?_, ?_, ?_, ?_⟩ <;> cases rma <;> decide

theorem polling_inv : (polling 0).Inv := by
  refine ⟨?_, ?_, ?_, ?_, ?_, ?_, ?_, ?_, ?_⟩ <;> decide

/-- O3, in IDLE and BUSY. -/
theorem witness_StepKeepsInvariant :
    ((configuredOn 8 2 true).Inv ∧ ∃ t, step (configuredOn 8 2 true) = .next t) ∧
    ((polling 0).Inv ∧ ∃ t, step (polling 0) = .next t) :=
  ⟨⟨configured_inv true, runs_next (by decide)⟩, ⟨polling_inv, runs_next (by decide)⟩⟩

/-- O4, O5, O20, O22, O56: by a step and by an instruction. -/
theorem witness_next_states :
    (∃ t, step (configuredOn 8 2 true) = .next t) ∧
    (∃ t, exec (.wdata 7) { configuredOn 8 2 true with rx := [1, 2, 3, 4] } = .next t) :=
  ⟨runs_next (by decide), runs_next (by decide)⟩

/-- O6: HALTED with nothing scripted, and with something; BUSY and a host operation. -/
theorem witness_HaltedAndBusyAcceptNothing :
    (∃ s : State, s.seq = .halted ∧ s.script = []) ∧ (∃ s : State, s.seq = .halted ∧ s.script ≠ []) ∧
    (∃ (s : State) (opc : Byte) (todo : List Act) (i : Instr), s.seq = .busy opc todo ∧ i.opc?.isSome = true) :=
  ⟨⟨{ powerOn [] with seq := .halted }, rfl, rfl⟩, ⟨{ powerOn (okSlots 1) with seq := .halted }, rfl, by decide⟩,
    ⟨polling 0, 0x28, _, .rdstat, rfl, rfl⟩⟩

/-- O56, the clauses: a wait whose PRIME is followed by an edge, and one whose PRIME is not. -/
theorem witness_WaitsEndByEdges :
    (∃ t a w b, exec (.wdata 0) { powerOn (okSlots 9) with rx := [1, 2, 3, 4] } = .next t ∧
      newEvents { powerOn (okSlots 9) with rx := [1, 2, 3, 4] } t = a ++ [Event.prime] ++ b ++ [w] ++ [Event.edge, .edge, .endOp .ok] ∧
      w.isWaitEnd = true ∧ (∀ e ∈ b, e ≠ .prime ∧ e.isWaitEnd = false) ∧ Event.edge ∈ b) ∧
    (∃ t a w b, exec (.wdata 0) { powerOn (quietSlots 9) with rx := [1, 2, 3, 4] } = .next t ∧
      newEvents { powerOn (quietSlots 9) with rx := [1, 2, 3, 4] } t = a ++ [Event.prime] ++ b ++ [w] ++ [Event.endOp .ok] ∧
      w.isWaitEnd = true ∧ (∀ e ∈ b, e ≠ .prime ∧ e.isWaitEnd = false) ∧ Event.edge ∉ b) :=
  ⟨⟨_, [.op (.wdata 0), .edge], .awaitOk, [.edge, .frame [0, 0] [0x0102, 0x0304], .edge], rfl, by decide, by decide, by decide,
      by decide⟩,
    ⟨_, [.op (.wdata 0)], .timeout .data, [.frame [0, 0] [0x0102, 0x0304]], rfl, by decide, by decide, by decide, by decide⟩⟩

/-- O7: E2. -/
theorem witness_FaultsComeBeforeTraffic :
    ∃ t, exec (.rdreg 0x1224) (powerOn []) = .next t ∧ t.seq = .halted ∧ (Instr.rdreg 0x1224).opc?.isSome = true :=
  ⟨_, rfl, rfl, rfl⟩

/-- O8 -/
theorem witness_StepRunsTheRequest :
    ∃ (s : State) (r : HostReq) (i : Instr), s.seq = .idle ∧ s.requests = [r] ∧ decodeHost s.params r = .ok i :=
  ⟨{ powerOn [] with requests := [⟨0x07, {}⟩] }, _, .rdstat, rfl, rfl, rfl⟩

/-- O9: a frame, and a load's argument word. -/
theorem witness_StepRunsTheLeg :
    (∃ (s : State) (opc : Byte) (ws : List Word) (rest : List Act) (i : Instr),
      s.seq = .busy opc (gated (.xfer ws) ++ rest) ∧ decodeWire s.params (.frame ws) = .ok i) ∧
    (∃ (s : State) (opc : Byte) (w : Word) (rest : List Act) (i : Instr),
      s.seq = .busy opc (gated (.xferArg w) ++ rest) ∧ decodeWire s.params (.loadArg w) = .ok i) :=
  ⟨⟨{ powerOn [] with seq := .busy 0x02 (gated (.xfer [0x6000, 0x0001])) }, 0x02, _, [], .cmdSysRun, rfl, by decide⟩,
    ⟨{ powerOn [] with seq := .busy 0x25 (gated (.xferArg 0x0020)) }, 0x25, _, [], .ldarg 0 2 0, rfl, by decide⟩⟩

/-- O10, O21 (the two clauses), O28, O29: IDLE; a rising edge and none. -/
theorem witness_idle :
    (∃ s : State, s.seq = .idle ∧ s.requests = [] ∧ nextSlot s = ⟨[.edge], false⟩ ∧ s.hrdy = true ∧ s.hprev = false) ∧
    (∃ s : State, s.seq = .idle ∧ s.requests = [] ∧ nextSlot s = ⟨[.edge], false⟩ ∧ ¬(s.hrdy = true ∧ s.hprev = false)) :=
  ⟨⟨{ powerOn [⟨[.edge], false⟩] with hrdy := true }, rfl, rfl, rfl, rfl, rfl⟩, ⟨powerOn [⟨[.edge], false⟩], rfl, rfl, rfl, by decide⟩⟩

/-- O11: all legal parameters, and instructions at the ends of their ranges. -/
theorem witness_DecodeEncodeAgree :
    Params.default.wf = true ∧ Instr.wf Params.default (.xfer [0, 65535]) = true ∧
    Instr.wf Params.default (.wwords [] 65535) = true ∧ Instr.wf Params.default (.dpyarea 65535 0 65535 1 7) = true ∧
    Instr.wf Params.default (.loadimgArea 8 3 none (some (1, 65535)) [255]) = true ∧
    Instr.wf Params.default (.frameRead 65535) = true ∧ Instr.wf Params.default (.ldarg 1 3 3) = true := by decide

/-- O13: the ends of the reserved ranges. -/
theorem witness_ReservedOpcodesFault :
    (∃ (s : State) (r : HostReq), s.seq = .idle ∧ s.requests = [r] ∧ reservedOpcode r.opc) ∧
    ∀ b ∈ [(0x00 : Byte), 0x08, 0x0F, 0x14, 0x1F, 0x2B, 0x2E, 0x30, 0xFF], reservedOpcode b :=
  ⟨⟨{ powerOn [] with requests := [⟨0x08, {}⟩] }, _, rfl, rfl, by unfold reservedOpcode; decide⟩, by
    unfold reservedOpcode; decide⟩

/-- O57: the first of several operands left out, and the last; and all of them given. -/
theorem witness_MissingOperandsFault :
    (∃ (s : State) (r : HostReq), s.seq = .idle ∧ s.requests = [r] ∧ neededOperands r.opc = [] ++ .x :: [.y, .w, .h, .mode] ∧
      givesOperand r.operands .x = false) ∧
    (∃ (r : HostReq), neededOperands r.opc = [.addr] ++ .value :: [] ∧ (∀ n ∈ [OperandName.addr], givesOperand r.operands n = true) ∧
      givesOperand r.operands .value = false) ∧
    (∃ (r : HostReq), ¬reservedOpcode r.opc ∧ ∀ n ∈ neededOperands r.opc, givesOperand r.operands n = true) :=
  ⟨⟨{ powerOn [] with requests := [⟨0x27, { y := some 0 }⟩] }, _, rfl, rfl, rfl, rfl⟩,
    ⟨⟨0x22, { addr := some 0 }⟩, rfl, by decide, rfl⟩, ⟨⟨0x21, { addr := some 0 }⟩, by unfold reservedOpcode; decide, by decide⟩⟩

/-- O14, the fault clause: the first operand out of range with one in range before it and one out of range after it. -/
theorem witness_OperandRanges_first :
    ∃ pre post ok, operandRanges Params.default (.dpyarea 0 0 0 65536 2) = pre ++ (.w, ok) :: post ∧ (∀ e ∈ pre, e.2) ∧ ¬ok :=
  ⟨[(.x, inWord 0), (.y, inWord 0)], [(.h, inSize 65536), (.mode, _)], inSize 0, rfl, by simp [inWord], by simp [inSize]⟩

/-- O14, O15, O16: operands out of range and at the ends of their ranges. -/
theorem witness_OperandRanges :
    (∃ (i : Instr) (s : State), i.opc?.isSome = true ∧ s.seq = .idle ∧ operandFault s.params i = some .mode) ∧
    (inBpp 2 ∧ inBpp 8 ∧ inWord 0 ∧ inWord 65535 ∧ ¬inSize 0 ∧ ¬inSize 65536 ∧ 0 < [(7 : Word)].length) :=
  ⟨⟨.dpyarea 0 0 4 2 8, powerOn [], rfl, rfl, by decide⟩, by unfold inBpp inWord inSize; decide⟩

/-- O17: a load of an area with one payload transaction, and one of the panel with none. -/
theorem witness_TracesDecode :
    Params.default.wf = true ∧ inBpp 4 ∧ (∀ c ∈ [[(0xFFFF : Word)]], c ≠ []) ∧
    (∃ tr : List (List Word × List Word), tr.map Prod.fst =
      [[0x6000, Params.default.cmdLdImgArea], [0x0000, loadArg Params.default 4 3]] ++
        ([4, 0, 4, 2] : List Word).map (fun a => [0x0000, a]) ++ [[(0xFFFF : Word)]].map (0x0000 :: ·) ++
        [[0x6000, Params.default.cmdLdImgEnd]]) ∧
    (∃ tr : List (List Word × List Word), tr.map Prod.fst =
      [[0x6000, Params.default.cmdLdImg], [0x0000, loadArg Params.default 2 0]] ++ ([] : List Word).map (fun a => [0x0000, a]) ++
        ([] : List (List Word)).map (0x0000 :: ·) ++ [[0x6000, Params.default.cmdLdImgEnd]]) :=
  ⟨by decide, by unfold inBpp; decide, by decide,
    ⟨[([0x6000, 0x0021], []), ([0, 0x0023], []), ([0, 4], []), ([0, 0], []), ([0, 4], []), ([0, 2], []), ([0, 0xFFFF], []),
      ([0x6000, 0x0022], [])], by decide⟩,
    ⟨[([0x6000, 0x0020], []), ([0, 0], []), ([0x6000, 0x0022], [])], by decide⟩⟩

/-- O18, O19: IDLE and BUSY are not HALTED. -/
theorem witness_wire : (powerOn []).seq ≠ .halted ∧ (polling 0).seq ≠ .halted := by decide

/-- O23: the empty and the largest words, and one out of range. -/
theorem witness_XferExchangesWords :
    (powerOn []).seq = .idle ∧ (∀ w ∈ ([] : List Int), inWord w) ∧ (∀ w ∈ [(0 : Int), 65535], inWord w) ∧
    ¬(∀ w ∈ [(65536 : Int)], inWord w) := by unfold inWord; decide

/-- O24, O25, O27, and their faulting clauses. -/
theorem witness_words :
    (powerOn []).seq = .idle ∧ inWord 0 ∧ inWord 65535 ∧ ¬inWord (-1) ∧ ¬inWord 65536 := by unfold inWord; decide

/-- O26, each clause. -/
theorem witness_WwordsSendsChunks :
    (powerOn []).seq = .idle ∧ ((∀ w ∈ [(65535 : Int)], inWord w) ∧ inSize 1 ∧ inSize 65535) ∧
    ¬(∀ w ∈ [(-1 : Int)], inWord w) ∧ ((∀ w ∈ ([] : List Int), inWord w) ∧ ¬inSize 0) := by
  unfold inWord inSize; decide

/-- O30, each clause. -/
theorem witness_PackOperations :
    (∀ q ∈ packOps, q.2.1.group ∣ ([] : List Int).length) ∧ inPixels [0, 255] ∧ ¬inPixels [256] ∧
    (inPixels [1] ∧ [(1 : Int)].length % PixelFormat.bpp8.group ≠ 0) ∧ (powerOn []).seq = .idle := by
  unfold inPixels packOps; decide

/-- O31: the first and the last word of two. -/
theorem witness_PackedWords :
    8 * 0 + 7 < (List.replicate 16 (1 : Byte)).length ∧ 8 * 1 + 7 < (List.replicate 16 (1 : Byte)).length ∧
    4 * 1 + 3 < (List.replicate 8 (1 : Byte)).length ∧ 2 * 1 + 1 < (List.replicate 4 (1 : Byte)).length := by decide

/-- O32, O33. -/
theorem witness_packing :
    (powerOn []).seq = .idle ∧ (powerOn []).params.pack3 = .maskFirst ∧ inPixels [0x10, 0x30, 0x50, 0x70] ∧
    [(0x10 : Int), 0x30, 0x50, 0x70].length % 4 = 0 ∧ [(1 : Byte), 2].length % PixelFormat.bpp8.group = 0 := by
  unfold inPixels; decide

/-- O34: each column in turn, QINFO's own, INIT's. -/
theorem witness_ProtocolPreconditions :
    (∃ (i : Instr) (s : State) (q : Bool × Bool × Bool), s.seq = .idle ∧ operandsInRange s.params i ∧ flagColumns i = some q ∧
      q.1 = true ∧ s.configured = false) ∧
    (∃ (i : Instr) (s : State) (q : Bool × Bool × Bool), s.seq = .idle ∧ operandsInRange s.params i ∧ flagColumns i = some q ∧
      s.configured = true ∧ q.2.1 = true ∧ s.asleep = true) ∧
    (∃ (i : Instr) (s : State) (q : Bool × Bool × Bool), s.seq = .idle ∧ operandsInRange s.params i ∧ flagColumns i = some q ∧
      s.configured = true ∧ s.asleep = false ∧ q.2.2 = true ∧ s.rma = true) ∧
    ((configuredOn 8 2 true).seq = .idle ∧ (configuredOn 8 2 true).asleep = false ∧
      (configuredOn 8 2 true).infoValid = true ∧ (configuredOn 8 2 true).configured = true) :=
  ⟨⟨.sleep, powerOn [], _, rfl, trivial, rfl, rfl, rfl⟩,
    ⟨.getvcom, { configuredOn 8 2 true with asleep := true }, _, rfl, trivial, rfl, rfl, rfl, rfl⟩,
    ⟨.sleep, configuredOn 8 2 true, _, rfl, trivial, rfl, rfl, rfl, rfl, rfl⟩, by decide⟩

/-- O35 -/
theorem witness_QinfoReadsDeviceInfo :
    (powerOn []).seq = .idle ∧ (powerOn []).asleep = false ∧ (powerOn []).infoValid = false := by decide

/-- O36: the last word of a version. -/
theorem witness_VersionStrings : (⟨0, 0, 0, 0, 0, 0, 0, 0x4D38⟩ : VersionWords).toList[7]? = some 0x4D38 := by decide

/-- O37, O38, O39, O45, O49: a configured block that is awake; the next status zero and not. -/
theorem witness_ready :
    (configuredOn 8 2 true).seq = .idle ∧ (configuredOn 8 2 true).configured = true ∧
    (configuredOn 8 2 true).asleep = false ∧ inWord 0x1224 ∧
    nextStatus { configuredOn 8 2 true with rx := List.replicate 14 0 } = 0 ∧
    nextStatus { configuredOn 8 2 true with rx := List.replicate 13 0 ++ [1] } ≠ 0 := by unfold inWord; decide

/-- O40, O41, O50: voltages inside and at both ends of the range. -/
theorem witness_volts :
    ((-5 : Rat) < -49999 / 10000 ∧ (-49999 / 10000 : Rat) < 0) ∧ ((-5 : Rat) < -1 / 10000 ∧ (-1 / 10000 : Rat) < 0) ∧
    ((-5 : Rat) ≤ -5) ∧ (0 : Rat) ≤ 0 ∧ (powerOn []).configured = false ∧ (powerOn []).seq = .idle := by
  refine ⟨by norm_num, by norm_num, le_rfl, le_rfl, rfl, rfl⟩

/-- The DeviceInfo of a `w` by `h` panel in the tests. -/
def panel (w h : Word) : DeviceInfo := ⟨w, h, 0x001136E0, noVersion, noVersion⟩

theorem readyWith_panel (w h : Word) : ReadyWith (configuredOn w h false) (panel w h) := ⟨rfl, rfl, rfl, rfl, rfl, rfl⟩

/-- O42, each clause: 16 pixels on an 8 by 2 panel; an empty panel; 15 pixels; 9 pixels on a 3 by 3 panel. -/
theorem witness_LoadFullStreamsThePanel :
    ReadyWith (configuredOn 8 2 false) (panel 8 2) ∧ 1 ≤ (configuredOn 8 2 false).params.chunk ∧
    operandsInRange Params.default (.loadimgFull 4 0 sixteen) ∧
    (HasPixels (panel 8 2) ∧ sixteen.length = (panel 8 2).panelW.toNat * (panel 8 2).panelH.toNat ∧
      sixteen.length % (formatOf 4).group = 0) ∧
    ¬HasPixels (panel 0 2) ∧
    (sixteen.take 15).length ≠ (panel 8 2).panelW.toNat * (panel 8 2).panelH.toNat ∧
    (HasPixels (panel 3 3) ∧ (sixteen.take 9).length = (panel 3 3).panelW.toNat * (panel 3 3).panelH.toNat ∧
      (sixteen.take 9).length % (formatOf 4).group ≠ 0) := by
  refine ⟨readyWith_panel 8 2, by decide, ?_, ?_, ?_, ?_, ?_⟩ <;>
    (try unfold operandsInRange) <;> (try unfold HasPixels) <;> (try unfold inBpp inPixels) <;> decide

/-- O43, O44, each clause: rectangles on a 9 by 5 panel that fit exactly, that stick out, that are misaligned. -/
theorem witness_rectangles :
    (∃ origin dims, ReadyWith (configuredOn 9 5 false) (panel 9 5) ∧
      operandsInRange Params.default (.loadimgArea 8 3 origin dims [7]) ∧
      ((8 : Int), (4 : Int)) = origin.getD (0, 0) ∧ ((1 : Int), (1 : Int)) = dims.getD (9, 5)) ∧
    operandsInRange Params.default (.dpyarea 8 4 1 1 7) ∧
    (HasPixels (panel 9 5) ∧ InPanel (panel 9 5) 8 4 1 1 ∧ Aligned Params.default (panel 9 5) 8 4 1 1) ∧
    ¬HasPixels (panel 9 0) ∧ ¬InPanel (panel 9 5) 8 4 2 1 ∧ ¬InPanel (panel 9 5) 65535 0 1 1 ∧
    (InPanel (panel 9 5) 0 0 1 1 ∧ ¬Aligned Params.default (panel 9 5) 0 0 1 1) ∧
    (([7] : List Int).length : Int) = 1 * 1 ∧ ([7] : List Int).length % (formatOf 8).group ≠ 0 := by
  refine ⟨⟨some (8, 4), some (1, 1), readyWith_panel 9 5, ?_, rfl, rfl⟩, ?_, ?_, ?_, ?_, ?_, ?_, ?_, ?_⟩
  · refine ⟨by unfold inBpp; decide, by decide, ?_, ?_, by simp, by unfold inPixels; decide⟩ <;>
      · rintro q ⟨⟩; first | (unfold inWord; decide) | (unfold inSize; decide)
  all_goals
    try unfold operandsInRange inWord inSize
    try unfold HasPixels
    try unfold InPanel
    try unfold Aligned
    decide

/-- O43, the clauses left: a pixel count that differs, and a left-out origin and left-out dims. -/
theorem witness_LoadArea_defaults :
    (([7, 7] : List Int).length : Int) ≠ 1 * 1 ∧
    (operandsInRange Params.default (.loadimgArea 8 0 none (some (4, 5)) (sixteen.map id ++ [0, 0, 0, 0])) ∧
      ((0 : Int), (0 : Int)) = (none : Option (Int × Int)).getD (0, 0) ∧ ((4 : Int), (5 : Int)) = (some (4, 5)).getD (9, 5) ∧
      InPanel (panel 9 5) 0 0 4 5 ∧ Aligned Params.default (panel 9 5) 0 0 4 5) ∧
    (((9 : Int), (5 : Int)) = (none : Option (Int × Int)).getD ((panel 9 5).panelW.toNat, (panel 9 5).panelH.toNat) ∧
      InPanel (panel 9 5) 0 0 9 5 ∧ Aligned Params.default (panel 9 5) 0 0 9 5) := by
  refine ⟨by decide, ⟨⟨by unfold inBpp; decide, by decide, ?_, ?_, by simp, by unfold inPixels; decide⟩, rfl, rfl, ?_, ?_⟩,
    by decide, ?_, ?_⟩
  · rintro q ⟨⟩
  · rintro q ⟨⟩; unfold inSize; decide
  all_goals
    try unfold InPanel
    try unfold Aligned
    decide

/-- O46, O47: inside the poll loop. -/
theorem witness_polling :
    (polling 0).seq = .busy 0x28 (pollActs (polling 0).params) ∧ nextStatus (polling 0) = 0 ∧ nextStatus (polling 1) ≠ 0 ∧
    statusAt (polling 1) 0 ≠ 0 := by decide

/-- O48: what SLEEP needs. -/
theorem witness_SleepSendsAndSleeps :
    (configuredOn 8 2 false).seq = .idle ∧ (configuredOn 8 2 false).configured = true ∧
    (configuredOn 8 2 false).asleep = false ∧ (configuredOn 8 2 false).rma = false := by decide

/-- O51, O52: one operation of each kind, from states with the invariant. -/
theorem witness_transitions :
    (configuredOn 8 2 false).Inv ∧ (configuredOn 8 2 true).Inv ∧ (powerOn (okSlots 9)).Inv ∧
    (∃ t, exec (.wdata 0) (configuredOn 8 2 false) = .next t ∧ t.proto ≠ .halted) ∧
    (∃ t, exec .hwreset (configuredOn 8 2 false) = .next t ∧ t.proto ≠ .halted) ∧
    (∃ t, exec .qinfo (powerOn (okSlots 9)) = .next t) ∧
    (∃ t, exec .getvcom (configuredOn 8 2 true) = .next t ∧ t.proto ≠ .halted) ∧
    (∃ t, exec (.dpyarea 0 0 8 2 2) (configuredOn 8 2 false) = .next t ∧ t.proto ≠ .halted) ∧
    (∃ t, exec .sleep (configuredOn 8 2 false) = .next t ∧ t.proto ≠ .halted) ∧
    (∃ t, exec .wake (configuredOn 8 2 true) = .next t ∧ t.proto ≠ .halted) := by
  refine ⟨configured_inv false, configured_inv true, ?_, ⟨_, rfl, by decide⟩, ⟨_, rfl, by decide⟩, runs_next (by decide),
    ⟨_, rfl, by decide⟩, ⟨_, rfl, by decide⟩, ⟨_, rfl, by decide⟩, ⟨_, rfl, by decide⟩⟩
  refine ⟨?_, ?_, ?_, ?_, ?_, ?_, ?_, ?_, ?_⟩ <;> decide

/-- O51, O52: the kinds left. -/
theorem witness_transitions_rest :
    ((nextOf (exec (.init (-3 / 2)) { powerOn (okSlots 64) with rx := List.replicate 8 0 ++ replyBytes })).map State.proto) =
      some .refreshing ∧
    ((nextOf (exec (.loadimgFull 4 0 sixteen) (configuredOn 8 2 false))).map State.proto) = some .ready ∧
    ((nextOf (exec .waitdpy { configuredOn 8 2 true with rx := List.replicate 14 0 })).map State.proto) = some .ready ∧
    ((nextOf (exec .rdstat (configuredOn 8 2 true))).map State.proto) = some .refreshing ∧
    ((nextOf (exec .qinfo { powerOn (okSlots 20) with rx := List.replicate 4 0 ++ replyBytes })).map State.proto) =
      some .unconfigured := by decide +kernel

/-- O53: a WAITDPY just taken, and one in progress. -/
theorem witness_OnlyWaitdpyClearsRma :
    ((nextOf (step { configuredOn 8 2 true with requests := [⟨0x28, {}⟩], rx := List.replicate 14 0 })).map fun t => t.rma) =
      some false ∧
    ((nextOf (step { polling 0 with seq := .busy 0x28 [.pollCheck, .finish .none], rdata := [0, 0, 0] })).map fun t => t.rma) =
      some false := by decide

/-- O54, O55: a box at the buffer's edge, and a host with a mode that is not the fast one. -/
theorem witness_host :
    (Box.mk 8 4 9 5).mem 8 4 = true ∧ (0 : Int) ≤ (Box.mk 8 4 9 5).minX ∧ (Box.mk 8 4 9 5).maxX ≤ 9 ∧
    Params.default.modeInit ≠ Params.default.modeFast ∧
    (∃ hs : HostState, hs.prev = some (view Params.default hs.w hs.h hs.fb)) ∧ (∃ hs : HostState, hs.prev = none) :=
  ⟨by decide, by decide, by decide, by decide, ⟨⟨2, 1, [1, 2], some [1, 2], none⟩, by decide⟩, ⟨⟨2, 1, [1, 2], none, none⟩, rfl⟩⟩

/-- O58, O59, O60: buffers of the panel's size; two draws that each change one pixel; a legal voltage and both ends of the
range are in `witness_volts`. -/
theorem witness_host_drawing :
    (HostState.mk 4 2 (List.replicate 8 0) (some (List.replicate 8 0)) none).wf = true ∧ 1 ≤ Params.default.align ∧
    (2 : Int) ≠ Params.default.modeFast ∧
    bboxdiff 4 2 (List.replicate 8 0) (view Params.default 4 2 (List.replicate 7 0 ++ [1])) = some ⟨3, 1, 4, 2⟩ ∧
    bboxdiff 4 2 (view Params.default 4 2 (List.replicate 7 0 ++ [1])) (view Params.default 4 2 (List.replicate 7 1 ++ [1])) =
      some ⟨0, 0, 4, 2⟩ ∧
    (3 + 1 ≤ 4 ∧ 1 + 1 ≤ 2) := by decide
end

section
/-! SUPPORT. One step of the machine by cases, then the statements of 10_state.md and what each of them turns on. -/

namespace Sys2Proof.Machine

/-! ### A host request decodes to a host operation -/

/-- What is decoded, if anything is, is a host operation. -/
def YieldsHost (x : Except Reject Instr) : Prop := ∀ i, x = .ok i → i.opc?.isSome = true

theorem yieldsHost_ok {i : Instr} (h : i.opc?.isSome = true) : YieldsHost (.ok i) := by
  rintro _ ⟨⟩
  exact h

theorem yieldsHost_error (e : Reject) : YieldsHost (.error e) := by
  rintro _ ⟨⟩

theorem yieldsHost_need {α : Type} {r : HostReq} {name : OperandName} {o : Option α} {f : α → Except Reject Instr}
    (h : ∀ a, YieldsHost (f a)) : YieldsHost (r.need name o >>= f) := by
  cases o with
  | none => exact yieldsHost_error _
  | some a => exact h a

theorem decodeHost_isHost {p : Params} {r : HostReq} {i : Instr} (h : decodeHost p r = .ok i) :
    i.opc?.isSome = true := by
  suffices YieldsHost (decodeHost p r) from this i h
  unfold decodeHost
  split
  all_goals repeat refine yieldsHost_need fun _ => ?_
  any_goals exact yieldsHost_ok rfl
  exact yieldsHost_error _

/-! ### What an instruction does by its kind -/

/-- HALTED runs nothing (60_exceptions.md R303). -/
theorem exec_halted {s : State} (hs : s.seq = .halted) (i : Instr) : exec i s = .fault .halted := by
  cases hi : i.opc?.isSome with
  | true =>
    obtain ⟨plan, e⟩ := exec_host hi s
    rw [e, runOp_halted hs]
  | false =>
    obtain ⟨ws, e⟩ | ⟨w, e⟩ := exec_wire hi s <;> rw [e] <;> simp only [runWire, hs]

theorem gx_unitAct_kept (u : WireUnit) (s : State) : Kept s (gx (unitAct u) s) := by
  cases u with
  | frame ws => exact gx_kept ws s
  | loadArg w => exact gx_kept [Config.preData, w] s

/-- A wire row writes no field but those of the handshake. -/
theorem exec_wire_kept {i : Instr} (hi : i.opc?.isSome = false) {s t : State} (h : exec i s = .next t) : Kept s t := by
  obtain ⟨ws, e⟩ | ⟨w, e⟩ := exec_wire hi s
  · obtain ⟨_, rfl⟩ := runWire_next (e ▸ h)
    exact gx_unitAct_kept (.frame ws) s
  · obtain ⟨_, rfl⟩ := runWire_next (e ▸ h)
    exact gx_unitAct_kept (.loadArg w) s

/-! ### One step of the machine -/

/-- What a step can be: an interleaving point, the request at the head of the queue, run or rejected, a gated transaction of
the operation in progress, one atomic step of it, or its end. -/
inductive StepOutcome (s t : State) : Prop where
  | waited (hs : s.seq.isBusy = false) (ht : t = environment s)
  | ran (r : HostReq) (rest : List HostReq) (i : Instr) (hs : s.seq = .idle) (hr : s.requests = r :: rest)
      (hd : decodeHost s.params r = .ok i) (ht : exec i (takeRequest rest s) = .next t)
  | rejected (r : HostReq) (rest : List HostReq) (e : Reject) (hs : s.seq = .idle)
      (ht : t = rejectRequest r e (takeRequest rest s))
  | sent (opc : Byte) (u : WireUnit) (rest : List Act) (hs : s.seq = .busy opc (gated (unitAct u) ++ rest))
      (ht : t = gx (unitAct u) (load opc rest s))
  | acted (opc : Byte) (a : Act) (rest : List Act) (hs : s.seq = .busy opc (a :: rest))
      (ht : t = stepAct opc a (load opc rest s))
  | closed (opc : Byte) (hs : s.seq = .busy opc []) (ht : t = stepAct opc (.finish .none) s)

theorem fetchUnit_some {todo rest : List Act} {u : WireUnit} (h : fetchUnit todo = some (u, rest)) :
    todo = gated (unitAct u) ++ rest := by
  unfold fetchUnit at h
  split at h
  · obtain ⟨rfl, rfl⟩ : _ ∧ _ := by simpa using h
    rfl
  · obtain ⟨rfl, rfl⟩ : _ ∧ _ := by simpa using h
    rfl
  · exact absurd h (by simp)

/-- What a wire unit decodes to sends that unit. -/
theorem exec_decoded_unit {u : WireUnit} {i : Instr} {s t : State} (hd : decodeWire s.params u = .ok i)
    (h : exec i s = .next t) : t = gx (unitAct u) s := by
  cases u with
  | frame ws => exact (runWire_next (exec_decoded_frame hd rfl ▸ h)).2
  | loadArg w => exact (runWire_next (exec_decoded_loadArg hd s ▸ h)).2

theorem tick_outcome {s : State} {opc : Byte} {todo : List Act} (hs : s.seq = .busy opc todo) :
    StepOutcome s (tick s) := by
  cases todo with
  | nil => exact .closed opc hs (by simp only [tick, hs])
  | cons a rest => exact .acted opc a rest hs (by simp only [tick, hs, load])

theorem step_outcome {s t : State} (h : step s = .next t) : StepOutcome s t := by
  unfold step at h
  split at h
  · next hs =>
    split at h
    · injection h with h
      exact .waited (by rw [hs]; rfl) h.symm
    · next r rest hr =>
      split at h
      · next i hd => exact .ran r rest i hs hr hd h
      · next e _ =>
        injection h with h
        exact .rejected r rest e hs h.symm
  · next opc todo hs =>
    split at h
    · next u rest hu =>
      split at h
      · next i hd => exact .sent opc u rest (fetchUnit_some hu ▸ hs) (exec_decoded_unit (s := load opc rest s) hd h)
      · injection h with h
        exact h ▸ tick_outcome hs
    · injection h with h
      exact h ▸ tick_outcome hs
  · next hs =>
    split at h
    · exact absurd h (by simp)
    · injection h with h
      exact .waited (by rw [hs]; rfl) h.symm

/-- A relation that every atomic step keeps holds over any step and any instruction. -/
theorem StepRel.any {R : State → State → Prop} (hR : StepRel R) {s t : State}
    (h : Machine.step s = .next t ∨ ∃ i, Machine.exec i s = .next t) : R s t :=
  h.elim hR.step fun ⟨_, h⟩ => hR.exec h

/-! ### What an operation that ends writes -/

/-- The writes of 10_state.md R53 by the operation that ends: `b` is the block after them. -/
inductive Writes (d : DeviceInfo) (s : State) : Instr → State → Prop where
  | raw (i : Instr) (h : isRaw i) : Writes d s i { s with rma := true }
  | display (x y w h m : Int) : Writes d s (.dpyarea x y w h m) { s with rma := true }
  | hwreset : Writes d s .hwreset (resetBlock s)
  | qinfo : Writes d s .qinfo (infoBlock d s)
  | waitdpy : Writes d s .waitdpy { s with rma := false }
  | sleep : Writes d s .sleep { s with asleep := true }
  | wake : Writes d s .wake { s with asleep := false }
  | init (v : Rat) : Writes d s (.init v) (initBlock d s)
  | nothing (i : Instr) : Writes d s i s

theorem doneBlock_writes (d : DeviceInfo) (s : State) (i : Instr) : Writes d s i (doneBlock d s i) := by
  cases i with
  | xfer _ => exact .raw _ trivial
  | wcmd _ _ => exact .raw _ trivial
  | wdata _ => exact .raw _ trivial
  | wwords _ _ => exact .raw _ trivial
  | rwords _ => exact .raw _ trivial
  | dpyarea x y w h m => exact .display x y w h m
  | hwreset => exact .hwreset
  | qinfo => exact .qinfo
  | waitdpy => exact .waitdpy
  | sleep => exact .sleep
  | wake => exact .wake
  | init v => exact .init v
  | _ => exact .nothing _

theorem Writes.faults {d : DeviceInfo} {s b : State} {i : Instr} (h : Writes d s i b) : b.faults = s.faults := by
  cases h <;> rfl

/-! ### FAULT (O5) -/

/-- FAULT of `t` is that of `s`, or has one record more and SEQ is HALTED. -/
def FaultStep (s t : State) : Prop := t.faults = s.faults ∨ ∃ f, t.faults = addFault f s.faults ∧ t.seq = .halted

theorem stepAct_faultStep (opc : Byte) (a : Act) (s : State) : FaultStep s (stepAct opc a s) := by
  unfold stepAct
  cases a with
  | xferBase high =>
    simp only [perform]
    split
    · exact .inl rfl
    · exact .inr ⟨_, rfl, rfl⟩
  | storeInfo =>
    simp only [perform]
    split
    · exact .inl rfl
    · exact .inr ⟨_, rfl, rfl⟩
  | pollCheck =>
    simp only [perform]
    split <;> exact .inl rfl
  | _ => exact .inl rfl

theorem HostOutcome.faultStep {i : Instr} {s t : State} (h : HostOutcome i s t) : FaultStep s t := by
  cases h with
  | faulted c h => exact h ▸ .inr ⟨_, rfl, rfl⟩
  | rejected v _ _ h => exact h ▸ .inl rfl
  | ended d _ _ hb => exact .inl (hb.faults.trans (doneBlock_writes d s i).faults)
  | waiting _ _ _ hb => exact .inl hb.faults

theorem exec_faultStep {i : Instr} {s t : State} (h : exec i s = .next t) : FaultStep s t := by
  cases hi : i.opc?.isSome with
  | true => exact (host_outcome hi h).faultStep
  | false => exact .inl (exec_wire_kept hi h).faults

theorem step_faultStep {s t : State} (h : step s = .next t) : FaultStep s t := by
  cases step_outcome h with
  | waited _ ht => exact ht ▸ .inl rfl
  | ran _ rest _ _ _ _ ht => exact exec_faultStep (s := takeRequest rest s) ht
  | rejected _ _ _ _ ht => exact ht ▸ .inr ⟨_, rfl, rfl⟩
  | sent opc u rest _ ht => exact ht ▸ .inl (gx_unitAct_kept u (load opc rest s)).faults
  | acted opc a rest _ ht => exact ht ▸ stepAct_faultStep opc a (load opc rest s)
  | closed opc _ ht => exact ht ▸ stepAct_faultStep opc _ s

/-! ### The invariant (O2, O3) -/

/-- The part of the invariant that speaks of the block's flags. -/
structure BlockInv (s : State) : Prop where
  configured_info : s.configured = true → s.infoValid = true
  info_valid : s.infoValid = s.info.isSome
  unconfigured_awake : s.configured = false → s.asleep = false
  unconfigured_rma : s.configured = false → s.rma = true
  reset_released : s.resetN = true

theorem State.Inv.block {s : State} (h : s.Inv) : BlockInv s :=
  ⟨h.configured_info, h.info_valid, h.unconfigured_awake, h.unconfigured_rma, h.reset_released⟩

/-- It speaks of no other field. -/
theorem BlockInv.sameBlock {b t : State} (h : BlockInv b) (e : SameBlock b t) : BlockInv t where
  configured_info := by rw [e.configured, e.infoValid]; exact h.configured_info
  info_valid := by rw [e.infoValid, e.info]; exact h.info_valid
  unconfigured_awake := by rw [e.configured, e.asleep]; exact h.unconfigured_awake
  unconfigured_rma := by rw [e.configured, e.rma]; exact h.unconfigured_rma
  reset_released := by rw [e.resetN]; exact h.reset_released

/-- An IDLE or BUSY block without a fault. -/
theorem BlockInv.running {t : State} (h : BlockInv t) (hf : t.faults = []) (hh : t.seq ≠ .halted)
    (hr : t.seq.reachable = true) (hb : t.seq.isBusy = true → t.configured = true ∧ t.asleep = false) : t.Inv :=
  ⟨h.configured_info, h.info_valid, h.unconfigured_awake, h.unconfigured_rma, ⟨fun _ => hh, fun _ => hf⟩, by simp [hf],
    h.reset_released, hr, hb⟩

theorem BlockInv.idle {t : State} (h : BlockInv t) (hf : t.faults = []) (hs : t.seq = .idle) : t.Inv :=
  h.running hf (by simp [hs]) (by rw [hs]; rfl) (by simp [hs, Seq.isBusy])

theorem BlockInv.busy {t : State} (h : BlockInv t) (hf : t.faults = []) {todo : List Act}
    (hs : t.seq = .busy 0x28 todo) (hp : ∀ a ∈ todo, a.ofPoll = true) (hc : t.configured = true)
    (ha : t.asleep = false) : t.Inv :=
  h.running hf (by simp [hs]) (by simpa [hs, Seq.reachable] using hp) fun _ => ⟨hc, ha⟩

/-- A first fault. -/
theorem BlockInv.takeFault {s : State} (h : BlockInv s) (hf : s.faults = []) (opc : Byte) (c : Cause) :
    (takeFault opc c s).Inv :=
  ⟨h.configured_info, h.info_valid, h.unconfigured_awake, h.unconfigured_rma, by simp [hf, addFault],
    by simp [hf, addFault], h.reset_released, rfl, by simp [Seq.isBusy]⟩

theorem State.Inv.no_fault {s : State} (h : s.Inv) (hs : s.seq ≠ .halted) : s.faults = [] := h.fault_halted.2 hs

theorem inv_kept {s t : State} (h : s.Inv) (k : Kept s t) : t.Inv := by
  obtain ⟨ci, iv, ua, ur, rr⟩ := h.block.sameBlock k.sameBlock
  obtain ⟨_, _, _, _, fh, fo, _, sr, br⟩ := h
  refine ⟨ci, iv, ua, ur, ?_, ?_, rr, ?_, ?_⟩
  · rw [k.faults, k.seq]; exact fh
  · rw [k.faults]; exact fo
  · rw [k.seq]; exact sr
  · rw [k.seq, k.configured, k.asleep]; exact br

theorem pollActs_ofPoll (p : Params) : ∀ a ∈ pollActs p, a.ofPoll = true := List.all_eq_true.1 rfl

/-- Whatever an operation writes keeps the flags' invariant, where it is admitted. -/
theorem Writes.blockInv {d : DeviceInfo} {s b : State} {i : Instr} (h : Writes d s i b) (ha : Admitted s i)
    (hs : BlockInv s) : BlockInv b := by
  obtain ⟨ci, iv, ua, ur, rr⟩ := hs
  cases h with
  | raw _ _ => exact ⟨ci, iv, ua, fun _ => rfl, rr⟩
  | display _ _ _ _ _ => exact ⟨ci, iv, ua, fun _ => rfl, rr⟩
  | hwreset => exact ⟨fun h => absurd h Bool.false_ne_true, rfl, fun _ => rfl, fun _ => rfl, rfl⟩
  | qinfo => exact ⟨fun _ => rfl, rfl, ua, ur, rr⟩
  | waitdpy => exact ⟨ci, iv, ua, fun h => absurd (h.symm.trans ha.1) Bool.false_ne_true, rr⟩
  | sleep => exact ⟨ci, iv, fun h => absurd (h.symm.trans ha.1) Bool.false_ne_true, ur, rr⟩
  | wake => exact ⟨ci, iv, fun _ => rfl, ur, rr⟩
  | init _ => exact ⟨fun _ => rfl, rfl, fun _ => rfl, fun _ => rfl, rfl⟩
  | nothing _ => exact ⟨ci, iv, ua, ur, rr⟩

/-- A host operation taken from IDLE keeps the invariant. -/
theorem HostOutcome.inv {i : Instr} {s t : State} (h : HostOutcome i s t) (hs : s.Inv) (hi : s.seq = .idle) : t.Inv := by
  have hf : s.faults = [] := hs.no_fault (by simp [hi])
  cases h with
  | faulted c h => exact h ▸ (hs.block.sameBlock (accept_sameBlock i s)).takeFault hf i.opc c
  | rejected v _ _ h =>
    subst h
    exact BlockInv.idle (hs.block.sameBlock ⟨rfl, rfl, rfl, rfl, rfl, rfl, rfl, rfl, rfl⟩) hf rfl
  | ended d ha ht hb =>
    have w := doneBlock_writes d s i
    exact ((w.blockInv ha hs.block).sameBlock hb).idle (hb.faults.trans (w.faults.trans hf)) ht
  | waiting hi ha ht hb =>
    subst hi
    exact (hs.block.sameBlock hb).busy (hb.faults.trans hf) ht (pollActs_ofPoll _) (hb.configured.trans ha.1)
      (hb.asleep.trans ha.2)

/-- What an atomic step of WAITDPY's poll loop does (42_protocol.md R232). -/
inductive PollStep (opc : Byte) (a : Act) (s t : State) : Prop where
  | kept (h : Kept s t)
  | ended (hs : t.seq = .idle) (hb : SameBlock s t)
  | cleared (ha : a = .pollCheck) (hz : s.rdata[2]? = some 0) (h : Kept { s with rma := false } t)
  | again (hs : t.seq = .busy opc (.delay .poll :: pollActs s.params)) (hb : SameBlock s t)

theorem stepAct_poll {a : Act} (ha : a.ofPoll = true) (opc : Byte) (s : State) : PollStep opc a s (stepAct opc a s) := by
  cases a with
  | prime => exact .kept ⟨rfl, rfl, rfl, rfl, rfl, rfl, rfl, rfl, rfl, rfl, rfl⟩
  | xfer ws => exact .kept ⟨rfl, rfl, rfl, rfl, rfl, rfl, rfl, rfl, rfl, rfl, rfl⟩
  | await => exact .kept ⟨rfl, rfl, rfl, rfl, rfl, rfl, rfl, rfl, rfl, rfl, rfl⟩
  | delay d => exact .kept ⟨rfl, rfl, rfl, rfl, rfl, rfl, rfl, rfl, rfl, rfl, rfl⟩
  | finish r =>
    obtain ⟨_, _, hs, _, _, hb⟩ := finish_effect opc r s
    exact .ended hs hb
  | pollCheck =>
    simp only [stepAct, perform]
    split
    · next hz => exact .cleared rfl hz ⟨rfl, rfl, rfl, rfl, rfl, rfl, rfl, rfl, rfl, rfl, rfl⟩
    · exact .again rfl ⟨rfl, rfl, rfl, rfl, rfl, rfl, rfl, rfl, rfl⟩
  | xferArg _ => exact absurd ha Bool.false_ne_true
  | xferBase _ => exact absurd ha Bool.false_ne_true
  | drive _ => exact absurd ha Bool.false_ne_true
  | startupWait => exact absurd ha Bool.false_ne_true
  | beginReset => exact absurd ha Bool.false_ne_true
  | storeInfo => exact absurd ha Bool.false_ne_true
  | setRma _ => exact absurd ha Bool.false_ne_true
  | setAsleep _ => exact absurd ha Bool.false_ne_true
  | setConfigured => exact absurd ha Bool.false_ne_true

/-- A BUSY block with the invariant is inside WAITDPY's loop. -/
theorem State.Inv.busy_poll {s : State} (h : s.Inv) {opc : Byte} {todo : List Act} (hs : s.seq = .busy opc todo) :
    opc = 0x28 ∧ ∀ a ∈ todo, a.ofPoll = true := by
  simpa [hs, Seq.reachable] using h.seq_reachable

/-- The invariant holds at any later position of the loop. -/
theorem State.Inv.load {s : State} (h : s.Inv) {opc : Byte} {done rest : List Act} (hs : s.seq = .busy opc (done ++ rest)) :
    (load opc rest s).Inv := by
  obtain ⟨rfl, hp⟩ := h.busy_poll hs
  obtain ⟨hc, ha⟩ := h.busy_ready (by rw [hs]; rfl)
  exact BlockInv.busy (h.block.sameBlock (load_sameBlock _ _ _)) (h.no_fault (by simp [hs])) rfl
    (fun a ha => hp a (List.mem_append_right _ ha)) hc ha

theorem PollStep.inv {a : Act} {s t : State} (h : PollStep 0x28 a s t) (hs : s.Inv) (hb : s.seq.isBusy = true) : t.Inv := by
  obtain ⟨hc, ha⟩ := hs.busy_ready hb
  have hf : s.faults = [] := hs.no_fault fun e => by rw [e] at hb; exact absurd hb Bool.false_ne_true
  cases h with
  | kept k => exact inv_kept hs k
  | ended ht e => exact (hs.block.sameBlock e).idle (e.faults.trans hf) ht
  | cleared _ _ k =>
    refine inv_kept ?_ k
    obtain ⟨ci, iv, ua, _, fh, fo, rr, sr, br⟩ := hs
    exact ⟨ci, iv, ua, fun h => absurd (h.symm.trans hc) Bool.false_ne_true, fh, fo, rr, sr, br⟩
  | again ht e =>
    refine (hs.block.sameBlock e).busy (e.faults.trans hf) ht ?_ (e.configured.trans hc) (e.asleep.trans ha)
    exact List.forall_mem_cons.2 ⟨rfl, pollActs_ofPoll _⟩

theorem State.Inv.takeRequest {s : State} (h : s.Inv) (rest : List HostReq) : (takeRequest rest s).Inv := by
  obtain ⟨ci, iv, ua, ur, fh, fo, rr, sr, br⟩ := h
  exact ⟨ci, iv, ua, ur, fh, fo, rr, sr, br⟩

theorem step_inv {s t : State} (hs : s.Inv) (h : step s = .next t) : t.Inv := by
  cases step_outcome h with
  | waited _ ht => exact ht ▸ inv_kept hs (environment_kept s)
  | ran _ rest _ hi _ hd ht => exact (host_outcome (decodeHost_isHost hd) ht).inv (hs.takeRequest rest) hi
  | rejected r rest e hi ht =>
    have unanswered : SameBlock (takeRequest rest s) { takeRequest rest s with resp := none } :=
      ⟨rfl, rfl, rfl, rfl, rfl, rfl, rfl, rfl, rfl⟩
    exact ht ▸ ((hs.takeRequest rest).block.sameBlock unanswered).takeFault (hs.no_fault (by simp [hi])) r.opc
      (rejectCause e)
  | sent opc u rest hb ht => exact ht ▸ inv_kept (hs.load hb) (gx_unitAct_kept u _)
  | acted opc a rest hb ht =>
    obtain ⟨rfl, hp⟩ := hs.busy_poll hb
    exact ht ▸ (stepAct_poll (hp a (by simp)) 0x28 _).inv (hs.load (done := [a]) hb) rfl
  | closed opc hb ht =>
    obtain ⟨rfl, _⟩ := hs.busy_poll hb
    exact ht ▸ (stepAct_poll (a := .finish .none) rfl 0x28 s).inv hs (by rw [hb]; rfl)

/-- Settles O3, from one step's cases: each keeps the flags' part, and ends IDLE, HALTED or inside WAITDPY's loop. -/
theorem stepKeepsInvariant : Obligations.StepKeepsInvariant := fun _ _ => step_inv

/-- Settles O2. -/
theorem resetInvariant : Obligations.ResetInvariant :=
  BlockInv.idle ⟨fun h => absurd h Bool.false_ne_true, rfl, fun _ => rfl, fun _ => rfl, rfl⟩ rfl rfl

/-- Settles O5. -/
theorem faultsAreSticky : Obligations.FaultsAreSticky := fun _ _ h =>
  ⟨params_stepRel.any h, h.elim step_faultStep fun ⟨_, h⟩ => exec_faultStep h⟩

/-! ### TRACE, TMO, the environment and the oracle (O4, O20, O22): relations every atomic step keeps -/

/-- Settles O4. -/
theorem traceGrowsAndTmoCounts : Obligations.TraceGrowsAndTmoCounts := fun _ _ h => (grows_stepRel.any h).newEvents

/-- Settles O20. -/
theorem hprevOnlyByEdgeAgent : Obligations.HprevOnlyByEdgeAgent := fun _ _ h => envRan_stepRel.any h

/-- Settles O22. -/
theorem bytesReceivedInOrder : Obligations.BytesReceivedInOrder := fun _ _ h =>
  let ⟨_, hn⟩ := drew_stepRel.any h
  hn.drew

/-! ### The waits (O56) -/

theorem readyEvent_waitEnd {w : Event} (hw : w.isWaitEnd = true) (r : Bool) : readyEvent r w = false := by
  cases w with
  | awaitOk => rfl
  | timeout k => cases k with
    | data => rfl
    | reset => exact absurd hw Bool.false_ne_true
  | _ => exact absurd hw Bool.false_ne_true

/-- Settles O56: the events of any step determine RDY and the ends of its waits, and between a PRIME or the end of a wait
and the next only an EDGE sets RDY. -/
theorem waitsEndByEdges : Obligations.WaitsEndByEdges := by
  intro s t h
  obtain ⟨new, trace, rdy, waits⟩ := waits_stepRel.any h
  rw [newEvents_of_append trace]
  refine ⟨rdy, ?_, ?_, ?_⟩
  · rintro a w c rfl hw
    exact waitsOk_at waits hw
  · rintro a b w c rfl hw hb
    have atEnd := waitsOk_at waits hw
    rw [readyOf_append, readyOf_between _ _ hb, readyOf_append] at atEnd
    simpa [readyEvent] using atEnd
  · rintro a w b rfl hw hb
    rw [rdy, readyOf_append, readyOf_between _ _ hb, readyOf_append, readyOf_cons, readyEvent_waitEnd hw]
    simp

/-! ### The write table (O51) -/

/-- The fields the table of 10_state.md R53 does not give operation `i` are as they were. -/
structure TableKept (i : Instr) (s t : State) : Prop where
  reset : ¬isReset i → t.resetN = s.resetN ∧ t.configured = s.configured
  info : ¬isReset i → i ≠ .qinfo → t.info = s.info ∧ t.infoValid = s.infoValid
  asleep : ¬isReset i → i ≠ .sleep → i ≠ .wake → t.asleep = s.asleep
  rma : ¬isReset i → ¬isRaw i → (∀ x y w h m, i ≠ .dpyarea x y w h m) → i ≠ .waitdpy → t.rma = s.rma
  requests : t.requests = s.requests

theorem TableKept.refl (i : Instr) (s : State) : TableKept i s s :=
  ⟨fun _ => ⟨rfl, rfl⟩, fun _ _ => ⟨rfl, rfl⟩, fun _ _ _ => rfl, fun _ _ _ _ => rfl, rfl⟩

/-- A reset may write every field of the table. -/
theorem TableKept.of_isReset {i : Instr} (h : isReset i) {s t : State} (hr : t.requests = s.requests) : TableKept i s t :=
  ⟨fun n => absurd h n, fun n => absurd h n, fun n => absurd h n, fun n => absurd h n, hr⟩

theorem Writes.tableKept {d : DeviceInfo} {s b : State} {i : Instr} (h : Writes d s i b) : TableKept i s b := by
  cases h with
  | raw _ hr => exact { TableKept.refl i s with rma := fun _ notRaw => absurd hr notRaw }
  | display x y w h m => exact { TableKept.refl _ s with rma := fun _ _ other => absurd rfl (other x y w h m) }
  | waitdpy => exact { TableKept.refl _ s with rma := fun _ _ _ other => absurd rfl other }
  | qinfo => exact { TableKept.refl _ s with info := fun _ other => absurd rfl other }
  | sleep => exact { TableKept.refl _ s with asleep := fun _ other => absurd rfl other }
  | wake => exact { TableKept.refl _ s with asleep := fun _ _ other => absurd rfl other }
  | hwreset => exact .of_isReset (i := .hwreset) trivial rfl
  | init v => exact .of_isReset (i := .init v) trivial rfl
  | nothing _ => exact TableKept.refl i s

theorem TableKept.sameBlock {i : Instr} {s b t : State} (h : TableKept i s b) (e : SameBlock b t) : TableKept i s t where
  reset := by rw [e.resetN, e.configured]; exact h.reset
  info := by rw [e.info, e.infoValid]; exact h.info
  asleep := by rw [e.asleep]; exact h.asleep
  rma := by rw [e.rma]; exact h.rma
  requests := by rw [e.requests]; exact h.requests

theorem HostOutcome.tableKept {i : Instr} {s t : State} (h : HostOutcome i s t) : TableKept i s t := by
  cases h with
  | faulted c h => exact h ▸ { TableKept.refl i s with }
  | rejected v _ _ h => exact h ▸ { TableKept.refl i s with }
  | ended d _ _ hb => exact (doneBlock_writes d s i).tableKept.sameBlock hb
  | waiting _ _ _ hb => exact (TableKept.refl i s).sameBlock hb

/-- The operations without a handshake: their legs, before the end, are none of PRIME and AWAIT; those of a pure operation
are none at all. -/
theorem exec_without_handshake {i : Instr} (hi : isPure i ∨ i = .hwreset) (s : State) :
    ∃ plan as r, exec i s = runOp i plan s ∧ plan.config = none ∧ plan.prog = as ++ [Act.finish r] ∧
      (∀ a ∈ as, a.quiet = true) ∧ (isPure i → as = []) := by
  rcases hi with hi | rfl
  · have none_quiet : ∀ a ∈ ([] : List Act), a.quiet = true := List.forall_mem_nil _
    cases i with
    | rdstat => exact ⟨_, [], .status, rfl, rfl, rfl, none_quiet, fun _ => rfl⟩
    | pack2 _ => exact ⟨_, [], _, rfl, rfl, rfl, none_quiet, fun _ => rfl⟩
    | pack3 _ => exact ⟨_, [], _, rfl, rfl, rfl, none_quiet, fun _ => rfl⟩
    | pack4 _ => exact ⟨_, [], _, rfl, rfl, rfl, none_quiet, fun _ => rfl⟩
    | pack8 _ => exact ⟨_, [], _, rfl, rfl, rfl, none_quiet, fun _ => rfl⟩
    | _ => exact hi.elim
  · exact ⟨_, hwresetBody, .none, rfl, rfl, rfl, hwresetBody_quiet, False.elim⟩

/-- They leave RDY to the edge agent, and the pure ones leave TMO. -/
theorem exec_leaves_ready {i : Instr} (hi : isPure i ∨ i = .hwreset) {s t : State} (h : exec i s = .next t) :
    ReadyByEdges s t ∧ (isPure i → t.tmo = s.tmo) := by
  obtain ⟨plan, as, r, he, hc, hp, hq, hn⟩ := exec_without_handshake hi s
  obtain ⟨_, ⟨c, _, rfl⟩ | ⟨v, _, hv, _⟩ | ⟨_, _, rfl⟩⟩ := runOp_cases (he ▸ h)
  · exact ⟨ReadyBy.ready (new := [.op i, .endOp (.fault c)]) ⟨by simp, by simp⟩, fun _ => rfl⟩
  · rw [hc] at hv
    exact absurd hv (by simp)
  · rw [hp]
    exact ⟨run_quiet i as hq r s, fun pure => by rw [hn pure]; rfl⟩

/-- Settles O51. -/
theorem onlyTheTableIsWritten : Obligations.OnlyTheTableIsWritten := by
  intro i s t hi h
  obtain ⟨reset, info, asleep, rma, requests⟩ := (host_outcome hi h).tableKept
  refine ⟨reset, info, asleep, rma, fun pure => (exec_leaves_ready (.inl pure) h).2 pure,
    fun quiet => (exec_leaves_ready quiet h).1, fun running => ?_, envRan_stepRel.exec h, requests, params_stepRel.exec h⟩
  rcases exec_faultStep h with same | ⟨_, _, halted⟩
  · exact same
  · exact absurd halted running

/-! ### RMA (O53) -/

/-- RMA is not cleared where it is not written. -/
theorem rma_not_cleared {s t : State} (h : t.rma = s.rma) (hs : s.rma = true) (ht : t.rma = false) : False :=
  Bool.false_ne_true (ht.symm.trans (h.trans hs))

theorem Writes.clears_rma {d : DeviceInfo} {s b : State} {i : Instr} (h : Writes d s i b) (hs : s.rma = true)
    (hb : b.rma = false) : i = .waitdpy := by
  cases h with
  | waitdpy => rfl
  | raw _ _ => exact absurd hb.symm Bool.false_ne_true
  | display _ _ _ _ _ => exact absurd hb.symm Bool.false_ne_true
  | hwreset => exact absurd hb.symm Bool.false_ne_true
  | init _ => exact absurd hb.symm Bool.false_ne_true
  | qinfo => exact (rma_not_cleared rfl hs hb).elim
  | sleep => exact (rma_not_cleared rfl hs hb).elim
  | wake => exact (rma_not_cleared rfl hs hb).elim
  | nothing _ => exact (rma_not_cleared rfl hs hb).elim

theorem HostOutcome.clears_rma {i : Instr} {s t : State} (h : HostOutcome i s t) (hs : s.rma = true)
    (ht : t.rma = false) : i = .waitdpy := by
  cases h with
  | faulted c h => exact (rma_not_cleared (congrArg State.rma h) hs ht).elim
  | rejected v _ _ h => exact (rma_not_cleared (congrArg State.rma h) hs ht).elim
  | ended d _ _ hb => exact (doneBlock_writes d s i).clears_rma hs (hb.rma.symm.trans ht)
  | waiting hi _ _ _ => exact hi

/-- An EDGE carries no words. -/
theorem receivedWords_sequencerEvents (es : List Event) : receivedWords (sequencerEvents es) = receivedWords es := by
  have frames : framesOf (sequencerEvents es) = framesOf es := by
    induction es with
    | nil => rfl
    | cons e es ih =>
      rw [← List.singleton_append, sequencerEvents_append, framesOf_append, framesOf_append, ih]
      cases e <;> rfl
  rw [receivedWords, receivedWords, frames]

/-- The last word received is the last of the last transaction, when that received any. -/
theorem receivedWords_getLast? {es : List Event} (h : lastReceived es ≠ []) :
    (receivedWords es).getLast? = (lastReceived es).getLast? := by
  rcases List.eq_nil_or_concat' (framesOf es) with none | ⟨fs, f, last⟩
  · exact absurd (by simp [lastReceived, none]) h
  · have words : lastReceived es = f.2 := by simp [lastReceived, last]
    rw [words] at h ⊢
    rw [receivedWords, last, List.flatMap_append, List.flatMap_singleton, List.getLast?_append_of_ne_nil _ h]

/-- The last word a poll receives is the status word its test reads (42_protocol.md R232). -/
theorem poll_receives_status (p : Params) (s : State) :
    ∃ ws, receivedWords (gxs (statusFrames p) s).trace = receivedWords s.trace ++ ws ∧
      ws.getLast? = (gxs (statusFrames p) s).rdata[2]? := by
  obtain ⟨hs, gated, events, _, words⟩ := gxs_effect (statusFrames p) (statusFrames_ne_nil p) s
  rw [if_neg (show statusFrames p ≠ [] from List.cons_ne_nil _ _)] at words
  have three : (lastReceived hs).length = 3 :=
    Gated.last_length (fs := [[Config.preCmd, p.cmdRegRd], [Config.preData, p.regStatus]])
      (f := [Config.preRead, p.dummy, p.dummy]) gated
  refine ⟨receivedWords hs, ?_, ?_⟩
  · rw [← receivedWords_sequencerEvents, events, receivedWords_append, receivedWords_sequencerEvents]
  · have nonempty : lastReceived hs ≠ [] := List.ne_nil_of_length_pos (by omega)
    rw [receivedWords_getLast? nonempty, List.getLast?_eq_getElem?, three, words]

/-- A WAITDPY that clears RMA in its first poll has received zero as its last word. -/
theorem waitdpy_clears {s t : State} (h : exec .waitdpy s = .next t) (hs : s.rma = true) (ht : t.rma = false) :
    ∃ ws, receivedWords t.trace = receivedWords s.trace ++ ws ∧ ws.getLast? = some 0 := by
  obtain ⟨_, ⟨c, _, e⟩ | ⟨v, _, e, _⟩ | ⟨_, _, e⟩⟩ := runOp_cases (show execWaitdpy s = .next t from h)
  · exact (rma_not_cleared (congrArg State.rma e) hs ht).elim
  · exact absurd e (by simp)
  · change t = ticks (3 * (statusFrames s.params).length + 2) (load 0x28 (pollActs s.params) (accept .waitdpy s)) at e
    rw [pollActs_eq, ticks_gatedAll] at e
    obtain ⟨ws, received, status⟩ := poll_receives_status s.params (accept .waitdpy s)
    have polled := (gxs_kept (statusFrames s.params) (accept .waitdpy s)).rma
    generalize gxs (statusFrames s.params) (accept .waitdpy s) = u at *
    by_cases zero : u.rdata[2]? = some 0
    · refine ⟨ws, ?_, status.trans zero⟩
      have accepted : receivedWords (accept .waitdpy s).trace = receivedWords s.trace := by simp [receivedWords]
      rw [e, poll_ends zero, ← accepted, ← received]
      simp [stepAct, perform, receivedWords]
    · rw [poll_goes_round zero] at e
      have goes_on : t.rma = u.rma := (congrArg State.rma e).trans rfl
      exact (rma_not_cleared (goes_on.trans polled) hs ht).elim

/-- A step of the poll loop that clears RMA is its test, on a status word of zero. -/
theorem PollStep.clears_rma {opc : Byte} {a : Act} {s t : State} (h : PollStep opc a s t) (hs : s.rma = true)
    (ht : t.rma = false) : a = .pollCheck ∧ s.rdata[2]? = some 0 := by
  cases h with
  | kept k => exact (rma_not_cleared k.rma hs ht).elim
  | ended _ hb => exact (rma_not_cleared hb.rma hs ht).elim
  | cleared ha hz _ => exact ⟨ha, hz⟩
  | again _ hb => exact (rma_not_cleared hb.rma hs ht).elim

/-- Settles O53. -/
theorem onlyWaitdpyClearsRma : Obligations.OnlyWaitdpyClearsRma := by
  intro s t inv h hs ht
  cases step_outcome h with
  | waited _ e => exact (rma_not_cleared (congrArg State.rma e) hs ht).elim
  | rejected _ _ _ _ e => exact (rma_not_cleared (congrArg State.rma e) hs ht).elim
  | sent opc u rest _ e =>
    have k := (gx_unitAct_kept u (load opc rest s)).rma
    exact (rma_not_cleared ((congrArg State.rma e).trans k) hs ht).elim
  | ran r rest i hi hr hd e =>
    obtain rfl := (host_outcome (decodeHost_isHost hd) e).clears_rma hs ht
    obtain ⟨ws, received, zero⟩ := waitdpy_clears e hs ht
    have new : receivedWords (newEvents s t) = ws := by
      have grown := congrArg receivedWords (grows_stepRel.step h).newEvents.1
      simpa [received] using grown.symm
    refine .inl ⟨hi, r, rest, hr, hd, ?_, new ▸ zero⟩
    rintro nil
    simp [← new, nil] at zero
  | acted opc a rest hb e =>
    obtain ⟨rfl, poll⟩ := inv.busy_poll hb
    obtain ⟨rfl, zero⟩ := (stepAct_poll (poll a (by simp)) 0x28 (load 0x28 rest s)).clears_rma hs (e ▸ ht)
    exact .inr ⟨⟨rest, hb⟩, zero⟩
  | closed opc _ e =>
    obtain ⟨end_not_check, _⟩ := (stepAct_poll (a := .finish .none) rfl opc s).clears_rma hs (e ▸ ht)
    exact absurd end_not_check (by simp)

/-! ### Reset and single steps (O1, O6, O8, O9) -/

/-- Settles O1, row by row of the table. -/
theorem resetValues : Obligations.ResetValues :=
  ⟨rfl, rfl, rfl, rfl, rfl, rfl, rfl, rfl, rfl, rfl, rfl, rfl, rfl⟩

/-- A step of a HALTED block is an interleaving point while one is scripted, and then the stop (60_exceptions.md R303). -/
theorem step_halted {s : State} (hs : s.seq = .halted) :
    step s = if s.script = [] then .fault .halted else .next (environment s) := by
  unfold step
  rw [hs]
  cases s.script <;> rfl

/-- Settles O6. -/
theorem haltedAndBusyAcceptNothing : Obligations.HaltedAndBusyAcceptNothing := by
  refine ⟨fun s hs => ⟨exec_halted hs, fun unscripted => ?_, fun scripted => ?_⟩, fun s opc todo hs i hi => ?_⟩
  · rw [step_halted hs, if_pos unscripted]
  · rw [step_halted hs, if_neg scripted]
    exact ⟨rfl, environment_sameBlock s, hs, rfl, by simp⟩
  · obtain ⟨plan, e⟩ := exec_host hi s
    rw [e, runOp_busy hs]

/-- Settles O8. -/
theorem stepRunsTheRequest : Obligations.StepRunsTheRequest := by
  intro s r rest i hs hr hd
  simp only [step, hs, hr, hd, takeRequest]

/-- A step at a unit that decodes runs what it decodes to, past that unit. -/
theorem step_at_unit {s : State} {opc : Byte} {u : WireUnit} {rest : List Act} {i : Instr}
    (hs : s.seq = .busy opc (gated (unitAct u) ++ rest)) (hd : decodeWire s.params u = .ok i) :
    step s = exec i (load opc rest s) := by
  have fetched : fetchUnit (gated (unitAct u) ++ rest) = some (u, rest) := by cases u <;> rfl
  simp only [step, hs, fetched, hd, load]

/-- Settles O9. -/
theorem stepRunsTheLeg : Obligations.StepRunsTheLeg := fun _ _ ws w _ _ =>
  ⟨step_at_unit (u := .frame ws), step_at_unit (u := .loadArg w)⟩

end Sys2Proof.Machine
end

section
/-! SUPPORT. The byte order of words on the bus and in the version strings (20_memory.md R74, R76): what each byte of a word
list is, and the statements that turn on it. -/

namespace Sys2Proof.Machine

/-! ### A word and its two bytes -/

theorem hi8_toNat (w : Word) : (hi8 w).toNat = w.toNat / 256 := by
  have bound := w.isLt
  rw [hi8, BitVec.extractLsb'_toNat, Nat.shiftRight_eq_div_pow]
  omega

theorem lo8_toNat (w : Word) : (lo8 w).toNat = w.toNat % 256 := by
  simp [lo8]

theorem wordOfBytes_toNat (b0 b1 : Byte) : (wordOfBytes b0 b1).toNat = 256 * b0.toNat + b1.toNat := by
  have high := b0.isLt
  have low := b1.isLt
  have disjoint : b0.toNat <<< 8 ||| b1.toNat = 256 * b0.toNat + b1.toNat := by
    rw [← Nat.shiftLeft_add_eq_or_of_lt low, Nat.shiftLeft_eq, Nat.mul_comm]
  have widened : (b0.toNat <<< 8) % 2 ^ 16 = b0.toNat <<< 8 :=
    Nat.mod_eq_of_lt (by rw [Nat.shiftLeft_eq]; omega)
  rw [← disjoint, wordOfBytes, BitVec.toNat_or, BitVec.toNat_shiftLeft, BitVec.toNat_setWidth_of_le (by decide),
    BitVec.toNat_setWidth_of_le (by decide), widened]

/-- A word is the word of its own bytes: `256 * (w / 256) + w % 256`. -/
@[simp] theorem wordOfBytes_hi8_lo8 (w : Word) : wordOfBytes (hi8 w) (lo8 w) = w := by
  apply BitVec.eq_of_toNat_eq
  rw [wordOfBytes_toNat, hi8_toNat, lo8_toNat, Nat.div_add_mod]

/-! ### The bytes of a list of words -/

@[simp] theorem bytesOfWords_nil : bytesOfWords [] = [] := rfl

@[simp] theorem bytesOfWords_cons (w : Word) (ws : List Word) :
    bytesOfWords (w :: ws) = hi8 w :: lo8 w :: bytesOfWords ws := rfl

theorem bytesOfWords_length (ws : List Word) : (bytesOfWords ws).length = 2 * ws.length := by
  induction ws with
  | nil => rfl
  | cons w ws ih => simp [ih, Nat.mul_add]

theorem bytesOfWords_even (ws : List Word) (k : Nat) : (bytesOfWords ws)[2 * k]? = ws[k]?.map hi8 := by
  induction ws generalizing k with
  | nil => rfl
  | cons w ws ih =>
    cases k with
    | zero => rfl
    | succ k => exact ih k

theorem bytesOfWords_odd (ws : List Word) (k : Nat) : (bytesOfWords ws)[2 * k + 1]? = ws[k]?.map lo8 := by
  induction ws generalizing k with
  | nil => rfl
  | cons w ws ih =>
    cases k with
    | zero => rfl
    | succ k => exact ih k

/-- Reading the bytes back pair by pair gives the words. -/
theorem wordsOfBytes_bytesOfWords (ws : List Word) : wordsOfBytes (bytesOfWords ws) = some ws := by
  induction ws with
  | nil => rfl
  | cons w ws ih => simp [wordsOfBytes, ih]

/-! ### What a transaction receives, and the characters of a version string -/

theorem receive_getElem? {n i : Nat} (s : State) (h : i < n) :
    (receive s n)[i]? = some (wordOfBytes (rxByte s (2 * i)) (rxByte s (2 * i + 1))) := by
  rw [receive, List.getElem?_map, List.getElem?_range h, Option.map_some]

theorem chars_length (v : VersionWords) : v.chars.length = 16 := by
  rw [VersionWords.chars, List.length_map, bytesOfWords_length]
  rfl

theorem chars_getElem? (v : VersionWords) (j : Nat) :
    v.chars[j]? = (bytesOfWords v.toList)[j]?.map fun b => Char.ofNat b.toNat :=
  List.getElem?_map

/-! ### The statements of 20_memory.md (O15, O36) -/

/-- Settles O15. -/
theorem bigEndianBytes : Obligations.BigEndianBytes :=
  ⟨fun w => ⟨rfl, hi8_toNat w, lo8_toNat w⟩, wordOfBytes_toNat, wordsOfBytes_bytesOfWords,
    fun _ s _ inRange => receive_getElem? s inRange⟩

/-- Settles O36, by the two bytes each version word puts into the list of characters. -/
theorem versionStrings : Obligations.VersionStrings := by
  refine fun v => ⟨chars_length v, fun k w word => ⟨?_, ?_⟩⟩
  · rw [chars_getElem?, bytesOfWords_even, word, Option.map_some, Option.map_some, hi8_toNat]
  · rw [chars_getElem?, bytesOfWords_odd, word, Option.map_some, Option.map_some, lo8_toNat]

end Sys2Proof.Machine
end

section
/-! SUPPORT. Instructions and words (30_encoding.md R102 to R110, R120): the round trip of every constructor, the words of the
tables, the fields of the load argument, and the VCOM word; with the statements that turn on them. -/

namespace Sys2Proof.Machine

/-! ### The round trip and the table's words (O11, O12) -/

/-- Settles O11, constructor by constructor. -/
theorem decodeEncodeAgree : Obligations.DecodeEncodeAgree := by
  suffices ∀ i, Laws.RoundTrip.Statement i from fun p i => this i p
  intro i
  cases i with
  | xfer ws => exact Laws.RoundTrip.xfer ws
  | wcmd code wait => exact Laws.RoundTrip.wcmd code wait
  | wdata w => exact Laws.RoundTrip.wdata w
  | wwords ws chunk => exact Laws.RoundTrip.wwords ws chunk
  | rwords count => exact Laws.RoundTrip.rwords count
  | hwreset => exact Laws.RoundTrip.hwreset
  | rdstat => exact Laws.RoundTrip.rdstat
  | pack2 pix => exact Laws.RoundTrip.pack2 pix
  | pack3 pix => exact Laws.RoundTrip.pack3 pix
  | pack4 pix => exact Laws.RoundTrip.pack4 pix
  | pack8 pix => exact Laws.RoundTrip.pack8 pix
  | qinfo => exact Laws.RoundTrip.qinfo
  | rdreg addr => exact Laws.RoundTrip.rdreg addr
  | wrreg addr value => exact Laws.RoundTrip.wrreg addr value
  | getvcom => exact Laws.RoundTrip.getvcom
  | setvcom v => exact Laws.RoundTrip.setvcom v
  | loadimgFull bpp rot pix => exact Laws.RoundTrip.loadimgFull bpp rot pix
  | loadimgArea bpp rot origin dims pix => exact Laws.RoundTrip.loadimgArea bpp rot origin dims pix
  | dpyarea x y w h mode => exact Laws.RoundTrip.dpyarea x y w h mode
  | waitdpy => exact Laws.RoundTrip.waitdpy
  | sleep => exact Laws.RoundTrip.sleep
  | wake => exact Laws.RoundTrip.wake
  | init vcom => exact Laws.RoundTrip.init vcom
  | cmdSysRun => exact Laws.RoundTrip.cmdSysRun
  | cmdSleep => exact Laws.RoundTrip.cmdSleep
  | cmdRegRd => exact Laws.RoundTrip.cmdRegRd
  | cmdRegWr => exact Laws.RoundTrip.cmdRegWr
  | cmdLdImg => exact Laws.RoundTrip.cmdLdImg
  | cmdLdImgArea => exact Laws.RoundTrip.cmdLdImgArea
  | cmdLdImgEnd => exact Laws.RoundTrip.cmdLdImgEnd
  | cmdDpyArea => exact Laws.RoundTrip.cmdDpyArea
  | cmdVcom => exact Laws.RoundTrip.cmdVcom
  | cmdGetDevInfo => exact Laws.RoundTrip.cmdGetDevInfo
  | frameData payload => exact Laws.RoundTrip.frameData payload
  | frameRead count => exact Laws.RoundTrip.frameRead count
  | ldarg endian fmt rot => exact Laws.RoundTrip.ldarg endian fmt rot

/-- Settles O12: each is one closed word. -/
theorem tableWordsDecode : Obligations.TableWordsDecode := by
  unfold Obligations.TableWordsDecode
  decide

/-! ### The load argument (R106 to R108, O16) -/

/-- The three fields of the load argument do not overlap, so its value is their sum, each at its place. -/
theorem loadArgWord_toNat (endian : BitVec 8) (fmt rot : BitVec 4) :
    (loadArgWord endian fmt rot).toNat = 256 * endian.toNat + 16 * fmt.toNat + rot.toNat := by
  have hendian := endian.isLt
  have hfmt := fmt.isLt
  have hrot := rot.isLt
  have disjoint : (endian.toNat <<< 8 ||| fmt.toNat <<< 4) ||| rot.toNat =
      256 * endian.toNat + 16 * fmt.toNat + rot.toNat := by
    have upper : endian.toNat <<< 8 ||| fmt.toNat <<< 4 = (16 * endian.toNat + fmt.toNat) <<< 4 := by
      rw [show endian.toNat <<< 8 = (endian.toNat <<< 4) <<< 4 from Nat.shiftLeft_add _ 4 4, ← Nat.shiftLeft_or_distrib,
        ← Nat.shiftLeft_add_eq_or_of_lt hfmt, Nat.shiftLeft_eq endian.toNat, Nat.mul_comm endian.toNat]
    rw [upper, ← Nat.shiftLeft_add_eq_or_of_lt hrot, Nat.shiftLeft_eq]
    omega
  have endian_fits : (endian.toNat <<< 8) % 2 ^ 16 = endian.toNat <<< 8 :=
    Nat.mod_eq_of_lt (by rw [Nat.shiftLeft_eq]; omega)
  have fmt_fits : (fmt.toNat <<< 4) % 2 ^ 16 = fmt.toNat <<< 4 :=
    Nat.mod_eq_of_lt (by rw [Nat.shiftLeft_eq]; omega)
  rw [← disjoint, loadArgWord, BitVec.toNat_or, BitVec.toNat_or, BitVec.toNat_shiftLeft, BitVec.toNat_shiftLeft,
    BitVec.toNat_setWidth_of_le (by decide), BitVec.toNat_setWidth_of_le (by decide),
    BitVec.toNat_setWidth_of_le (by decide), endian_fits, fmt_fits]

/-- The codes R106 allows leave the reserved bits zero, and each is read back from its field: the word decodes. -/
theorem loadArgWord_decodes {endian : BitVec 8} {fmt rot : BitVec 4} (hendian : endian.toNat ≤ 1) (hfmt : fmt.toNat ≤ 3)
    (hrot : rot.toNat ≤ 3) : decodeLoadArg (loadArgWord endian fmt rot) = .ok (.ldarg endian fmt rot) :=
  Laws.RoundTrip.ldarg endian fmt rot Params.default (by decide) (decide_eq_true ⟨hendian, hfmt, hrot⟩)

/-- What a word that decodes to a load argument holds. -/
theorem decodeLoadArg_ok {w : Word} {endian : BitVec 8} {fmt rot : BitVec 4}
    (h : decodeLoadArg w = .ok (.ldarg endian fmt rot)) :
    w &&& 0xFECC = 0 ∧ w.extractLsb' 8 8 = endian ∧ w.extractLsb' 4 4 = fmt ∧ w.extractLsb' 0 4 = rot := by
  unfold decodeLoadArg at h
  split at h
  · next reserved =>
    injection h with h
    injection h with hendian hfmt hrot
    exact ⟨reserved, hendian, hfmt, hrot⟩
  · exact absurd h (by simp)

/-- Legal parameters give every field of the load argument a code R106 allows. -/
theorem loadArg_codes {p : Params} (h : p.wf = true) (bpp rot : Int) :
    p.endian.toNat ≤ 1 ∧ ((formatOf bpp).code p).toNat ≤ 3 ∧ (rotCode p rot).toNat ≤ 3 := by
  simp only [Params.wf, Bool.and_eq_true, decide_eq_true_eq] at h
  obtain ⟨⟨⟨-, rotNone, rotRight, rotHalf, rotLeft⟩, -⟩, fmt2, fmt3, fmt4, fmt8, endian⟩ := h
  refine ⟨endian, ?_, ?_⟩
  · cases formatOf bpp <;> assumption
  · unfold rotCode
    split_ifs <;> assumption

/-- The load argument a command sends decodes to its codes. -/
theorem loadArg_decodes {p : Params} (h : p.wf = true) (bpp rot : Int) :
    decodeLoadArg (loadArg p bpp rot) = .ok (.ldarg p.endian ((formatOf bpp).code p) (rotCode p rot)) :=
  have ⟨hendian, hfmt, hrot⟩ := loadArg_codes h bpp rot
  loadArgWord_decodes hendian hfmt hrot

theorem formatOf_code (p : Params) (bpp : Int) :
    (formatOf bpp).code p = if bpp = 2 then p.fmt2 else if bpp = 3 then p.fmt3 else if bpp = 4 then p.fmt4 else p.fmt8 := by
  unfold formatOf
  split_ifs <;> rfl

/-- With the codes of R108 a rotation's code is its number, as R221 writes it. -/
theorem rotCode_toNat {p : Params} (hnone : p.rotNone = 0) (hright : p.rotRight = 1) (hhalf : p.rotHalf = 2)
    (hleft : p.rotLeft = 3) {rot : Int} (low : 0 ≤ rot) (high : rot ≤ 3) : ((rotCode p rot).toNat : Int) = rot := by
  obtain rfl | rfl | rfl | rfl : rot = 0 ∨ rot = 1 ∨ rot = 2 ∨ rot = 3 := by omega
  all_goals simp [rotCode, hnone, hright, hhalf, hleft]

/-- Settles O16. -/
theorem loadArgumentFields : Obligations.LoadArgumentFields := by
  refine ⟨loadArgWord_toNat, fun p bpp rot legal _ low high => ?_, rfl⟩
  obtain ⟨reserved, endian, fmt, code⟩ := decodeLoadArg_ok (loadArg_decodes legal bpp rot)
  exact ⟨reserved, endian, fmt.trans (formatOf_code p bpp), code,
    fun hnone hright hhalf hleft => code ▸ rotCode_toNat hnone hright hhalf hleft low high⟩

/-! ### The VCOM word (R110, R213, R219, O41) -/

/-- Truncation of a rational that is not negative is its floor. -/
theorem trunc0_eq_floor {q : Rat} (h : 0 ≤ q) : trunc0 q = ⌊q⌋ := by
  rw [trunc0, Int.tdiv_eq_ediv_of_nonneg (Rat.num_nonneg.2 h), Rat.floor_def']

theorem wordOf_toNat {n : Int} (low : 0 ≤ n) (high : n ≤ 65535) : ((wordOf n).toNat : Int) = n := by
  rw [wordOf, BitVec.toNat_ofInt]
  omega

/-- Settles O41: a legal voltage makes `-1000 v` positive and less than 5000, and `m` is its floor. -/
theorem vcomWordIsExact : Obligations.VcomWordIsExact := by
  intro v low high
  have positive : 0 ≤ -1000 * v := by linarith
  have floor : millivolts v = ⌊-1000 * v⌋ := trunc0_eq_floor positive
  have nonneg : 0 ≤ millivolts v := floor ▸ Int.floor_nonneg.2 positive
  have bound : millivolts v < 5000 := floor ▸ Int.floor_lt.2 (by push_cast; linarith)
  refine ⟨nonneg, by omega, ?_, ?_, wordOf_toNat nonneg (by omega)⟩
  · exact floor ▸ Int.floor_le _
  · exact floor ▸ Int.lt_floor_add_one _

end Sys2Proof.Machine
end

section
/-! SUPPORT. Host requests (30_encoding.md R120 to R122): what every request decodes to, said once; the step that takes one
that is no instruction; and the first operand out of range. Then the statements that turn on them. -/

namespace Sys2Proof.Machine

/-! ### What a request decodes to -/

/-- The first of `names` that the request leaves out. -/
def firstMissing (r : HostReq) (names : List OperandName) : Option OperandName :=
  names.find? fun name => !givesOperand r.operands name

theorem firstMissing_eq_some {r : HostReq} {names : List OperandName} {name : OperandName} :
    firstMissing r names = some name ↔
      ∃ pre post, names = pre ++ name :: post ∧ (∀ n ∈ pre, givesOperand r.operands n = true) ∧
        givesOperand r.operands name = false := by
  rw [firstMissing, List.find?_eq_some_iff_append]
  simp only [Bool.not_not, Bool.not_eq_true']
  exact ⟨fun ⟨left_out, pre, post, split, given⟩ => ⟨pre, post, split, given, left_out⟩,
    fun ⟨pre, post, split, given, left_out⟩ => ⟨left_out, pre, post, split, given⟩⟩

theorem firstMissing_eq_none {r : HostReq} {names : List OperandName} :
    firstMissing r names = none ↔ ∀ n ∈ names, givesOperand r.operands n = true := by
  simp [firstMissing]

/-- What a request with an opcode of R120 decodes to, by the operand it leaves out, if there is one. -/
def Reads (r : HostReq) (x : Except Reject Instr) : Option OperandName → Prop
  | some name => x = .error (.missingOperand r.opc name)
  | none => ∃ i, x = .ok i ∧ i.opc? = some r.opc

theorem Reads.legal {r : HostReq} {x : Except Reject Instr} {o : Option OperandName} (h : Reads r x o) :
    x ≠ .error (.illegalOp r.opc) := by
  cases o with
  | some name => rw [show x = _ from h]; simp
  | none => obtain ⟨i, rfl, -⟩ := h; simp

theorem Reads.missing_iff {r : HostReq} {x : Except Reject Instr} {o : Option OperandName} {name : OperandName}
    (h : Reads r x o) : x = .error (.missingOperand r.opc name) ↔ o = some name := by
  cases o with
  | some other => rw [show x = _ from h]; simp
  | none => obtain ⟨i, rfl, -⟩ := h; simp

theorem reads_ok {r : HostReq} {i : Instr} (h : i.opc? = some (BitVec.ofNat 8 r.opc.toNat)) :
    Reads r (.ok i) (firstMissing r []) :=
  ⟨i, rfl, by rw [h, BitVec.ofNat_toNat, BitVec.setWidth_eq]⟩

/-- An operand that must be given is the first one left out, or the decoder goes on to the next. -/
theorem reads_need {α : Type} {r : HostReq} {name : OperandName} {names : List OperandName} {o : Option α}
    {f : α → Except Reject Instr} (ho : givesOperand r.operands name = o.isSome)
    (h : ∀ a, Reads r (f a) (firstMissing r names)) : Reads r (r.need name o >>= f) (firstMissing r (name :: names)) := by
  cases o with
  | none =>
    rw [firstMissing, List.find?_cons_of_pos (by simp [ho])]
    rfl
  | some a =>
    rw [firstMissing, List.find?_cons_of_neg (by simp [ho])]
    exact h a

/-- Whether an opcode is reserved, as bounds `omega` can use. -/
theorem reservedOpcode_iff {b : Byte} :
    reservedOpcode b ↔ b.toNat = 0 ∨ (8 ≤ b.toNat ∧ b.toNat ≤ 15) ∨ (20 ≤ b.toNat ∧ b.toNat ≤ 31) ∨
      (43 ≤ b.toNat ∧ b.toNat ≤ 46) ∨ 48 ≤ b.toNat := by
  have := b.isLt
  unfold reservedOpcode
  omega

theorem decodeHost_reserved (p : Params) {r : HostReq} (h : reservedOpcode r.opc) :
    decodeHost p r = .error (.illegalOp r.opc) := by
  rw [reservedOpcode_iff] at h
  unfold decodeHost
  split
  case h_24 => rfl
  all_goals omega

theorem neededOperands_reserved {b : Byte} (h : reservedOpcode b) : neededOperands b = [] := by
  rw [reservedOpcode_iff] at h
  unfold neededOperands
  split
  case h_17 => rfl
  all_goals omega

/-- A request with an opcode of R120 decodes to an instruction of it, unless an operand without a default is left out. -/
theorem decodeHost_reads (p : Params) {r : HostReq} (h : ¬reservedOpcode r.opc) :
    Reads r (decodeHost p r) (firstMissing r (neededOperands r.opc)) := by
  rw [reservedOpcode_iff] at h
  have bound := r.opc.isLt
  unfold decodeHost neededOperands
  split
  case h_24 =>
    exfalso
    simp only [imp_false] at *
    omega
  all_goals
    next opc =>
    simp only [opc]
    repeat refine reads_need rfl fun _ => ?_
    exact reads_ok (by rw [opc]; rfl)

/-! ### A request that is no instruction -/

/-- The step that takes such a request is an interleaving point and its fault: no response, no `OP`, nothing sent. -/
theorem step_rejects {s : State} {r : HostReq} {rest : List HostReq} {e : Reject} (hs : s.seq = .idle)
    (hr : s.requests = r :: rest) (hd : decodeHost s.params r = .error e) :
    ∃ t, step s = .next t ∧ t.faults = addFault ⟨rejectCause e, r.opc⟩ s.faults ∧ t.seq = .halted ∧ t.resp = none ∧
      sequencerEvents t.trace = sequencerEvents s.trace ++ [Event.endOp (.fault (rejectCause e))] ∧ t.tmo = s.tmo ∧
      SameBlock { s with faults := t.faults, requests := rest } t := by
  refine ⟨rejectRequest r e (takeRequest rest s), by simp only [step, hs, hr, hd], rfl, rfl, rfl, ?_, rfl,
    ⟨rfl, rfl, rfl, rfl, rfl, rfl, rfl, rfl, rfl⟩⟩
  rw [rejectRequest, takeFault_trace, takeRequest_trace]
  simp [sequencerEvents]

/-- Settles O13. -/
theorem reservedOpcodesFault : Obligations.ReservedOpcodesFault := by
  refine ⟨fun p r => ⟨fun refused => ?_, decodeHost_reserved p⟩, fun s r rest hs hr reserved =>
    step_rejects hs hr (decodeHost_reserved s.params reserved)⟩
  by_contra admitted
  exact (decodeHost_reads p admitted).legal refused

/-- A request misses exactly the first operand without a default that it leaves out. -/
theorem decodeHost_missing {p : Params} {r : HostReq} {name : OperandName} :
    decodeHost p r = .error (.missingOperand r.opc name) ↔ firstMissing r (neededOperands r.opc) = some name := by
  by_cases reserved : reservedOpcode r.opc
  · simp [decodeHost_reserved p reserved, neededOperands_reserved reserved, firstMissing]
  · exact (decodeHost_reads p reserved).missing_iff

/-- Settles O57. -/
theorem missingOperandsFault : Obligations.MissingOperandsFault := by
  refine ⟨fun p r name => decodeHost_missing.trans firstMissing_eq_some, fun p r admitted given => ?_,
    fun s r rest pre post name hs hr split given left_out => ?_⟩
  · have reads := decodeHost_reads p admitted
    rw [firstMissing_eq_none.2 given] at reads
    exact reads
  · exact step_rejects hs hr (decodeHost_missing.2 (firstMissing_eq_some.2 ⟨pre, post, split, given, left_out⟩))

/-! ### The first operand out of range (R121, R306) -/

/-- `o` names the first entry of a list of checks that does not hold, and nothing when all hold. -/
def FirstOut (o : Option OperandName) : List (OperandName × Prop) → Prop
  | [] => o = none
  | e :: es => (e.2 → FirstOut o es) ∧ (¬e.2 → o = some e.1)

theorem FirstOut.none_iff {o : Option OperandName} {es : List (OperandName × Prop)} (h : FirstOut o es) :
    o = none ↔ ∀ e ∈ es, e.2 := by
  induction es with
  | nil => exact iff_of_true h (by simp)
  | cons e es ih =>
    obtain ⟨inside, outside⟩ := h
    by_cases holds : e.2
    · simp [ih (inside holds), holds]
    · simp [outside holds, holds]

theorem FirstOut.eq_some {o : Option OperandName} {pre post : List (OperandName × Prop)} {name : OperandName} {ok : Prop}
    (h : FirstOut o (pre ++ (name, ok) :: post)) (before : ∀ e ∈ pre, e.2) (out : ¬ok) : o = some name := by
  induction pre with
  | nil => exact h.2 out
  | cons e pre ih => exact ih (h.1 (before e (by simp))) fun x hx => before x (by simp [hx])

theorem firstOut_cons {b : Bool} {ok : Prop} (name : OperandName) {o : Option OperandName}
    {es : List (OperandName × Prop)} (hb : b = true ↔ ok) (h : FirstOut o es) :
    FirstOut ((badUnless b name).or o) ((name, ok) :: es) := by
  cases b with
  | true => exact ⟨fun _ => h, fun out => absurd (hb.1 rfl) out⟩
  | false => exact ⟨fun holds => absurd (hb.2 holds) Bool.false_ne_true, fun _ => rfl⟩

theorem firstOut_last {b : Bool} {ok : Prop} (name : OperandName) (hb : b = true ↔ ok) :
    FirstOut (badUnless b name) [(name, ok)] :=
  Option.or_none (o := badUnless b name) ▸ firstOut_cons name hb rfl

theorem wordOk_iff {n : Int} : wordOk n = true ↔ inWord n := decide_eq_true_iff

theorem sizeOk_iff {n : Int} : sizeOk n = true ↔ inSize n := decide_eq_true_iff

theorem bitOk_iff {n : Int} : bitOk n = true ↔ n = 0 ∨ n = 1 := decide_eq_true_iff

theorem bppOk_iff {n : Int} : bppOk n = true ↔ inBpp n := decide_eq_true_iff

theorem rotOk_iff {n : Int} : rotOk n = true ↔ 0 ≤ n ∧ n ≤ 3 := decide_eq_true_iff

theorem words_ok_iff {ws : List Int} : ws.all wordOk = true ↔ ∀ w ∈ ws, inWord w := by
  simp only [List.all_eq_true, wordOk_iff]

theorem pixels_ok_iff {pix : List Int} : pix.all pixelOk = true ↔ inPixels pix := by
  simp [inPixels, pixelOk]

theorem dimsOk_iff {o : Option (Int × Int)} : dimsOk o = true ↔ ∀ q, o = some q → inSize q.1 ∧ inSize q.2 := by
  cases o <;> simp [dimsOk, sizeOk_iff]

theorem originOk_iff {o : Option (Int × Int)} : originOk o = true ↔ ∀ q, o = some q → inWord q.1 ∧ inWord q.2 := by
  cases o <;> simp [originOk, wordOk_iff]

/-- LOADIMG.AREA's check of `origin`: in range if given, and not left out together with `dims`. -/
theorem areaOrigin_ok_iff {origin dims : Option (Int × Int)} :
    (originOk origin && (origin.isSome || dims.isSome)) = true ↔
      (∀ q, origin = some q → inWord q.1 ∧ inWord q.2) ∧ ¬(origin = none ∧ dims = none) := by
  rw [Bool.and_eq_true, originOk_iff]
  cases origin <;> cases dims <;> simp

/-- The checks of `operandFault` are those of the independent list, in its order. -/
theorem operandFault_firstOut (p : Params) (i : Instr) : FirstOut (operandFault p i) (operandRanges p i) := by
  cases i with
  | xfer ws => exact firstOut_last .ws words_ok_iff
  | wcmd code wait => exact firstOut_cons .code wordOk_iff (firstOut_last .wait bitOk_iff)
  | wdata w => exact firstOut_last .w wordOk_iff
  | wwords ws chunk => exact firstOut_cons .ws words_ok_iff (firstOut_last .chunk sizeOk_iff)
  | rwords count => exact firstOut_last .count wordOk_iff
  | pack2 pix => exact firstOut_last .pix pixels_ok_iff
  | pack3 pix => exact firstOut_last .pix pixels_ok_iff
  | pack4 pix => exact firstOut_last .pix pixels_ok_iff
  | pack8 pix => exact firstOut_last .pix pixels_ok_iff
  | rdreg addr => exact firstOut_last .addr wordOk_iff
  | wrreg addr value => exact firstOut_cons .addr wordOk_iff (firstOut_last .value wordOk_iff)
  | loadimgFull bpp rot pix =>
    exact firstOut_cons .bpp bppOk_iff (firstOut_cons .rot rotOk_iff (firstOut_last .pix pixels_ok_iff))
  | loadimgArea bpp rot origin dims pix =>
    exact firstOut_cons .bpp bppOk_iff (firstOut_cons .rot rotOk_iff (firstOut_cons .origin areaOrigin_ok_iff
      (firstOut_cons .dims dimsOk_iff (firstOut_last .pix pixels_ok_iff))))
  | dpyarea x y w h mode =>
    exact firstOut_cons .x wordOk_iff (firstOut_cons .y wordOk_iff (firstOut_cons .w sizeOk_iff
      (firstOut_cons .h sizeOk_iff (firstOut_last .mode List.contains_iff_mem))))
  | _ => exact rfl

/-- `operandsInRange` is the conjunction of the same checks. -/
theorem operandsInRange_iff (p : Params) (i : Instr) : operandsInRange p i ↔ ∀ e ∈ operandRanges p i, e.2 := by
  cases i with
  | loadimgArea bpp rot origin dims pix =>
    simp only [operandsInRange, operandRanges, List.forall_mem_cons]
    tauto
  | _ => simp [operandsInRange, operandRanges]

/-- The range check comes before every other one: its fault is the operation's (R306). -/
theorem exec_operand_out {i : Instr} {s : State} {name : OperandName} (hi : i.opc?.isSome = true) (hs : s.seq = .idle)
    (out : operandFault s.params i = some name) : FaultsWith i s (.operand name) := by
  obtain ⟨plan, runs⟩ := exec_host hi s
  have first : firstFault i plan s = some (.operand name) := by simp only [firstFault, out, Option.map_some, Option.some_or]
  rw [FaultsWith, runs, runOp_faults hs first, takeFault_accept]

/-- Settles O14. -/
theorem operandRangesHold : Obligations.OperandRanges := by
  refine ⟨fun p i => (operandFault_firstOut p i).none_iff, operandsInRange_iff,
    fun i s pre post name ok hi hs split before out => exec_operand_out hi hs ?_, fun _ _ _ _ _ _ _ => ⟨rfl, rfl, rfl, rfl⟩⟩
  exact (split ▸ operandFault_firstOut s.params i).eq_some before out

end Sys2Proof.Machine
end

section
/-! SUPPORT. The wire rows (30_encoding.md R103 to R106; 40_transport.md R147): each is one gated transaction of its words, in
every state but HALTED. -/

namespace Sys2Proof.Machine

/-- A gated transaction, with everything it leaves alone. -/
theorem gx_gatedBetween {ws : List Word} (hw : ws ≠ []) (s : State) : GatedBetween ws s (gx (.xfer ws) s) := by
  obtain ⟨a, b, c, trace, rdata, rdy, tmo⟩ := gx_between hw s
  have kept := gx_kept ws s
  have new := newEvents_of_append trace
  exact ⟨a, b, c, new, new.symm ▸ trace, rdata, rdy, tmo, kept.sameBlock, kept.seq, kept.resp⟩

/-- A wire row answers the state after its transaction. -/
theorem runWire_gatedBetween {x : Act} (hx : x.isUnit = true) {s : State} (hs : s.seq ≠ .halted) :
    ∃ t, runWire x s = .next t ∧ GatedBetween x.sent s t :=
  ⟨gx x s, runWire_go hs, gx_unit hx s ▸ gx_gatedBetween (isUnit_sent hx) s⟩

/-- The CMD frame of any code. -/
theorem sendCmd_gatedBetween (code : Word) {s : State} (hs : s.seq ≠ .halted) :
    ∃ t, sendCmd code s = .next t ∧ GatedBetween [0x6000, code] s t :=
  runWire_gatedBetween (x := .xfer [Config.preCmd, code]) rfl hs

/-- Settles O18. -/
theorem wireCommandsSend : Obligations.WireCommandsSend := fun _ hs =>
  ⟨sendCmd_gatedBetween _ hs, sendCmd_gatedBetween _ hs, sendCmd_gatedBetween _ hs, sendCmd_gatedBetween _ hs,
    sendCmd_gatedBetween _ hs, sendCmd_gatedBetween _ hs, sendCmd_gatedBetween _ hs, sendCmd_gatedBetween _ hs,
    sendCmd_gatedBetween _ hs, sendCmd_gatedBetween _ hs⟩

/-- Settles O19. -/
theorem wireFramesSend : Obligations.WireFramesSend := fun s hs =>
  ⟨fun payload => runWire_gatedBetween (x := .xfer (Config.preData :: payload)) rfl hs,
    fun count => runWire_gatedBetween (x := .xfer (readFrame s.params count)) rfl hs,
    fun endian fmt rot => runWire_gatedBetween (x := .xferArg (loadArgWord endian fmt rot)) rfl hs⟩

end Sys2Proof.Machine
end

section
/-! SUPPORT. The decoder of a trace (30_encoding.md R113, R104): what it makes of one transaction of each kind, and of the
transactions of a command sequence one after another, whatever they received. -/

namespace Sys2Proof.Machine

/-! ### One transaction -/

/-- A transaction whose unit decodes is read, and its role says what is due next. -/
theorem decodeTraceFrom_ok {p : Params} {due next : List Role} {sent received : List Word} {i : Instr} {role : Role}
    (rest : List (List Word × List Word)) (hd : decodeWire p (traceUnit due sent) = .ok i)
    (hr : roleOf p due i = (role, next)) :
    decodeTraceFrom p due ((sent, received) :: rest) =
      .ok ⟨i, role, carried i received⟩ :: decodeTraceFrom p next rest := by
  simp only [decodeTraceFrom, hd, hr]

/-- Only a DATA frame can be a load argument, so a CMD frame is a frame whatever is due. -/
theorem traceUnit_command (due : List Role) (code : Word) :
    traceUnit due [0x6000, code] = .frame [Config.preCmd, code] := by
  unfold traceUnit
  split
  · next sent =>
    obtain ⟨rfl, -⟩ := List.cons.inj sent
    exact if_neg (by decide)
  · rfl

/-- The DATA and READ frames R104 gives after a command. -/
def following (cmd : Instr) : List Role := ((sequenceTable.find? fun e => e.1 == cmd).map Prod.snd).getD []

theorem decodeCommand_mem {p : Params} {code : Word} {cmd : Instr} (h : decodeCommand p code = .ok cmd) :
    (code, cmd) ∈ commandTable p := by
  unfold decodeCommand at h
  split at h
  · next row found =>
    obtain rfl : row.2 = cmd := by injection h
    obtain rfl : row.1 = code := by simpa using List.find?_some found
    exact List.mem_of_find?_eq_some found
  · exact absurd h (by simp)

/-- A command begins its own sequence, whatever was due, and carries no word. -/
theorem command_role {p : Params} {code : Word} {cmd : Instr} (h : (code, cmd) ∈ commandTable p) (due : List Role)
    (received : List Word) : roleOf p due cmd = (.command, following cmd) ∧ carried cmd received = [] := by
  simp only [commandTable, List.mem_cons, List.not_mem_nil, or_false, Prod.mk.injEq] at h
  rcases h with ⟨-, rfl⟩ | ⟨-, rfl⟩ | ⟨-, rfl⟩ | ⟨-, rfl⟩ | ⟨-, rfl⟩ | ⟨-, rfl⟩ | ⟨-, rfl⟩ | ⟨-, rfl⟩ | ⟨-, rfl⟩ |
    ⟨-, rfl⟩ <;> exact ⟨rfl, rfl⟩

/-- The CMD frame of row `k` of the command table. -/
theorem decodeTraceFrom_command {p : Params} (hp : p.wf = true) {code : Word} {cmd : Instr} (k : Nat)
    (hk : (commandTable p)[k]? = some (code, cmd)) (due : List Role) (received : List Word)
    (rest : List (List Word × List Word)) :
    decodeTraceFrom p due (([0x6000, code], received) :: rest) =
      .ok ⟨cmd, .command, []⟩ :: decodeTraceFrom p (following cmd) rest := by
  obtain ⟨role, words⟩ := command_role (List.mem_of_getElem? hk) due received
  rw [decodeTraceFrom_ok rest (traceUnit_command due code ▸ Laws.RoundTrip.command_at hp k hk) role, words]

/-- A DATA frame is a frame unless a load argument is due. -/
theorem traceUnit_of_not_loadArg {due : List Role} (h : due.head? ≠ some .loadArg) (sent : List Word) :
    traceUnit due sent = .frame sent := by
  unfold traceUnit
  split
  · exact absurd rfl h
  · rfl

/-- The meanings a one-word DATA frame can have whatever its word, and that are due once (R104). -/
def argumentRoles : List Role := [.addr, .value, .millivolts, .x, .y, .w, .h, .mode]

/-- A one-word DATA frame where an argument is due. -/
theorem decodeTraceFrom_word {p : Params} {role : Role} {due : List Role} (h : role ∈ argumentRoles) (v : Word)
    (received : List Word) (rest : List (List Word × List Word)) :
    decodeTraceFrom p (role :: due) (([0x0000, v], received) :: rest) =
      .ok ⟨.frameData [v], role, [v]⟩ :: decodeTraceFrom p due rest := by
  simp only [argumentRoles, List.mem_cons, List.not_mem_nil, or_false] at h
  rcases h with rfl | rfl | rfl | rfl | rfl | rfl | rfl | rfl <;> exact decodeTraceFrom_ok rest rfl rfl

/-- A one-word DATA frame where a VCOM selector is due: its word says what is due next. -/
theorem decodeTraceFrom_selector {p : Params} {v : Word} {next : List Role} (h : afterSelector p v = next)
    (received : List Word) (rest : List (List Word × List Word)) :
    decodeTraceFrom p [.selector] (([0x0000, v], received) :: rest) =
      .ok ⟨.frameData [v], .selector, [v]⟩ :: decodeTraceFrom p next rest :=
  decodeTraceFrom_ok rest rfl (congrArg (Role.selector, ·) h)

/-- A DATA frame where payload is due; payload stays due. -/
theorem decodeTraceFrom_payload (p : Params) {chunk : List Word} (h : chunk ≠ []) (received : List Word)
    (rest : List (List Word × List Word)) :
    decodeTraceFrom p [.payload] ((0x0000 :: chunk, received) :: rest) =
      .ok ⟨.frameData chunk, .payload, chunk⟩ :: decodeTraceFrom p [.payload] rest := by
  obtain ⟨w, ws, rfl⟩ := List.exists_cons_of_ne_nil h
  exact decodeTraceFrom_ok rest rfl (by cases ws <;> rfl)

/-- The READ frame that fetches the reply that is due; the words after the first two are the reply (R152). -/
theorem decodeTraceFrom_read {p : Params} {due : List Role} {role : Role} {count : Nat}
    (h : role.replyWords = some count) (received : List Word) (rest : List (List Word × List Word)) :
    decodeTraceFrom p (role :: due) ((0x1000 :: List.replicate (count + 1) p.dummy, received) :: rest) =
      .ok ⟨.frameRead count, role, received.drop 2⟩ :: decodeTraceFrom p due rest := by
  have reply : role ≠ .loadArg := by rintro rfl; simp [Role.replyWords] at h
  refine decodeTraceFrom_ok rest ?_ (by simp [roleOf, readRole, h])
  rw [traceUnit_of_not_loadArg (by simpa using reply)]
  exact decode_read_frame p count

/-- A one-word DATA frame where a load argument is due, with the codes legal parameters give (R106). -/
theorem decodeTraceFrom_loadArg {p : Params} (hp : p.wf = true) (bpp rot : Int) (due : List Role) (received : List Word)
    (rest : List (List Word × List Word)) :
    decodeTraceFrom p (.loadArg :: due) (([0x0000, loadArg p bpp rot], received) :: rest) =
      .ok ⟨.ldarg p.endian ((formatOf bpp).code p) (rotCode p rot), .loadArg, [loadArg p bpp rot]⟩ ::
        decodeTraceFrom p due rest :=
  decodeTraceFrom_ok rest (loadArg_decodes hp bpp rot) rfl

theorem afterSelector_get (p : Params) : afterSelector p p.vcomGet = [.vcomReply] := if_pos rfl

theorem afterSelector_set {p : Params} (hp : p.wf = true) : afterSelector p p.vcomSet = [.millivolts] := by
  simp only [Params.wf, Bool.and_eq_true, decide_eq_true_eq] at hp
  obtain ⟨⟨⟨⟨-, -, distinct⟩, -⟩, -⟩, -⟩ := hp
  rw [afterSelector, if_neg (Ne.symm distinct), if_pos rfl]

/-! ### Transactions one after another -/

/-- One transaction read, then the rest. -/
theorem reads_cons {x : Except Reject Decoded} {whole rest read : List (Except Reject Decoded)} (h : whole = x :: rest)
    (hr : rest = read) : whole = x :: read :=
  hr ▸ h


/-- Where `due` comes next, transactions that send `sent` are read as `read`, whatever they received, and leave `next` due. -/
def TraceReads (p : Params) (due : List Role) (sent : List (List Word)) (read : List (Except Reject Decoded))
    (next : List Role) : Prop :=
  ∀ tr rest : List (List Word × List Word), tr.map Prod.fst = sent →
    decodeTraceFrom p due (tr ++ rest) = read ++ decodeTraceFrom p next rest

theorem TraceReads.nil (p : Params) (due : List Role) : TraceReads p due [] [] due := by
  intro tr rest sends
  rw [List.map_eq_nil_iff.1 sends]
  rfl

theorem TraceReads.append {p : Params} {due mid next : List Role} {sent sent' : List (List Word)}
    {read read' : List (Except Reject Decoded)} (a : TraceReads p due sent read mid) (b : TraceReads p mid sent' read' next) :
    TraceReads p due (sent ++ sent') (read ++ read') next := by
  intro tr rest sends
  obtain ⟨first, second, rfl, ha, hb⟩ := List.map_eq_append_iff.1 sends
  rw [List.append_assoc, a first _ ha, b second _ hb, List.append_assoc]

theorem TraceReads.one {p : Params} {due next : List Role} {sent : List Word} {read : Except Reject Decoded}
    (h : ∀ received rest, decodeTraceFrom p due ((sent, received) :: rest) = read :: decodeTraceFrom p next rest) :
    TraceReads p due [sent] [read] next := by
  intro tr rest sends
  obtain ⟨⟨_, received⟩, tail, rfl, rfl, empty⟩ := List.map_eq_cons_iff.1 sends
  rw [List.map_eq_nil_iff.1 empty]
  exact h received rest

/-- A whole trace is read so from its beginning. -/
theorem TraceReads.decodeTrace {p : Params} {sent : List (List Word)} {read : List (Except Reject Decoded)}
    {next : List Role} (h : TraceReads p [] sent read next) {tr : List (List Word × List Word)}
    (sends : tr.map Prod.fst = sent) : decodeTrace p tr = read := by
  simpa [Sys2Proof.decodeTrace, decodeTraceFrom] using h tr [] sends

/-- The four sides of a rectangle, in order. -/
theorem traceReads_rect (p : Params) {rect : List Word} (h : rect.length = 4) (due : List Role) :
    TraceReads p (.x :: .y :: .w :: .h :: due) (rect.map fun a => [0x0000, a])
      (([Role.x, .y, .w, .h].zip rect).map fun q => .ok ⟨.frameData [q.2], q.1, [q.2]⟩) due := by
  match rect, h with
  | [x, y, w, h], _ =>
    have side : ∀ {role : Role} (v : Word) (due : List Role), role ∈ argumentRoles →
        TraceReads p (role :: due) [[0x0000, v]] [.ok ⟨.frameData [v], role, [v]⟩] due :=
      fun v _ argument => .one (decodeTraceFrom_word argument v)
    exact (side x _ (by decide)).append ((side y _ (by decide)).append ((side w _ (by decide)).append (side h _ (by decide))))

/-- Any number of payload transactions. -/
theorem traceReads_payload (p : Params) {chunks : List (List Word)} (h : ∀ c ∈ chunks, c ≠ []) :
    TraceReads p [.payload] (chunks.map (0x0000 :: ·)) (chunks.map fun c => .ok ⟨.frameData c, .payload, c⟩) [.payload] := by
  induction chunks with
  | nil => exact .nil p _
  | cons c cs ih =>
    exact (TraceReads.one (decodeTraceFrom_payload p (h c (by simp)))).append (ih fun d hd => h d (by simp [hd]))

/-- A load from its command to its end (R104): the argument, the rectangle if there is one, the payload. -/
theorem traceReads_load {p : Params} (hp : p.wf = true) {code : Word} {cmd : Instr} (k : Nat)
    (hk : (commandTable p)[k]? = some (code, cmd)) (bpp rot : Int) {sides : List Role} {rect : List (List Word)}
    {read : List (Except Reject Decoded)} (hf : following cmd = .loadArg :: sides)
    (hs : TraceReads p sides rect read [.payload]) {chunks : List (List Word)} (hc : ∀ c ∈ chunks, c ≠ []) :
    TraceReads p []
      ([[0x6000, code], [0x0000, loadArg p bpp rot]] ++ rect ++ chunks.map (0x0000 :: ·) ++ [[0x6000, p.cmdLdImgEnd]])
      ([.ok ⟨cmd, .command, []⟩,
          .ok ⟨.ldarg p.endian ((formatOf bpp).code p) (rotCode p rot), .loadArg, [loadArg p bpp rot]⟩] ++ read ++
        chunks.map (fun c => .ok ⟨.frameData c, .payload, c⟩) ++ [.ok ⟨.cmdLdImgEnd, .command, []⟩])
      [] := by
  have begins : TraceReads p [] [[0x6000, code]] [.ok ⟨cmd, .command, []⟩] (.loadArg :: sides) :=
    .one fun received rest => hf ▸ decodeTraceFrom_command hp k hk [] received rest
  have argument := TraceReads.one (decodeTraceFrom_loadArg hp bpp rot sides)
  have ends := TraceReads.one (decodeTraceFrom_command hp 6 rfl [.payload])
  exact (((begins.append argument).append hs).append (traceReads_payload p hc)).append ends

/-- A CMD frame is read as if nothing had been due, and so is what follows it. -/
theorem decodeTraceFrom_command_restarts (p : Params) (due : List Role) (code : Word) (received : List Word)
    (rest : List (List Word × List Word)) :
    decodeTraceFrom p due (([0x6000, code], received) :: rest) = decodeTrace p (([0x6000, code], received) :: rest) := by
  rw [decodeTrace, decodeTraceFrom, decodeTraceFrom, traceUnit_command, traceUnit_command]
  cases decoded : decodeWire p (.frame [Config.preCmd, code]) with
  | error e => rfl
  | ok i =>
    have row := decodeCommand_mem (p := p) decoded
    simp only [(command_role row due received).1, (command_role row [] received).1]

/-- Settles O17. -/
theorem tracesDecode : Obligations.TracesDecode := by
  intro p hp
  refine ⟨fun bpp rot rect roles cmd code chunks tr _ _ _ hc load sends => ?_,
    fun a v x y w h m r0 r1 r2 r3 r4 r5 => ⟨?_, ?_, ?_, ?_, ?_, ?_, ?_⟩, decodeTraceFrom_command_restarts p⟩
  · rcases load with ⟨rfl, rfl, rfl, rfl⟩ | ⟨rfl, rfl, rfl, four⟩
    · exact (traceReads_load hp 4 rfl bpp rot rfl (.nil p _) hc).decodeTrace sends
    · exact (traceReads_load hp 5 rfl bpp rot rfl (traceReads_rect p four _) hc).decodeTrace sends
  · exact reads_cons (decodeTraceFrom_command hp 0 rfl [] r0 _) (decodeTraceFrom_command hp 1 rfl [] r1 [])
  · exact reads_cons (decodeTraceFrom_command hp 2 rfl [] r0 _) <|
      reads_cons (decodeTraceFrom_word (role := .addr) (by decide) a r1 _) (decodeTraceFrom_read (count := 1) rfl r2 [])
  · exact reads_cons (decodeTraceFrom_command hp 3 rfl [] r0 _) <|
      reads_cons (decodeTraceFrom_word (role := .addr) (by decide) a r1 _)
        (decodeTraceFrom_word (role := .value) (by decide) v r2 [])
  · exact reads_cons (decodeTraceFrom_command hp 8 rfl [] r0 _) <|
      reads_cons (decodeTraceFrom_selector (afterSelector_get p) r1 _) (decodeTraceFrom_read (count := 1) rfl r2 [])
  · exact reads_cons (decodeTraceFrom_command hp 8 rfl [] r0 _) <|
      reads_cons (decodeTraceFrom_selector (afterSelector_set hp) r1 _)
        (decodeTraceFrom_word (role := .millivolts) (by decide) m r2 [])
  · exact reads_cons (decodeTraceFrom_command hp 9 rfl [] r0 _) (decodeTraceFrom_read (count := 20) rfl r1 [])
  · exact reads_cons (decodeTraceFrom_command hp 7 rfl [] r0 _) <|
      reads_cons (decodeTraceFrom_word (role := .x) (by decide) x r1 _) <|
      reads_cons (decodeTraceFrom_word (role := .y) (by decide) y r2 _) <|
      reads_cons (decodeTraceFrom_word (role := .w) (by decide) w r3 _) <|
      reads_cons (decodeTraceFrom_word (role := .h) (by decide) h r4 _)
        (decodeTraceFrom_word (role := .mode) (by decide) m r5 [])

end Sys2Proof.Machine
end

section
/-! SUPPORT. The transport operations (40_transport.md R141, R148 to R159): what each of them does from IDLE with its operands in
range, assembled from the run of its legs, and the fault of the first operand out of range. -/

namespace Sys2Proof.Machine

/-! ### From IDLE: the fault of an operand, or the run of the legs -/

/-- The first operand out of range is the fault (R121, R306). -/
theorem exec_out_of_range {i : Instr} {s : State} {pre post : List (OperandName × Prop)} {name : OperandName} {ok : Prop}
    (host : i.opc?.isSome = true) (idle : s.seq = .idle) (ranges : operandRanges s.params i = pre ++ (name, ok) :: post)
    (before : ∀ e ∈ pre, e.2) (out : ¬ok) : FaultsWith i s (.operand name) :=
  let ⟨_, _, faults, _⟩ := operandRangesHold
  faults i s pre post name ok host idle ranges before out

theorem operandFault_none {p : Params} {i : Instr} (inRange : operandsInRange p i) : operandFault p i = none :=
  (operandFault_firstOut p i).none_iff.2 ((operandsInRange_iff p i).1 inRange)

section
variable {i : Instr} {s : State}

/-- An operation that checks nothing but its operands (R158) runs its legs when they are in range. -/
theorem exec_runs_legs {prog : List Act} (runs : exec i s = runOp i { prog := prog } s) (idle : s.seq = .idle)
    (inRange : operandsInRange s.params i) :
    exec i s = .next (ticks prog.length (load i.opc prog (accept i s))) := by
  have passes : firstFault i { prog := prog } s = none := by simp [firstFault, operandFault_none inRange]
  rw [runs, runOp_go idle passes rfl]

/-- A raw operation made of gated transactions: they are sent in order, and RMA is set. -/
theorem exec_gated_raw (xs : List Act) {r : ResultSpec}
    (runs : exec i s = runOp i { prog := xs.flatMap gated ++ [Act.setRma true] ++ [Act.finish r] } s)
    (idle : s.seq = .idle) (inRange : operandsInRange s.params i) (units : ∀ x ∈ xs, x.isUnit = true) :
    ∃ t hs, exec i s = .next t ∧ Gated (xs.map Act.sent) hs ∧ Ran i s t hs ∧ t.answers (resultOf t r) ∧
      t.rdata = (if xs = [] then [] else lastReceived hs) ∧ SameBlock { s with rma := true } t := by
  obtain ⟨hs, t, run, sent, ran, block, received, answer⟩ := run_units i xs [.setRma true] r units (by simp [Act.silent]) s
  exact ⟨t, hs, (exec_runs_legs runs idle inRange).trans (congrArg _ run), sent, ran, answer, received, block⟩

/-- A raw operation that only exchanges words: no handshake, and RMA is set. -/
theorem exec_bare_raw {ws : List Word} {r : ResultSpec}
    (runs : exec i s = runOp i { prog := [.xfer ws, .setRma true, .finish r] } s) (idle : s.seq = .idle)
    (inRange : operandsInRange s.params i) :
    ∃ t, exec i s = .next t ∧ Ran i s t (if ws = [] then [] else [Event.frame ws (receive s ws.length)]) ∧
      t.answers (resultOf t r) ∧ t.rdata = receive s ws.length ∧ t.tmo = s.tmo ∧ ReadyByEdges s t ∧
      SameBlock { s with rma := true } t := by
  obtain ⟨t, run, ran, block, received, tmo, answer⟩ := run_bare i ws r s
  have ready := run_quiet i [.xfer ws, .setRma true] (List.all_eq_true.1 rfl) r s
  rw [List.cons_append, List.singleton_append, run] at ready
  exact ⟨t, (exec_runs_legs runs idle inRange).trans (congrArg _ run), ran, answer, received, tmo, ready, block⟩

end

/-! ### The raw operations (O23 to O27) -/

/-- Settles O23: a bare exchange of the words. -/
theorem xferExchangesWords : Obligations.XferExchangesWords := by
  intro s ws idle
  refine ⟨rfl, fun inRange => ?_, exec_out_of_range (pre := []) rfl idle rfl nofun⟩
  obtain ⟨t, run, ran, answer, received, tmo, ready, block⟩ :=
    exec_bare_raw (i := .xfer ws) (ws := ws.map wordOf) (r := .rxAll) rfl idle inRange
  rw [List.length_map] at ran received
  have events := ran.events
  simp only [List.map_eq_nil_iff] at events
  exact ⟨t, run, events, received ▸ answer, receive_length s _, ran.idle, tmo, ready, block⟩

/-- Settles O24: with `wait = 1` one gated transaction, with `wait = 0` a bare exchange. -/
theorem wcmdSendsACommand : Obligations.WcmdSendsACommand := by
  intro s code idle inRange
  constructor
  · obtain ⟨t, hs, run, sent, ran, answer, _, block⟩ :=
      exec_gated_raw (i := .wcmd code 1) [.xfer [Config.preCmd, wordOf code]] (r := .none) rfl idle ⟨inRange, .inr rfl⟩
        (by simp [Act.isUnit])
    exact ⟨t, hs, run, sent, ran, answer, block⟩
  · obtain ⟨t, run, ran, answer, _, _, ready, block⟩ :=
      exec_bare_raw (i := .wcmd code 0) (ws := [Config.preCmd, wordOf code]) (r := .none) rfl idle ⟨inRange, .inl rfl⟩
    exact ⟨t, run, ran, answer, ready, block⟩

/-- Settles O25: one gated transaction. -/
theorem wdataSendsAWord : Obligations.WdataSendsAWord := by
  intro s w idle
  refine ⟨rfl, fun inRange => ?_, exec_out_of_range (pre := []) rfl idle rfl nofun⟩
  obtain ⟨t, hs, run, sent, ran, answer, _, block⟩ :=
    exec_gated_raw (i := .wdata w) [.xfer [Config.preData, wordOf w]] (r := .none) rfl idle inRange (by simp [Act.isUnit])
  exact ⟨t, hs, run, sent, ran, answer, block⟩

/-- The legs of WWORDS are the transactions of its chunks. -/
theorem exec_wwords_units (ws : List Int) (chunk : Int) (s : State) :
    exec (.wwords ws chunk) s = runOp (.wwords ws chunk)
      { prog := (payloadUnits chunk.toNat (ws.map wordOf)).flatMap gated ++ [Act.setRma true] ++ [Act.finish .none] } s := by
  change runOp _ { prog := wwordsActs ws chunk } s = _
  rw [wwordsActs, payloadActs_units, List.append_assoc]
  rfl

/-- Settles O26: the runs are those of `chunksOf`, one gated transaction each. -/
theorem wwordsSendsChunks : Obligations.WwordsSendsChunks := by
  intro s ws chunk idle
  refine ⟨rfl, fun wordsIn chunkIn => ?_, exec_out_of_range (pre := []) rfl idle rfl nofun, fun wordsIn => ?_⟩
  · obtain ⟨t, hs, run, sent, ran, answer, _, block⟩ :=
      exec_gated_raw _ (exec_wwords_units ws chunk s) idle ⟨wordsIn, chunkIn⟩ (payloadUnits_isUnit _ _)
    rw [payloadUnits_sent] at sent
    obtain ⟨low, _⟩ := chunkIn
    obtain ⟨whole, count, short, full⟩ := chunksOf_spec (k := chunk.toNat) (by omega) (ws.map wordOf)
    rw [List.length_map] at count
    exact ⟨t, hs, _, run, sent, ran, answer, block, whole, count,
      fun c hc => ⟨(short c hc).1, by have := (short c hc).2; omega⟩, fun c hc => by have := full c hc; omega⟩
  · exact exec_out_of_range (pre := [(.ws, ∀ w ∈ ws, inWord w)]) rfl idle rfl (by simpa using wordsIn)

/-- What a single transaction received has the length of what it sent. -/
theorem Gated.lastReceived_length {f : List Word} {hs : List Event} (sent : Gated [f] hs) :
    (lastReceived hs).length = f.length := by
  obtain ⟨rs, w, _, rfl, same, wait, rfl⟩ := sent
  rcases wait with rfl | rfl <;> exact same

/-- Settles O27: one gated READ frame, whose received words the result is taken from. -/
theorem rwordsReadsWords : Obligations.RwordsReadsWords := by
  intro s count idle
  refine ⟨rfl, fun inRange => ?_, exec_out_of_range (pre := []) rfl idle rfl nofun⟩
  obtain ⟨t, hs, run, sent, ran, answer, received, block⟩ :=
    exec_gated_raw (i := .rwords count) [.xfer (readFrame s.params count.toNat)] (r := .rxData) rfl idle inRange
      (by simp [Act.isUnit, readFrame])
  change t.rdata = lastReceived hs at received
  change t.answers (.words (t.rdata.drop 2)) at answer
  rw [received] at answer
  have dataLength : ((lastReceived hs).drop 2).length = count.toNat := by
    rw [List.length_drop, Gated.lastReceived_length sent]
    simp [Act.sent, readFrame]
  exact ⟨t, hs, run, sent, ran, answer, dataLength, block⟩

/-! ### HWRESET and RDSTAT (O28, O29) -/

/-- Settles O28: the run of the body, with RDY and HPREV left to the edge agent. -/
theorem hwresetPulses : Obligations.HwresetPulses := by
  intro s idle
  obtain ⟨w, t, run, ends, waited, ran, answer, block⟩ := run_hwreset s
  have next := (exec_runs_legs (i := .hwreset) rfl idle trivial).trans (congrArg _ run)
  exact ⟨t, w, next, ran, ends, waited, answer, (exec_leaves_ready (.inr rfl) next).1, envRan_stepRel.exec next, block⟩

/-- Settles O29: there are no legs, so the result reads the fields as they stood. -/
theorem rdstatReadsStatus : Obligations.RdstatReadsStatus := by
  intro s idle
  obtain ⟨hs, t, run, sent, ran, block, _, answer⟩ := run_units .rdstat [] [] .status nofun nofun s
  obtain rfl : hs = [] := sent
  have next := (exec_runs_legs (i := .rdstat) rfl idle trivial).trans (congrArg _ run)
  obtain ⟨ready, tmo⟩ := exec_leaves_ready (i := .rdstat) (.inl trivial) next
  change t.answers (.status t.tmo t.infoValid t.configured t.rma t.asleep) at answer
  rw [tmo trivial, block.infoValid, block.configured, block.rma, block.asleep] at answer
  exact ⟨t, next, ran, tmo trivial, ready, block, answer⟩

end Sys2Proof.Machine
end

section
/-! SUPPORT. The packing functions (41_pixel_packer.md R180 to R185). A packed word is the number whose digits in base `2 ^ B`
are the fields of its group, the first pixel's field the least; word `i` is packed from group `i` alone. What the words are
and what unpacking gives back are read off these two facts. -/

namespace Sys2Proof.Machine

/-! ### The field of a pixel -/

theorem pixelField_bpp2_toNat (r : Pack3Rule) (p : Byte) : (pixelField r .bpp2 p).toNat = p.toNat / 64 := by
  simp [pixelField, Nat.shiftRight_eq_div_pow]

theorem pixelField_bpp4_toNat (r : Pack3Rule) (p : Byte) : (pixelField r .bpp4 p).toNat = p.toNat / 16 := by
  simp [pixelField, Nat.shiftRight_eq_div_pow]

/-- MASK_FIRST clears a bit that the shift drops anyway, so it is the field of 4 bpp (R182). -/
theorem pixelField_maskFirst (p : Byte) : pixelField .maskFirst .bpp3 p = pixelField .maskFirst .bpp4 p := by
  revert p; decide

theorem pixelField_maskFirst_toNat (p : Byte) : (pixelField .maskFirst .bpp3 p).toNat = p.toNat / 16 := by
  rw [pixelField_maskFirst, pixelField_bpp4_toNat]

theorem pixelField_shiftFirst_toNat (p : Byte) : (pixelField .shiftFirst .bpp3 p).toNat = p.toNat / 32 * 2 := by
  revert p; decide

/-- A field has `B` bits. -/
theorem pixelField_lt (r : Pack3Rule) (f : PixelFormat) (p : Byte) : (pixelField r f p).toNat < 2 ^ f.fieldBits := by
  have byte := p.isLt
  cases f with
  | bpp2 => rw [pixelField_bpp2_toNat, PixelFormat.fieldBits]; omega
  | bpp3 =>
    cases r with
    | maskFirst => rw [pixelField_maskFirst_toNat, PixelFormat.fieldBits]; omega
    | shiftFirst => rw [pixelField_shiftFirst_toNat, PixelFormat.fieldBits]; omega
  | bpp4 => rw [pixelField_bpp4_toNat, PixelFormat.fieldBits]; omega
  | bpp8 => exact byte

/-! ### The word of a group -/

theorem PixelFormat.group_pos (f : PixelFormat) : 1 ≤ f.group := by cases f <;> decide

theorem PixelFormat.fieldBits_mul_group (f : PixelFormat) : f.fieldBits * f.group = 16 := by cases f <;> rfl

/-- The fields of a group, the first pixel's first. -/
def groupFields (r : Pack3Rule) (f : PixelFormat) (g : List Byte) : List Nat := g.map fun p => (pixelField r f p).toNat

@[simp] theorem groupFields_length (r : Pack3Rule) (f : PixelFormat) (g : List Byte) :
    (groupFields r f g).length = g.length := List.length_map ..

theorem groupFields_lt {r : Pack3Rule} {f : PixelFormat} {g : List Byte} : ∀ d ∈ groupFields r f g, d < 2 ^ f.fieldBits := by
  simpa [groupFields] using fun p _ => pixelField_lt r f p

/-- A pixel before a group: its field, and the group's word `B` bits up, when that keeps inside a word. -/
theorem packGroup_cons_toNat (r : Pack3Rule) (f : PixelFormat) (p : Byte) {ps : List Byte}
    (fits : (packGroup r f ps).toNat * 2 ^ f.fieldBits < 2 ^ 16) :
    (packGroup r f (p :: ps)).toNat = (pixelField r f p).toNat + 2 ^ f.fieldBits * (packGroup r f ps).toNat := by
  have byte := (pixelField r f p).isLt
  rw [← Nat.shiftLeft_eq] at fits
  rw [packGroup, BitVec.toNat_or, BitVec.zeroExtend_eq_setWidth, BitVec.toNat_setWidth, Nat.mod_eq_of_lt (by omega),
    BitVec.toNat_shiftLeft, Nat.mod_eq_of_lt fits, Nat.or_comm, ← Nat.shiftLeft_add_eq_or_of_lt (pixelField_lt r f p),
    Nat.shiftLeft_eq, Nat.mul_comm, Nat.add_comm]

/-- The word's digits in base `2 ^ B` are the fields of its group (R180, R77). -/
theorem packGroup_toNat (r : Pack3Rule) (f : PixelFormat) {g : List Byte} (fits : f.fieldBits * g.length ≤ 16) :
    (packGroup r f g).toNat = Nat.ofDigits (2 ^ f.fieldBits) (groupFields r f g) := by
  induction g with
  | nil => rfl
  | cons p ps ih =>
    rw [List.length_cons, Nat.mul_succ] at fits
    have rest := ih (by omega)
    have base : 1 < 2 ^ f.fieldBits := by cases f <;> decide
    have small : (packGroup r f ps).toNat < 2 ^ (f.fieldBits * ps.length) := by
      rw [rest, Nat.pow_mul, ← groupFields_length r f ps]
      exact Nat.ofDigits_lt_base_pow_length base groupFields_lt
    have shifted := calc (packGroup r f ps).toNat * 2 ^ f.fieldBits
          < 2 ^ (f.fieldBits * ps.length) * 2 ^ f.fieldBits := Nat.mul_lt_mul_of_pos_right small (by omega)
        _ = 2 ^ (f.fieldBits * ps.length + f.fieldBits) := (Nat.pow_add ..).symm
        _ ≤ 2 ^ 16 := Nat.pow_le_pow_right (by decide) fits
    rw [packGroup_cons_toNat r f p shifted, rest]
    exact Nat.ofDigits_cons.symm

/-! ### The groups of a pixel sequence -/

/-- Run `i` starts at `k * i`. -/
theorem chunksFrom_getElem? {α : Type} {k : Nat} (hk : 1 ≤ k) (fuel : Nat) (l : List α) (enough : l.length ≤ fuel) (i : Nat)
    (inside : k * i < l.length) : (chunksFrom fuel k l)[i]? = some ((l.drop (k * i)).take k) := by
  induction fuel generalizing l i with
  | zero => omega
  | succ fuel ih =>
    have nonempty : l.isEmpty = false := by cases l <;> simp_all
    rw [chunksFrom, nonempty, if_neg Bool.false_ne_true]
    cases i with
    | zero => simp
    | succ i =>
      rw [Nat.mul_succ] at inside
      rw [List.getElem?_cons_succ, ih (l.drop k) (by simp; omega) i (by simp; omega), List.drop_drop, Nat.mul_succ,
        Nat.add_comm]

section
variable {α : Type} {k : Nat} {l : List α}

theorem chunksOf_getElem? (hk : 1 ≤ k) {i : Nat} (inside : k * i < l.length) :
    (chunksOf k l)[i]? = some ((l.drop (k * i)).take k) :=
  chunksFrom_getElem? hk _ l (Nat.le_refl _) i inside

theorem chunksOf_length_whole (hk : 1 ≤ k) (whole : l.length % k = 0) : (chunksOf k l).length = l.length / k := by
  obtain ⟨_, count, _⟩ := chunksOf_spec hk l
  obtain ⟨m, hm⟩ := Nat.dvd_of_mod_eq_zero whole
  rw [count, hm, Nat.add_sub_assoc hk, Nat.mul_add_div hk, Nat.div_eq_of_lt (by omega), Nat.mul_div_cancel_left m hk]
  rfl

/-- No run is short when the length is a multiple of `k`. -/
theorem chunksOf_length_of_mem (hk : 1 ≤ k) (whole : l.length % k = 0) : ∀ c ∈ chunksOf k l, c.length = k := by
  intro c hc
  obtain ⟨i, hi⟩ := List.mem_iff_getElem?.1 hc
  obtain ⟨short, _⟩ := List.getElem?_eq_some_iff.1 hi
  rw [chunksOf_length_whole hk whole] at short
  have complete : (i + 1) * k ≤ l.length := (Nat.le_div_iff_mul_le hk).1 short
  rw [Nat.succ_mul, Nat.mul_comm] at complete
  rw [chunksOf_getElem? hk (by omega), Option.some.injEq] at hi
  rw [← hi, List.length_take, List.length_drop]
  omega

end

/-- Word `i` is packed from group `i` alone (R180). -/
theorem packPixels_getElem? (r : Pack3Rule) (f : PixelFormat) {pix : List Byte} {i : Nat} (inside : f.group * i < pix.length) :
    (packPixels r f pix)[i]? = some (packGroup r f ((pix.drop (f.group * i)).take f.group)) := by
  rw [packPixels, List.getElem?_map, chunksOf_getElem? f.group_pos inside, Option.map_some]

/-- The number a word is, as a sum over its group of the numbers `value` that the fields are. -/
theorem packPixels_toNat {r : Pack3Rule} {f : PixelFormat} {value : Byte → Nat}
    (field : ∀ p, (pixelField r f p).toNat = value p) {pix : List Byte} {i : Nat}
    (complete : f.group * i + f.group ≤ pix.length) :
    (packPixels r f pix)[i]?.map BitVec.toNat =
      some (((List.range f.group).map fun j =>
        value (pix.getD (f.group * i + j) 0) * (2 ^ f.fieldBits) ^ j).sum) := by
  have positive := f.group_pos
  have group : (pix.drop (f.group * i)).take f.group = (List.range f.group).map fun j => pix.getD (f.group * i + j) 0 := by
    apply List.ext_getElem
    · simp; omega
    · intro j short _
      have : f.group * i + j < pix.length := by simp at short; omega
      simp [List.getElem?_eq_getElem this]
  rw [packPixels_getElem? r f (by omega), Option.map_some, group,
    packGroup_toNat r f (by simp [f.fieldBits_mul_group]), Nat.ofDigits_eq_sum_mapIdx]
  congr 2
  apply List.ext_getElem <;> simp [groupFields, field]

/-- There are `N / G` words (R180). -/
theorem packPixels_length (r : Pack3Rule) (f : PixelFormat) {pix : List Byte} (whole : pix.length % f.group = 0) :
    (packPixels r f pix).length = pix.length / f.group := by
  rw [packPixels, List.length_map, chunksOf_length_whole f.group_pos whole]

/-- Under MASK_FIRST the words of 3 bpp are those of 4 bpp (R182). -/
theorem packPixels_maskFirst (pix : List Byte) : packPixels .maskFirst .bpp3 pix = packPixels .maskFirst .bpp4 pix := by
  have group (g : List Byte) : packGroup .maskFirst .bpp3 g = packGroup .maskFirst .bpp4 g := by
    induction g with
    | nil => rfl
    | cons p ps ih => rw [packGroup, packGroup, pixelField_maskFirst, ih]; rfl
  rw [packPixels, packPixels, funext group]
  rfl

/-- Settles O31: each format's fields put into the sum over a group. -/
theorem packedWords : Obligations.PackedWords := by
  refine ⟨fun r pix i complete => packPixels_toNat (pixelField_bpp2_toNat r) complete, fun r pix i complete => ?_,
    fun r pix i complete => packPixels_toNat (pixelField_bpp4_toNat r) complete, fun r pix i complete => ?_⟩
  · cases r with
    | maskFirst => exact packPixels_toNat pixelField_maskFirst_toNat complete
    | shiftFirst => exact packPixels_toNat pixelField_shiftFirst_toNat complete
  · rw [packPixels_toNat (r := r) (f := .bpp8) (fun _ => rfl) complete]
    simp [PixelFormat.group, PixelFormat.fieldBits, List.range_succ, pixelField, Nat.mul_comm, Nat.add_comm]

/-! ### Unpacking (R185) -/

/-- A field as a number: the digit at its place. -/
theorem wordField_toNat (w : Word) {b : Nat} (hb : b ≤ 8) (j : Nat) :
    (wordField w b j).toNat = w.toNat / 2 ^ (b * j) % 2 ^ b := by
  have divides : 2 ^ b ∣ 2 ^ 8 := Nat.pow_dvd_pow 2 hb
  have mask : 2 ^ b - 1 < 2 ^ 8 := by have := Nat.le_of_dvd (by decide) divides; omega
  rw [wordField, BitVec.toNat_and, BitVec.toNat_setWidth, BitVec.toNat_ofNat, Nat.mod_eq_of_lt mask,
    Nat.and_two_pow_sub_one_eq_mod, Nat.mod_mod_of_dvd _ divides, BitVec.toNat_ushiftRight, Nat.shiftRight_eq_div_pow]

/-- Field `j` of a packed word is the field of pixel `j`. -/
theorem wordField_packGroup (r : Pack3Rule) (f : PixelFormat) {g : List Byte} (fits : f.fieldBits * g.length ≤ 16) {j : Nat}
    (hj : j < g.length) : wordField (packGroup r f g) f.fieldBits j = pixelField r f g[j] := by
  have bits : f.fieldBits ≤ 8 := by cases f <;> decide
  apply BitVec.eq_of_toNat_eq
  rw [wordField_toNat _ bits, packGroup_toNat r f fits, Nat.pow_mul,
    Nat.ofDigits_div_pow_eq_ofDigits_drop j (Nat.two_pow_pos _) _ groupFields_lt,
    List.drop_eq_getElem_cons (by simpa using hj), Nat.ofDigits_cons, Nat.add_mul_mod_self_left,
    Nat.mod_eq_of_lt (groupFields_lt _ (List.getElem_mem _))]
  simp [groupFields]

/-- What unpacking makes of one field (R185). -/
def unpackField : PixelFormat → Byte → Byte
  | .bpp2, b => b <<< 6
  | .bpp3, b => (b &&& 0x0E) <<< 4
  | .bpp4, b => b <<< 4
  | .bpp8, b => b

theorem unpackWord_eq (f : PixelFormat) (w : Word) :
    unpackWord f w = (List.range f.group).map fun j => unpackField f (wordField w f.fieldBits j) := by cases f <;> rfl

/-- One pixel there and back. -/
theorem unpackField_pixelField (r : Pack3Rule) (f : PixelFormat) (p : Byte) :
    unpackField f (pixelField r f p) = p &&& keptMask f := by
  cases f with
  | bpp2 => exact (by decide : ∀ p : Byte, (p >>> 6) <<< 6 = p &&& 0xC0) p
  | bpp3 =>
    cases r with
    | maskFirst => exact (by decide : ∀ p : Byte, (q3 .maskFirst p &&& 0x0E) <<< 4 = p &&& 0xE0) p
    | shiftFirst => exact (by decide : ∀ p : Byte, (q3 .shiftFirst p &&& 0x0E) <<< 4 = p &&& 0xE0) p
  | bpp4 => exact (by decide : ∀ p : Byte, (p >>> 4) <<< 4 = p &&& 0xF0) p
  | bpp8 => exact (BitVec.and_allOnes (x := p)).symm

/-- One group there and back. -/
theorem unpackWord_packGroup (r : Pack3Rule) (f : PixelFormat) {g : List Byte} (whole : g.length = f.group) :
    unpackWord f (packGroup r f g) = g.map (· &&& keptMask f) := by
  rw [unpackWord_eq]
  apply List.ext_getElem
  · simp [whole]
  · intro j _ inside
    rw [List.length_map] at inside
    rw [List.getElem_map, List.getElem_map, List.getElem_range,
      wordField_packGroup r f (by rw [whole, f.fieldBits_mul_group]) inside, unpackField_pixelField]

/-- Settles O33: group by group, since every group is complete. -/
theorem unpackUndoesPack : Obligations.UnpackUndoesPack := by
  intro r f pix whole
  have groups : ∀ g ∈ chunksOf f.group pix, unpackWord f (packGroup r f g) = g.map (· &&& keptMask f) := fun g hg =>
    unpackWord_packGroup r f (chunksOf_length_of_mem f.group_pos whole g hg)
  obtain ⟨flat, _⟩ := chunksOf_spec f.group_pos pix
  calc (packPixels r f pix).flatMap (unpackWord f)
      = ((chunksOf f.group pix).map fun g => unpackWord f (packGroup r f g)).flatten := by
        simp [packPixels, List.flatMap_def, Function.comp_def]
    _ = ((chunksOf f.group pix).map fun g => g.map (· &&& keptMask f)).flatten := by rw [List.map_congr_left groups]
    _ = pix.map (· &&& keptMask f) := by rw [← List.map_flatten, flat]

end Sys2Proof.Machine
end

section
/-! SUPPORT. The packing operations (41_pixel_packer.md R180 to R184): the four of them differ in opcode and format alone. -/

namespace Sys2Proof.Machine

/-- What the four packing operations have in common. -/
structure IsPackOp (opc : Byte) (f : PixelFormat) (op : List Int → Instr) : Prop where
  decodes : ∀ p pix, decodeHost p ⟨opc, { pix := some pix }⟩ = .ok (op pix)
  opcode : ∀ pix, (op pix).opc? = some opc
  ranges : ∀ p pix, operandRanges p (op pix) = [(.pix, inPixels pix)]
  pure : ∀ pix, isPure (op pix)
  runs : ∀ pix s, exec (op pix) s = runOp (op pix) (packPlan s f pix) s

theorem isPackOp_of_mem {opc : Byte} {f : PixelFormat} {op : List Int → Instr} (h : (opc, f, op) ∈ packOps) :
    IsPackOp opc f op := by
  simp only [packOps, List.mem_cons, Prod.mk.injEq, List.not_mem_nil, or_false] at h
  rcases h with ⟨rfl, rfl, rfl⟩ | ⟨rfl, rfl, rfl⟩ | ⟨rfl, rfl, rfl⟩ | ⟨rfl, rfl, rfl⟩ <;>
    exact ⟨fun _ _ => rfl, fun _ => rfl, fun _ _ => rfl, fun _ => trivial, fun _ _ => rfl⟩

namespace IsPackOp

variable {opc : Byte} {f : PixelFormat} {op : List Int → Instr} {s : State} {pix : List Int}

/-- With the pixels in range the packing check is the only one left (R306). -/
theorem firstFault_eq (row : IsPackOp opc f op) (inRange : inPixels pix) :
    firstFault (op pix) (packPlan s f pix) s = packCause f pix.length := by
  have operands : operandsInRange s.params (op pix) := (operandsInRange_iff _ _).2 (by simpa [row.ranges] using inRange)
  simp [firstFault, operandFault_none operands, packPlan]

theorem faults_out_of_range (row : IsPackOp opc f op) (idle : s.seq = .idle) (out : ¬inPixels pix) :
    FaultsWith (op pix) s (.operand .pix) :=
  exec_out_of_range (pre := []) (by rw [row.opcode]; rfl) idle (row.ranges _ _) nofun out

theorem faults_misaligned (row : IsPackOp opc f op) (idle : s.seq = .idle) (inRange : inPixels pix)
    (ragged : pix.length % f.group ≠ 0) : FaultsWith (op pix) s (.packMisaligned pix.length f.group) := by
  have first := (row.firstFault_eq (s := s) inRange).trans (if_neg ragged)
  rw [FaultsWith, row.runs, runOp_faults idle first, takeFault_accept]

/-- The operation has no legs but its end, which gives the words. -/
theorem answers (row : IsPackOp opc f op) (idle : s.seq = .idle) (inRange : inPixels pix)
    (whole : pix.length % f.group = 0) :
    ∃ t, exec (op pix) s = .next t ∧ Ran (op pix) s t [] ∧ SameBlock s t ∧
      t.answers (.words (packPixels s.params.pack3 f (pix.map byteOf))) := by
  obtain ⟨hs, t, run, sent, ran, block, _, answer⟩ :=
    run_units (op pix) [] [] (.packed (packPixels s.params.pack3 f (pix.map byteOf))) nofun nofun s
  obtain rfl : hs = [] := sent
  have passes := (row.firstFault_eq (s := s) inRange).trans (if_pos whole)
  exact ⟨t, ((row.runs pix s).trans (runOp_go idle passes rfl)).trans (congrArg _ run), ran, block, answer⟩

end IsPackOp

/-- Settles O30. -/
theorem packOperations : Obligations.PackOperations := by
  intro s opc f op pix idle mem
  have row := isPackOp_of_mem mem
  refine ⟨row.decodes _ _, by rw [Instr.opc, row.opcode]; rfl, fun inRange whole => ?_, row.faults_out_of_range idle,
    row.faults_misaligned idle⟩
  obtain ⟨t, next, ran, block, answer⟩ := row.answers idle inRange whole
  obtain ⟨ready, tmo⟩ := exec_leaves_ready (.inl (row.pure pix)) next
  refine ⟨t, next, ran, ready, block, tmo (row.pure pix), answer, ?_⟩
  rw [packPixels_length _ f (by rwa [List.length_map]), List.length_map]

/-- Settles O32: the words the two operations answer are equal. -/
theorem pack3MaskFirstIsPack4 : Obligations.Pack3MaskFirstIsPack4 := by
  intro s pix idle rule inRange whole
  have pack3 : IsPackOp 0x11 .bpp3 .pack3 := isPackOp_of_mem (by simp [packOps])
  have pack4 : IsPackOp 0x12 .bpp4 .pack4 := isPackOp_of_mem (by simp [packOps])
  obtain ⟨t, next3, _, _, answer3⟩ := pack3.answers idle inRange whole
  obtain ⟨u, next4, _, _, answer4⟩ := pack4.answers idle inRange whole
  rw [rule, packPixels_maskFirst] at answer3
  rw [rule] at answer4
  exact ⟨t, u, _, next3, next4, answer3, answer4⟩

end Sys2Proof.Machine
end

section
/-! SUPPORT. A host operation from IDLE with its operands in range (60_exceptions.md R306): the first check that fails is the
outcome, and an operation that passes them all runs its legs. Then the flag columns of 42_protocol.md R200. -/

namespace Sys2Proof.Machine

/-! ### The first check that fails, or the run of the legs -/

/-- No check but that of the operands can fail. -/
structure Plan.Passes (plan : Plan) : Prop where
  precond : plan.precond = none
  pack : plan.pack = none
  config : plan.config = none

section
variable {i : Instr} {s : State} {plan : Plan}

theorem firstFault_inRange (inRange : operandsInRange s.params i) :
    firstFault i plan s = (plan.precond.map .precond).or plan.pack := by
  simp [firstFault, operandFault_none inRange]

theorem exec_fails {c : Cause} (runs : exec i s = runOp i plan s) (idle : s.seq = .idle)
    (first : firstFault i plan s = some c) : FaultsWith i s c := by
  rw [FaultsWith, runs, runOp_faults idle first, takeFault_accept]

/-- A precondition that does not hold is the fault, whatever the checks after it would say (R306). -/
theorem exec_precond_fails {reason : Reason} (runs : exec i s = runOp i plan s) (idle : s.seq = .idle)
    (inRange : operandsInRange s.params i) (fails : plan.precond = some reason) : FaultsWith i s (.precond reason) :=
  exec_fails runs idle (by simp [firstFault_inRange inRange, fails])

/-- The packing check comes after the preconditions (R306). -/
theorem exec_pack_fails {c : Cause} (runs : exec i s = runOp i plan s) (idle : s.seq = .idle)
    (inRange : operandsInRange s.params i) (holds : plan.precond = none) (fails : plan.pack = some c) : FaultsWith i s c :=
  exec_fails runs idle (by simp [firstFault_inRange inRange, holds, fails])

/-- A rejected value is the response once every other check holds (R301, R306). -/
theorem exec_config_fails {v : Rat} (runs : exec i s = runOp i plan s) (idle : s.seq = .idle)
    (inRange : operandsInRange s.params i) (holds : plan.precond = none) (aligned : plan.pack = none)
    (rejects : plan.config = some v) : ConfigErrs i s v := by
  have first : firstFault i plan s = none := by simp [firstFault_inRange inRange, holds, aligned]
  rw [ConfigErrs, runs, runOp_config idle first rejects, configError_accept]

theorem exec_passes (runs : exec i s = runOp i plan s) (idle : s.seq = .idle) (inRange : operandsInRange s.params i)
    (passes : plan.Passes) : exec i s = .next (ticks plan.prog.length (load i.opc plan.prog (accept i s))) := by
  have first : firstFault i plan s = none := by simp [firstFault_inRange inRange, passes.precond, passes.pack]
  rw [runs, runOp_go idle first passes.config]

/-- An operation made of gated transactions and flag writes: the transactions are sent in order, then the flags are written. -/
theorem exec_units (xs fl : List Act) {r : ResultSpec} (runs : exec i s = runOp i plan s) (idle : s.seq = .idle)
    (inRange : operandsInRange s.params i) (passes : plan.Passes)
    (legs : plan.prog = xs.flatMap gated ++ fl ++ [Act.finish r]) (units : ∀ x ∈ xs, x.isUnit = true)
    (flags : ∀ a ∈ fl, a.silent = true) :
    ∃ t hs, exec i s = .next t ∧ Gated (xs.map Act.sent) hs ∧ Ran i s t hs ∧ t.answers (resultOf t r) ∧
      t.rdata = (if xs = [] then [] else lastReceived hs) ∧ SameBlock (fl.foldl (fun s a => flagEffect a s) s) t := by
  obtain ⟨hs, t, run, sent, ran, block, received, answer⟩ := run_units i xs fl r units flags s
  have next := exec_passes runs idle inRange passes
  rw [legs, run] at next
  exact ⟨t, hs, next, sent, ran, answer, received, block⟩

end

/-! ### The flag columns (R200, O34) -/

/-- The columns `conf`, `awake` and `noRma` of R200 that an operation has, checked left to right. -/
def columnCheck (s : State) (conf awake noRma : Bool) : Option Reason :=
  (if conf then s.needConfigured else none).or
    ((if awake then s.needAwake else none).or (if noRma then s.needNoRefresh else none))

/-- Each operation of the table checks its columns before anything else of its own. -/
theorem exec_checks_columns {i : Instr} {conf awake noRma : Bool} (h : flagColumns i = some (conf, awake, noRma))
    (s : State) : ∃ plan later, exec i s = runOp i plan s ∧ plan.precond = (columnCheck s conf awake noRma).or later := by
  have two : (columnCheck s true true false).or none = s.needReady := by simp [columnCheck, State.needReady]
  have three (later : Option Reason) : (columnCheck s true true true).or later = s.needReadyIdle.or later := by
    simp [columnCheck, State.needReadyIdle, State.needReady, Option.or_assoc]
  cases i with
  | qinfo => cases h; exact ⟨_, s.needNoInfo, rfl, by simp [columnCheck]⟩
  | rdreg _ => cases h; exact ⟨_, none, rfl, two.symm⟩
  | wrreg _ _ => cases h; exact ⟨_, none, rfl, two.symm⟩
  | getvcom => cases h; exact ⟨_, none, rfl, two.symm⟩
  | setvcom _ => cases h; exact ⟨_, none, rfl, two.symm⟩
  | loadimgFull _ _ _ => cases h; exact ⟨_, _, rfl, (three _).symm⟩
  | loadimgArea _ _ _ _ _ => cases h; exact ⟨_, _, rfl, (three _).symm⟩
  | dpyarea _ _ _ _ _ => cases h; exact ⟨_, _, rfl, (three _).symm⟩
  | waitdpy => cases h; exact ⟨_, none, rfl, two.symm⟩
  | sleep => cases h; exact ⟨_, none, rfl, Option.or_none.symm.trans (three none).symm⟩
  | wake => cases h; exact ⟨_, none, rfl, by simp [columnCheck]⟩
  | _ => cases h

theorem configuredColumn_holds {s : State} {conf : Bool} (h : conf = true → s.configured = true) :
    (if conf then s.needConfigured else none) = none := by
  cases conf with
  | false => rfl
  | true => simp [State.needConfigured, h rfl]

theorem awakeColumn_holds {s : State} {awake : Bool} (h : awake = true → s.asleep = false) :
    (if awake then s.needAwake else none) = none := by
  cases awake with
  | false => rfl
  | true => simp [State.needAwake, h rfl]

/-- Settles O34: the first column that does not hold is what `columnCheck` finds. -/
theorem protocolPreconditions : Obligations.ProtocolPreconditions := by
  intro i s idle inRange
  refine ⟨fun conf awake noRma columns => ?_, ?_, ?_⟩
  · obtain ⟨plan, later, runs, precond⟩ := exec_checks_columns columns s
    have fails {reason : Reason} (first : columnCheck s conf awake noRma = some reason) :
        FaultsWith i s (.precond reason) := exec_precond_fails runs idle inRange (by simp [precond, first])
    refine ⟨fun needed unconfigured => fails ?_, fun configured needed asleep => fails ?_,
      fun configured isAwake needed rma => fails ?_⟩
    · simp [columnCheck, State.needConfigured, needed, unconfigured]
    · simp [columnCheck, configuredColumn_holds configured, State.needAwake, needed, asleep]
    · simp [columnCheck, configuredColumn_holds configured, awakeColumn_holds isAwake, State.needNoRefresh, needed, rma]
  · rintro rfl awake valid
    exact exec_precond_fails (i := .qinfo) rfl idle trivial (by simp [State.needAwake, State.needNoInfo, awake, valid])
  · rintro v rfl configured
    exact exec_precond_fails (i := .init v) rfl idle trivial (by simp [State.needUnconfigured, configured])

/-! ### The flags an operation needs -/

theorem needReady_eq_none {s : State} (configured : s.configured = true) (awake : s.asleep = false) : s.needReady = none := by
  simp [State.needReady, State.needConfigured, State.needAwake, configured, awake]

theorem needReadyIdle_eq_none {s : State} (configured : s.configured = true) (awake : s.asleep = false)
    (noRefresh : s.rma = false) : s.needReadyIdle = none := by
  simp [State.needReadyIdle, needReady_eq_none configured awake, State.needNoRefresh, noRefresh]

end Sys2Proof.Machine
end

section
/-! SUPPORT. Registers, VCOM and power (42_protocol.md R210 to R213, R234, R235): each operation is its transactions in order,
then a flag write in SLEEP and WAKE. -/

namespace Sys2Proof.Machine

/-! ### Registers (O37, O38) -/

/-- A reply of one word after the two to discard (R152). -/
theorem Gated.reply {fs : List (List Word)} {p : Params} {hs : List Event} (sent : Gated (fs ++ [readFrame p 1]) hs) :
    ∃ w0 w1 r, lastReceived hs = [w0, w1, r] :=
  List.length_eq_three.1 sent.last_length

/-- Settles O37. -/
theorem rdregReadsARegister : Obligations.RdregReadsARegister := by
  intro s addr idle configured awake inRange
  obtain ⟨t, hs, next, sent, ran, answer, received, block⟩ := exec_units (i := .rdreg addr)
    [.xfer [Config.preCmd, s.params.cmdRegRd], .xfer [Config.preData, wordOf addr], .xfer (readFrame s.params 1)] []
    (r := .rxWord) rfl idle inRange ⟨needReady_eq_none configured awake, rfl, rfl⟩ rfl (List.all_eq_true.1 rfl) nofun
  obtain ⟨w0, w1, r, reply⟩ :=
    Gated.reply (fs := [[Config.preCmd, s.params.cmdRegRd], [Config.preData, wordOf addr]]) sent
  have data : t.rdata = [w0, w1, r] := received.trans reply
  exact ⟨t, hs, r, next, sent, ran, by rw [reply]; rfl, by simpa [resultOf, data] using answer, block⟩

/-- Settles O38. -/
theorem wrregWritesARegister : Obligations.WrregWritesARegister := by
  intro s addr value idle configured awake addrIn valueIn
  obtain ⟨t, hs, next, sent, ran, answer, _, block⟩ := exec_units (i := .wrreg addr value)
    [.xfer [Config.preCmd, s.params.cmdRegWr], .xfer [Config.preData, wordOf addr], .xfer [Config.preData, wordOf value]] []
    (r := .none) rfl idle ⟨addrIn, valueIn⟩ ⟨needReady_eq_none configured awake, rfl, rfl⟩ rfl (List.all_eq_true.1 rfl)
    nofun
  exact ⟨t, hs, next, sent, ran, answer, block⟩

/-! ### VCOM (O39, O40) -/

/-- The volts are exact (R219). -/
theorem voltsOf_mul (r : Word) : 1000 * voltsOf r = -(r.toInt : Rat) := by
  unfold voltsOf Config.vcomScale
  exact mul_div_cancel₀ _ (by decide)

/-- Settles O39. -/
theorem getvcomReadsVolts : Obligations.GetvcomReadsVolts := by
  intro s idle configured awake
  obtain ⟨t, hs, next, sent, ran, answer, received, block⟩ := exec_units (i := .getvcom)
    [.xfer [Config.preCmd, s.params.cmdVcom], .xfer [Config.preData, s.params.vcomGet], .xfer (readFrame s.params 1)] []
    (r := .rxVolts) rfl idle trivial ⟨needReady_eq_none configured awake, rfl, rfl⟩ rfl (List.all_eq_true.1 rfl) nofun
  obtain ⟨w0, w1, r, reply⟩ :=
    Gated.reply (fs := [[Config.preCmd, s.params.cmdVcom], [Config.preData, s.params.vcomGet]]) sent
  have data : t.rdata = [w0, w1, r] := received.trans reply
  exact ⟨t, hs, r, voltsOf r, next, sent, ran, by rw [reply]; rfl, voltsOf_mul r,
    by simpa [resultOf, data] using answer, block⟩

theorem vcomCheck_legal {v : Rat} (low : -5 < v) (high : v < 0) : vcomCheck v = none :=
  if_pos (decide_eq_true ⟨low, high⟩)

theorem vcomCheck_illegal {v : Rat} (out : v ≤ -5 ∨ 0 ≤ v) : vcomCheck v = some v := by
  refine if_neg fun legal => ?_
  obtain ⟨low, high⟩ : -5 < v ∧ v < 0 := of_decide_eq_true legal
  rcases out with out | out
  · exact absurd low (not_lt.2 out)
  · exact absurd high (not_lt.2 out)

/-- Settles O40. -/
theorem setvcomSendsMillivolts : Obligations.SetvcomSendsMillivolts := by
  intro s v idle configured awake
  have ready := needReady_eq_none configured awake
  refine ⟨fun low high => ?_, fun out =>
    exec_config_fails (i := .setvcom v) rfl idle trivial ready rfl (vcomCheck_illegal out)⟩
  obtain ⟨t, hs, next, sent, ran, answer, _, block⟩ := exec_units (i := .setvcom v)
    [.xfer [Config.preCmd, s.params.cmdVcom], .xfer [Config.preData, s.params.vcomSet], .xfer [Config.preData, vcomWord v]]
    [] (r := .none) rfl idle trivial ⟨ready, rfl, vcomCheck_legal low high⟩ rfl (List.all_eq_true.1 rfl) nofun
  exact ⟨t, hs, next, sent, ran, answer, block⟩

/-! ### Power (O48, O49) -/

/-- Settles O48. -/
theorem sleepSendsAndSleeps : Obligations.SleepSendsAndSleeps := by
  intro s idle configured awake noRefresh
  obtain ⟨t, hs, next, sent, ran, answer, _, block⟩ := exec_units (i := .sleep)
    [.xfer [Config.preCmd, s.params.cmdSleep]] [.setAsleep true] (r := .none) rfl idle trivial
    ⟨needReadyIdle_eq_none configured awake noRefresh, rfl, rfl⟩ rfl (List.all_eq_true.1 rfl) (List.all_eq_true.1 rfl)
  exact ⟨t, hs, next, sent, ran, answer, block⟩

/-- Settles O49. -/
theorem wakeSendsAndWakes : Obligations.WakeSendsAndWakes := by
  intro s idle configured
  obtain ⟨t, hs, next, sent, ran, answer, _, block⟩ := exec_units (i := .wake)
    [.xfer [Config.preCmd, s.params.cmdSysRun]] [.setAsleep false] (r := .none) rfl idle trivial
    ⟨if_pos configured, rfl, rfl⟩ rfl (List.all_eq_true.1 rfl) (List.all_eq_true.1 rfl)
  exact ⟨t, hs, next, sent, ran, answer, block⟩

end Sys2Proof.Machine
end

section
/-! SUPPORT. Device information and INIT (42_protocol.md R201, R240): the record stored is the reply as received. -/

namespace Sys2Proof.Machine

/-- The registers a received READ frame is stored as are those of its 20-word reply (R112, R152, R75). -/
theorem infoFromReply_of_deviceInfoOf {received : List Word} {d : DeviceInfo} (whole : received.length = 22)
    (stored : deviceInfoOf received = some d) : infoFromReply d (received.drop 2) := by
  obtain ⟨d', same, length, panelW, panelH, addr, fwv, lutv⟩ := deviceInfoOf_some whole
  obtain rfl : d' = d := Option.some.inj (same.symm.trans stored)
  exact ⟨length, panelW, panelH, by rw [addr, imgAddrOf_toNat], fwv, lutv⟩

/-- Transactions that end with the READ frame of GET_DEV_INFO receive its 22 words last. -/
theorem Gated.info_length {fs : List (List Word)} {p : Params} {hs : List Event}
    (sent : Gated (fs ++ [readFrame p Config.infoWords]) hs) : (lastReceived hs).length = 22 := by
  rw [sent.last_length]
  simp [readFrame, Config.infoWords]

/-- Settles O35. -/
theorem qinfoReadsDeviceInfo : Obligations.QinfoReadsDeviceInfo := by
  intro s idle awake noInfo
  have precond : s.needAwake.or s.needNoInfo = none := by simp [State.needAwake, State.needNoInfo, awake, noInfo]
  obtain ⟨hs, d, t, run, sent, ran, stored, answer, block⟩ := run_qinfo s
  have next := (exec_passes (i := .qinfo) rfl idle trivial ⟨precond, rfl, rfl⟩).trans (congrArg _ run)
  have whole := Gated.info_length (fs := [[Config.preCmd, s.params.cmdGetDevInfo]]) sent
  exact ⟨t, hs, d, next, sent, ran, infoFromReply_of_deviceInfoOf whole stored, answer, block⟩

/-- What the last of the first transactions received, seen among all of them. -/
theorem receivedAt_append {hs : List Event} (ks : List Event) {n : Nat} (count : (framesOf hs).length = n + 1) :
    receivedAt (hs ++ ks) n = lastReceived hs := by
  rw [receivedAt, lastReceived, framesOf_append, List.getElem?_append_left (by omega), List.getLast?_eq_getElem?, count,
    Nat.add_sub_cancel]

/-- Settles O50: the legs after the reset are the three frames that end with DeviceInfo, then the twelve that use it. -/
theorem initConfigures : Obligations.InitConfigures := by
  intro s vcom idle unconfigured
  have precond : s.needUnconfigured = none := by simp [State.needUnconfigured, unconfigured]
  refine ⟨fun low high => ?_, fun out =>
    exec_config_fails (i := .init vcom) rfl idle trivial precond rfl (vcomCheck_illegal out)⟩
  obtain ⟨w, hs, ks, d, t, run, waited, first, setup, stored, ran, answer, block⟩ := run_init vcom s
  have next := (exec_passes (i := .init vcom) rfl idle trivial ⟨precond, rfl, vcomCheck_legal low high⟩).trans
    (congrArg _ run)
  have whole := Gated.info_length
    (fs := [[Config.preCmd, s.params.cmdSysRun], [Config.preCmd, s.params.cmdGetDevInfo]]) first
  have count : (framesOf hs).length = 2 + 1 := by simpa [firstFrames, qinfoFrames] using congrArg List.length first.frames.1
  refine ⟨t, w, hs ++ ks, d, next, waited, ran, first.append setup, ?_, answer, block⟩
  rw [receivedAt_append ks count]
  exact infoFromReply_of_deviceInfoOf whole stored

end Sys2Proof.Machine
end

section
/-! SUPPORT. Loads and display (42_protocol.md R220 to R225, R230; 20_memory.md R81): the checks that read DeviceInfo, in their
order, and the transactions of a load. -/

namespace Sys2Proof.Machine

/-! ### The checks that read DeviceInfo -/

section
variable {s : State} {d : DeviceInfo}

theorem ReadyWith.readInfo (ready : ReadyWith s d) : s.readInfo = some d := by
  rw [State.readInfo, if_pos ready.info_valid, ready.info]

/-- With its flags as a load or display needs them, what an operation checks of DeviceInfo is its precondition. -/
theorem ReadyWith.precond (ready : ReadyWith s d) (check : DeviceInfo → Option Reason) :
    s.needReadyIdle.or (s.withInfo check) = check d := by
  rw [needReadyIdle_eq_none ready.configured ready.awake ready.no_refresh, Option.none_or, State.withInfo, ready.readInfo]

end

section
variable {p : Params} {d : DeviceInfo} {x y w h : Int}

theorem panelEmpty_eq_none (pixels : HasPixels d) : panelEmpty d = none :=
  if_neg fun empty => empty.elim pixels.1 pixels.2

theorem panelEmpty_eq_some (empty : ¬HasPixels d) : panelEmpty d = some .panelEmpty :=
  if_pos (by unfold HasPixels at empty; tauto)

theorem inPanel_iff : InPanel d x y w h ↔ ¬(x + w > d.panelW.toNat ∨ y + h > d.panelH.toNat) := by
  simp [InPanel]

theorem aligned_iff :
    Aligned p d x y w h ↔
      (edgeAligned p.areaAlign x w d.panelW.toNat && edgeAligned p.areaAlign y h d.panelH.toNat) = true := by
  simp only [Aligned, edgeAligned, Bool.and_eq_true, decide_eq_true_eq]
  tauto

theorem rectReason_empty (empty : ¬HasPixels d) : rectReason p d x y w h = some .panelEmpty := by
  rw [rectReason, panelEmpty_eq_some empty, Option.some_or]

theorem rectReason_outside (pixels : HasPixels d) (out : ¬InPanel d x y w h) :
    rectReason p d x y w h = some .areaOutOfPanel := by
  rw [rectReason, panelEmpty_eq_none pixels, Option.none_or, if_pos (not_not.1 (mt inPanel_iff.2 out))]

theorem rectReason_misaligned (pixels : HasPixels d) (inside : InPanel d x y w h) (ragged : ¬Aligned p d x y w h) :
    rectReason p d x y w h = some .areaMisaligned := by
  rw [rectReason, panelEmpty_eq_none pixels, Option.none_or, if_neg (inPanel_iff.1 inside), if_neg (mt aligned_iff.2 ragged)]

theorem rectReason_eq_none (pixels : HasPixels d) (inside : InPanel d x y w h) (aligned : Aligned p d x y w h) :
    rectReason p d x y w h = none := by
  rw [rectReason, panelEmpty_eq_none pixels, Option.none_or, if_neg (inPanel_iff.1 inside), if_pos (aligned_iff.1 aligned)]

/-- An operation whose precondition begins with the rectangle's checks raises the first of them that fails. -/
theorem rectangleChecks_of_precond {i : Instr} {s : State} {plan : Plan} {later : Option Reason}
    (runs : exec i s = runOp i plan s) (idle : s.seq = .idle) (inRange : operandsInRange s.params i)
    (precond : plan.precond = (rectReason s.params d x y w h).or later) : RectangleChecks i s d x y w h := by
  have fails {reason : Reason} (first : rectReason s.params d x y w h = some reason) : FaultsWith i s (.precond reason) :=
    exec_precond_fails runs idle inRange (by rw [precond, first, Option.some_or])
  exact ⟨fun empty => fails (rectReason_empty empty), fun pixels out => fails (rectReason_outside pixels out),
    fun pixels inside ragged => fails (rectReason_misaligned pixels inside ragged)⟩

end

theorem pixelCount_eq_none {n : Nat} {w h : Int} (count : (n : Int) = w * h) : pixelCount n w h = none := if_pos count

theorem pixelCount_eq_some {n : Nat} {w h : Int} (count : (n : Int) ≠ w * h) : pixelCount n w h = some .pixelCount :=
  if_neg count

/-! ### DPYAREA (O44) -/

/-- Settles O44. -/
theorem dpyareaRefreshes : Obligations.DpyareaRefreshes := by
  intro s d x y w h mode ready inRange
  have precond := ready.precond fun d => rectReason s.params d x y w h
  refine ⟨rectangleChecks_of_precond (later := none) rfl ready.idle inRange (precond.trans Option.or_none.symm),
    fun pixels inside aligned => ?_⟩
  obtain ⟨t, hs, next, sent, ran, answer, _, block⟩ := exec_units (i := .dpyarea x y w h mode)
    (Act.xfer [Config.preCmd, s.params.cmdDpyArea] ::
      [wordOf x, wordOf y, wordOf w, wordOf h, wordOf mode].map fun a => Act.xfer [Config.preData, a])
    [.setRma true] (r := .none) rfl ready.idle inRange
    ⟨precond.trans (rectReason_eq_none pixels inside aligned), rfl, rfl⟩ rfl (List.all_eq_true.1 rfl)
    (List.all_eq_true.1 rfl)
  exact ⟨t, hs, next, sent, ran, answer, block⟩

/-! ### The transactions of a load -/

/-- The runs of `chunksOf` are payload frames. -/
theorem payloadFrames_chunks {p : Params} (chunk : 1 ≤ p.chunk) (bpp : Int) (pix : List Int) :
    PayloadFrames p bpp pix
      ((chunksOf p.chunk (packPixels p.pack3 (formatOf bpp) (pix.map byteOf))).map (0x0000 :: ·)) :=
  let ⟨whole, _, short, full⟩ := chunksOf_spec chunk _
  ⟨_, rfl, whole, short, full⟩

/-- A load whose checks hold: the command, the load argument, the rectangle if there is one, the payload, the end. -/
theorem exec_load {i : Instr} {s : State} {plan : Plan} {code : Word} {bpp rot : Int} {rect : List Word} {pix : List Int}
    (runs : exec i s = runOp i plan s) (idle : s.seq = .idle) (inRange : operandsInRange s.params i) (passes : plan.Passes)
    (legs : plan.prog = loadActs s.params code bpp rot rect pix) (chunk : 1 ≤ s.params.chunk) :
    ∃ t hs fs, exec i s = .next t ∧ PayloadFrames s.params bpp pix fs ∧
      Gated ([[0x6000, code], [0x0000, loadArg s.params bpp rot]] ++ rect.map (fun a => [0x0000, a]) ++ fs ++
        [[0x6000, s.params.cmdLdImgEnd]]) hs ∧
      Ran i s t hs ∧ t.answers .none ∧ SameBlock s t := by
  obtain ⟨t, hs, next, sent, ran, answer, _, block⟩ := exec_units _ [] runs idle inRange passes
    (legs.trans (payload_program _ _ _ _ _ _)) (payload_isUnit _ _ _ _ _ _) nofun
  refine ⟨t, hs, _, next, payloadFrames_chunks chunk bpp pix, ?_, ran, answer, block⟩
  rw [List.map_append, List.map_append, List.map_append, payloadUnits_sent, List.map_map] at sent
  exact sent

/-! ### The loads (O42, O43) -/

/-- Settles O42. -/
theorem loadFullStreamsThePanel : Obligations.LoadFullStreamsThePanel := by
  intro s d bpp rot pix ready chunk inRange
  have precond := ready.precond fun d => (panelEmpty d).or (pixelCount pix.length d.panelW.toNat d.panelH.toNat)
  have counted (pixels : HasPixels d) (count : pix.length = d.panelW.toNat * d.panelH.toNat) :
      (panelEmpty d).or (pixelCount pix.length d.panelW.toNat d.panelH.toNat) = none := by
    rw [panelEmpty_eq_none pixels, Option.none_or, pixelCount_eq_none (by exact_mod_cast count)]
  refine ⟨fun pixels count whole => ?_, fun empty => ?_, fun pixels count => ?_, fun pixels count ragged => ?_⟩
  · exact exec_load (i := .loadimgFull bpp rot pix) (rect := []) rfl ready.idle inRange
      ⟨precond.trans (counted pixels count), if_pos whole, rfl⟩ rfl chunk
  · refine exec_precond_fails rfl ready.idle inRange (precond.trans ?_)
    rw [panelEmpty_eq_some empty, Option.some_or]
  · refine exec_precond_fails rfl ready.idle inRange (precond.trans ?_)
    rw [panelEmpty_eq_none pixels, Option.none_or, pixelCount_eq_some (by exact_mod_cast count)]
  · exact exec_pack_fails rfl ready.idle inRange (precond.trans (counted pixels count)) (if_neg ragged)

/-- What LOADIMG.AREA checks and sends for the rectangle it comes to. -/
def areaPlan (s : State) (bpp rot : Int) (pix : List Int) (x y w h : Int) : Plan where
  precond := s.needReadyIdle.or
    (s.withInfo fun d => (rectReason s.params d x y w h).or (pixelCount pix.length w h))
  pack := packCause (formatOf bpp) pix.length
  prog := loadActs s.params s.params.cmdLdImgArea bpp rot [wordOf x, wordOf y, wordOf w, wordOf h] pix

/-- The rectangle is the operands', with the defaults of R223. -/
theorem exec_loadimgArea {s : State} {d : DeviceInfo} (ready : ReadyWith s d) (bpp rot : Int)
    {origin dims : Option (Int × Int)} (pix : List Int) {x y w h : Int} (corner : (x, y) = origin.getD (0, 0))
    (sides : (w, h) = dims.getD (d.panelW.toNat, d.panelH.toNat)) :
    exec (.loadimgArea bpp rot origin dims pix) s =
      runOp (.loadimgArea bpp rot origin dims pix) (areaPlan s bpp rot pix x y w h) s := by
  have rect : areaRect origin dims s.readInfo = ((x, y), (w, h)) := by rw [ready.readInfo, areaRect, corner, sides]
  change execLoadimgArea bpp rot origin dims pix s = _
  simp only [execLoadimgArea, rect, areaPlan]

/-- Settles O43. -/
theorem loadAreaStreamsARectangle : Obligations.LoadAreaStreamsARectangle := by
  intro s d bpp rot origin dims pix x y w h ready chunk inRange corner sides
  have runs := exec_loadimgArea ready bpp rot pix corner sides
  have precond : (areaPlan s bpp rot pix x y w h).precond =
      (rectReason s.params d x y w h).or (pixelCount pix.length w h) := ready.precond _
  refine ⟨rectangleChecks_of_precond runs ready.idle inRange precond, fun pixels inside aligned => ?_⟩
  rw [rectReason_eq_none pixels inside aligned, Option.none_or] at precond
  refine ⟨fun count whole => ?_, fun count => ?_, fun count ragged => ?_⟩
  · exact exec_load runs ready.idle inRange ⟨precond.trans (pixelCount_eq_none count), if_pos whole, rfl⟩ rfl chunk
  · exact exec_precond_fails runs ready.idle inRange (precond.trans (pixelCount_eq_some count))
  · exact exec_pack_fails runs ready.idle inRange (precond.trans (pixelCount_eq_none count)) (if_neg ragged)

end Sys2Proof.Machine
end

section
/-! SUPPORT. WAITDPY (42_protocol.md R232, R233): the status word a poll reads is the last of the three words its READ frame
receives, and a round of the poll loop leads back to its start as long as that word is not zero. -/

namespace Sys2Proof.Machine

/-! ### The status word of a poll -/

theorem gx_rdata {ws : List Word} (hw : ws ≠ []) (s : State) : (gx (.xfer ws) s).rdata = receive s ws.length :=
  let ⟨_, _, _, _, received, _⟩ := gx_between hw s
  received

theorem gx_drew (ws : List Word) (s : State) :
    (gx (.xfer ws) s).draws = s.draws + 2 * ws.length ∧ (gx (.xfer ws) s).rx = s.rx.drop (2 * ws.length) := ⟨rfl, rfl⟩

/-- The words of several transactions, two bytes each. -/
theorem gxs_drew (fs : List (List Word)) (s : State) :
    (gxs fs s).draws = s.draws + 2 * fs.flatten.length ∧ (gxs fs s).rx = s.rx.drop (2 * fs.flatten.length) := by
  induction fs generalizing s with
  | nil => exact ⟨rfl, rfl⟩
  | cons f fs ih =>
    obtain ⟨draws, rx⟩ := ih (gx (.xfer f) s)
    obtain ⟨draws', rx'⟩ := gx_drew f s
    rw [gxs_cons, draws, rx, draws', rx', List.flatten_cons, List.length_append, Nat.mul_add, List.drop_drop, Nat.add_assoc]
    exact ⟨rfl, rfl⟩

/-- The status word a poll leaves for its test: bytes 12 and 13 from its beginning. -/
theorem poll_status (p : Params) (s : State) : (gxs (statusFrames p) s).rdata[2]? = some (nextStatus s) := by
  let u := gxs [[Config.preCmd, p.cmdRegRd], [Config.preData, p.regStatus]] s
  obtain ⟨draws, rx⟩ : u.draws = s.draws + 8 ∧ u.rx = s.rx.drop 8 := gxs_drew _ s
  have received : (gxs (statusFrames p) s).rdata = receive u 3 :=
    gx_rdata (ws := [Config.preRead, p.dummy, p.dummy]) (List.cons_ne_nil _ _) u
  rw [received, receive_getElem? u (by decide), rxByte_drop s u 8 _ draws rx, rxByte_drop s u 8 _ draws rx]
  rfl

/-- The three transactions of a poll. -/
theorem poll_effect (p : Params) (s : State) :
    ∃ hs, Gated (pollFrames p) hs ∧ (lastReceived hs)[2]? = some (nextStatus s) ∧
      sequencerEvents (gxs (statusFrames p) s).trace = sequencerEvents s.trace ++ hs ∧
      (gxs (statusFrames p) s).tmo = s.tmo + BitVec.ofNat 32 (timeoutsOf hs) := by
  obtain ⟨hs, sent, events, tmo, received⟩ := gxs_effect (statusFrames p) (statusFrames_ne_nil p) s
  rw [if_neg (show statusFrames p ≠ [] from List.cons_ne_nil _ _)] at received
  exact ⟨hs, sent, received ▸ poll_status p s, events, tmo⟩

/-! ### The end of a poll -/

/-- The test of the status word and what it leads to: the end of WAITDPY, or the poll delay. -/
def pollEnd (u : State) : State := ticks 2 (load 0x28 [Act.pollCheck, .finish .none] u)

/-- A zero status ends WAITDPY with RMA cleared; `b` is the block before the poll. -/
theorem pollEnd_zero {b u : State} (zero : u.rdata[2]? = some 0) (block : SameBlock b u) :
    (pollEnd u).seq = .idle ∧ (pollEnd u).answers .none ∧ SameBlock { b with rma := false } (pollEnd u) ∧
      sequencerEvents (pollEnd u).trace = sequencerEvents u.trace ++ [Event.endOp .ok] ∧ (pollEnd u).tmo = u.tmo := by
  rw [pollEnd, poll_ends zero]
  obtain ⟨events, tmo, _, _, _, written⟩ := stepAct_silent (a := .setRma false) rfl u
  have cleared := (flagEffect_sameBlock (a := .setRma false) rfl block).trans written
  generalize stepAct 0x00 (.setRma false) u = v at *
  obtain ⟨ended, tmo', idle, _, answer, kept⟩ := finish_effect 0x28 .none (load 0x28 [] v)
  exact ⟨idle, answer, (cleared.trans (load_sameBlock _ _ _)).trans kept, by rw [ended, load_trace, events],
    tmo'.trans tmo⟩

/-- Any other status leads past the delay to the next poll. -/
theorem pollEnd_nonzero {u : State} (nonzero : u.rdata[2]? ≠ some 0) :
    (pollEnd u).seq = .busy 0x28 (pollActs u.params) ∧ (pollEnd u).resp = u.resp ∧ SameBlock u (pollEnd u) ∧
      sequencerEvents (pollEnd u).trace = sequencerEvents u.trace ++ [Event.delay .poll] ∧ (pollEnd u).tmo = u.tmo := by
  rw [pollEnd, poll_goes_round nonzero]
  obtain ⟨events, tmo, _, kept⟩ := delay_effect .poll (environment u)
  have block := ((environment_kept u).trans kept).sameBlock.trans (load_sameBlock 0x28 (pollActs u.params) _)
  exact ⟨rfl, rfl, block, by rw [load_trace, events]; simp, tmo⟩

/-- The end of a poll receives nothing. -/
theorem pollEnd_drew (u : State) : (pollEnd u).draws = u.draws ∧ (pollEnd u).rx = u.rx := by
  unfold pollEnd
  by_cases zero : u.rdata[2]? = some 0
  · rw [poll_ends zero]
    exact ⟨rfl, rfl⟩
  · rw [poll_goes_round zero]
    exact ⟨rfl, rfl⟩

/-! ### The first poll (O45) -/

theorem exec_waitdpy {s : State} (idle : s.seq = .idle) (configured : s.configured = true) (awake : s.asleep = false) :
    exec .waitdpy s = .next (pollEnd (gxs (statusFrames s.params) (accept .waitdpy s))) := by
  rw [exec_passes (i := .waitdpy) rfl idle trivial ⟨needReady_eq_none configured awake, rfl, rfl⟩]
  exact congrArg _ (ticks_gatedAll (statusFrames s.params) 2 0x28 [.pollCheck, .finish .none] (accept .waitdpy s))

/-- Settles O45. -/
theorem waitdpyPolls : Obligations.WaitdpyPolls := by
  intro s idle configured awake
  have next := exec_waitdpy idle configured awake
  obtain ⟨hs, sent, received, events, tmo⟩ := poll_effect s.params (accept .waitdpy s)
  have status := poll_status s.params (accept .waitdpy s)
  have kept := gxs_kept (statusFrames s.params) (accept .waitdpy s)
  change (lastReceived hs)[2]? = some (nextStatus s) at received
  change _ = some (nextStatus s) at status
  generalize gxs (statusFrames s.params) (accept .waitdpy s) = u at *
  have block := (accept_sameBlock .waitdpy s).trans kept.sameBlock
  simp only [accept_trace, sequencerEvents_append] at events
  refine ⟨fun zero => ?_, fun nonzero => ?_⟩
  · rw [zero] at status received
    obtain ⟨seq, answer, cleared, ended, tmo'⟩ := pollEnd_zero status block
    exact ⟨_, hs, next, sent, received, ⟨by rw [ended, events]; rfl, tmo'.trans tmo, seq⟩, answer, cleared⟩
  · obtain ⟨seq, resp, same, delayed, tmo'⟩ := pollEnd_nonzero (by rw [status]; simpa using nonzero)
    rw [block.params] at seq
    exact ⟨_, hs, next, sent, received, seq, resp.trans kept.resp, block.trans same, by rw [delayed, events]; rfl,
      tmo'.trans tmo⟩

/-! ### Rounds of the loop (O46, O47) -/

theorem stepsTo_append {m n : Nat} {s t u : State} (first : stepsTo m s t) (second : stepsTo n t u) :
    stepsTo (m + n) s u := by
  induction m generalizing s with
  | zero => rw [Nat.zero_add]; exact (show t = s from first) ▸ second
  | succ m ih =>
    obtain ⟨v, step, rest⟩ := first
    rw [Nat.succ_add]
    exact ⟨v, step, ih rest⟩

/-- A BUSY block that is not at a gated transaction takes one atomic step. -/
theorem step_load_tick {opc : Byte} {todo : List Act} {s : State} (h : fetchUnit todo = none) :
    step (load opc todo s) = .next (tick (load opc todo s)) := by
  simp only [step, load_seq, h]

/-- The end of a poll is two steps of the machine. -/
theorem stepsTo_pollEnd (u : State) : stepsTo 2 (load 0x28 [Act.pollCheck, .finish .none] u) (pollEnd u) := by
  refine ⟨_, step_load_tick rfl, _, ?_, rfl⟩
  rw [pollEnd, ticks_succ, ticks_succ, ticks_zero, tick_load_cons]
  by_cases zero : u.rdata[2]? = some 0
  · rw [pollCheck_zero zero]
    exact step_load_tick rfl
  · rw [pollCheck_nonzero zero]
    exact step_load_tick rfl

/-- One round of the loop. -/
theorem stepsTo_pollRound {s : State} (polling : s.seq = .busy 0x28 (pollActs s.params)) :
    stepsTo 5 s (pollEnd (gxs (statusFrames s.params) s)) := by
  obtain ⟨u, v, first, second, third⟩ := steps_poll polling
  exact ⟨u, first, v, second, _, third, stepsTo_pollEnd _⟩

/-- A round takes 14 bytes. -/
theorem pollRound_drew (s : State) :
    (pollEnd (gxs (statusFrames s.params) s)).draws = s.draws + 14 ∧
      (pollEnd (gxs (statusFrames s.params) s)).rx = s.rx.drop 14 := by
  obtain ⟨draws, rx⟩ := pollEnd_drew (gxs (statusFrames s.params) s)
  obtain ⟨draws', rx'⟩ := gxs_drew (statusFrames s.params) s
  exact ⟨draws.trans draws', rx.trans rx'⟩

/-- Settles O46. -/
theorem pollLoopRound : Obligations.PollLoopRound := by
  intro s polling
  have steps := stepsTo_pollRound polling
  have drew := (pollRound_drew s).1
  obtain ⟨hs, sent, _, events, tmo⟩ := poll_effect s.params s
  have status := poll_status s.params s
  have kept := gxs_kept (statusFrames s.params) s
  generalize gxs (statusFrames s.params) s = u at *
  by_cases zero : nextStatus s = 0
  · rw [zero] at status
    obtain ⟨seq, answer, cleared, ended, tmo'⟩ := pollEnd_zero status kept.sameBlock
    exact ⟨_, hs, steps, sent, drew, tmo'.trans tmo, fun nonzero => absurd zero nonzero,
      fun _ => ⟨seq, answer, cleared, by rw [ended, events]⟩⟩
  · obtain ⟨seq, resp, same, delayed, tmo'⟩ := pollEnd_nonzero (by rw [status]; simpa using zero)
    rw [kept.params, ← polling] at seq
    exact ⟨_, hs, steps, sent, drew, tmo'.trans tmo,
      fun _ => ⟨seq, resp.trans kept.resp, kept.sameBlock.trans same, by rw [delayed, events]⟩,
      fun isZero => absurd isZero zero⟩

/-- As many rounds as the status words that come are nonzero lead back to the start of a poll. -/
theorem poll_rounds (n : Nat) {s : State} (polling : s.seq = .busy 0x28 (pollActs s.params))
    (nonzero : ∀ k, k < n → statusAt s k ≠ 0) :
    ∃ t, stepsTo (5 * n) s t ∧ t.seq = s.seq ∧ t.resp = s.resp ∧ SameBlock s t := by
  induction n generalizing s with
  | zero => exact ⟨s, rfl, rfl, rfl, SameBlock.refl s⟩
  | succ n ih =>
    have steps := stepsTo_pollRound polling
    obtain ⟨draws, rx⟩ := pollRound_drew s
    have kept := gxs_kept (statusFrames s.params) s
    obtain ⟨seq, resp, same, _⟩ := pollEnd_nonzero
      (show (gxs (statusFrames s.params) s).rdata[2]? ≠ some 0 by
        rw [poll_status]
        exact fun zero => nonzero 0 (Nat.succ_pos n) (Option.some.inj zero))
    generalize pollEnd (gxs (statusFrames s.params) s) = u at *
    have block := kept.sameBlock.trans same
    rw [kept.params] at seq
    have later (k : Nat) : statusAt u k = statusAt s (k + 1) := by
      simp only [statusAt, rxByte_drop s u 14 _ draws rx]
      congr 2 <;> omega
    obtain ⟨t, rest, seq', resp', block'⟩ := ih (s := u) (by rw [seq, block.params])
      fun k small => later k ▸ nonzero (k + 1) (Nat.succ_lt_succ small)
    refine ⟨t, ?_, seq'.trans (seq.trans polling.symm), resp'.trans (resp.trans kept.resp), block.trans block'⟩
    rw [Nat.mul_succ, Nat.add_comm]
    exact stepsTo_append steps rest

/-- A controller that sends ones only is never read as zero. -/
theorem statusAt_ones (s : State) {n k : Nat} (small : k < n) :
    statusAt { s with rx := List.replicate (14 * n) 1 } k ≠ 0 := by
  have one {j : Nat} (inside : j < 14 * n) : rxByte { s with rx := List.replicate (14 * n) 1 } j = 1 := by
    simp [rxByte, List.getD_eq_getElem?_getD, inside]
  rw [statusAt, one (by omega), one (by omega)]
  decide

/-- Settles O47: rounds are repeated by induction on their number. -/
theorem waitdpyMayNeverEnd : Obligations.WaitdpyMayNeverEnd := by
  intro s polling n
  refine ⟨poll_rounds n polling, List.replicate (14 * n) 1, ?_⟩
  obtain ⟨t, steps, seq, _, block⟩ :=
    poll_rounds n (s := { s with rx := List.replicate (14 * n) 1 }) polling fun _ => statusAt_ones s
  exact ⟨t, steps, seq, block.rma⟩

end Sys2Proof.Machine
end

section
/-! SUPPORT. The transition table of the protocol states (42_protocol.md R241): the state is read off the flags, the checks say
which state an operation ran in, and `doneBlock` which state it leaves. -/

namespace Sys2Proof.Machine

/-! ### The protocol state and the flags -/

theorem SameBlock.proto {s t : State} (h : SameBlock s t) : t.proto = s.proto := by
  rw [State.proto, State.proto, h.faults, h.configured, h.asleep, h.rma]

section
variable {s : State}

theorem proto_unconfigured (clean : s.faults = []) (configured : s.configured = false) : s.proto = .unconfigured := by
  simp [State.proto, clean, configured]

theorem proto_sleeping (clean : s.faults = []) (configured : s.configured = true) (asleep : s.asleep = true) :
    s.proto = .sleeping := by simp [State.proto, clean, configured, asleep]

theorem proto_awake (clean : s.faults = []) (configured : s.configured = true) (awake : s.asleep = false) :
    s.proto = if s.rma then .refreshing else .ready := by simp [State.proto, clean, configured, awake]

theorem proto_ready (clean : s.faults = []) (configured : s.configured = true) (awake : s.asleep = false)
    (noRefresh : s.rma = false) : s.proto = .ready := by
  rw [proto_awake clean configured awake, noRefresh]
  rfl

theorem proto_refreshing (clean : s.faults = []) (configured : s.configured = true) (awake : s.asleep = false)
    (refresh : s.rma = true) : s.proto = .refreshing := by
  rw [proto_awake clean configured awake, refresh]
  rfl

theorem proto_ready_or_refreshing (clean : s.faults = []) (configured : s.configured = true) (awake : s.asleep = false) :
    s.proto = .ready ∨ s.proto = .refreshing := by
  cases rma : s.rma with
  | false => exact .inl (proto_ready clean configured awake rma)
  | true => exact .inr (proto_refreshing clean configured awake rma)

theorem proto_ne_unconfigured (clean : s.faults = []) (configured : s.configured = true) : s.proto ≠ .unconfigured := by
  cases asleep : s.asleep with
  | true => rw [proto_sleeping clean configured asleep]; decide
  | false => rcases proto_ready_or_refreshing clean configured asleep with h | h <;> rw [h] <;> decide

/-- Setting RMA moves READY to REFRESHING and nothing else: the table of the four tests `proto` makes. -/
theorem proto_setRma (s : State) : { s with rma := true }.proto = if s.proto = .ready then .refreshing else s.proto := by
  unfold State.proto
  cases s.faults.isEmpty <;> cases s.configured <;> cases s.asleep <;> cases s.rma <;> rfl

theorem proto_takeFault (opc : Byte) (c : Cause) (s : State) : (takeFault opc c s).proto = .halted := by
  have recorded : addFault ⟨c, opc⟩ s.faults ≠ [] := by
    unfold addFault
    split
    · next mem => exact List.ne_nil_of_mem (List.contains_iff_mem.1 mem)
    · simp
  simp [State.proto, recorded]

end

/-! ### What the groups of the table need and leave -/

section
variable {i : Instr} {s : State}

theorem isAccess.admitted (h : isAccess i) (admitted : Admitted s i) : s.configured = true ∧ s.asleep = false := by
  cases i with
  | rdreg _ => exact admitted
  | wrreg _ _ => exact admitted
  | getvcom => exact admitted
  | setvcom _ => exact admitted
  | _ => exact h.elim

theorem isLoad.admitted (h : isLoad i) (admitted : Admitted s i) :
    s.configured = true ∧ s.asleep = false ∧ s.rma = false := by
  cases i with
  | loadimgFull _ _ _ => exact admitted
  | loadimgArea _ _ _ _ _ => exact admitted
  | _ => exact h.elim

theorem isAccess.doneBlock (h : isAccess i) (d : DeviceInfo) : doneBlock d s i = s := by
  cases i with
  | rdreg _ => rfl
  | wrreg _ _ => rfl
  | getvcom => rfl
  | setvcom _ => rfl
  | _ => exact h.elim

theorem isLoad.doneBlock (h : isLoad i) (d : DeviceInfo) : doneBlock d s i = s := by
  cases i with
  | loadimgFull _ _ _ => rfl
  | loadimgArea _ _ _ _ _ => rfl
  | _ => exact h.elim

theorem isPure.doneBlock (h : isPure i) (d : DeviceInfo) : doneBlock d s i = s := by
  cases i with
  | rdstat => rfl
  | pack2 _ => rfl
  | pack3 _ => rfl
  | pack4 _ => rfl
  | pack8 _ => rfl
  | _ => exact h.elim

theorem isRaw.doneBlock (h : isRaw i) (d : DeviceInfo) : doneBlock d s i = { s with rma := true } := by
  cases i with
  | xfer _ => rfl
  | wcmd _ _ => rfl
  | wdata _ => rfl
  | wwords _ _ => rfl
  | rwords _ => rfl
  | _ => exact h.elim

end

/-! ### The table (O52) -/

/-- A host operation is taken from IDLE only. -/
theorem exec_host_idle {i : Instr} (hi : i.opc?.isSome = true) {s t : State} (h : exec i s = .next t) : s.seq = .idle := by
  obtain ⟨plan, runs⟩ := exec_host hi s
  exact (runOp_cases (runs ▸ h)).1

/-- Settles O52: by what the operation did, and for one that ended by what it needed and what it wrote. -/
theorem protocolTransitions : Obligations.ProtocolTransitions := by
  intro i s t inv host next running
  have clean : s.faults = [] := inv.no_fault (by simp [exec_host_idle host next])
  cases host_outcome host next with
  | faulted c h => exact absurd (h ▸ proto_takeFault i.opc c _) running
  | rejected v which admitted h =>
    have same : t.proto = s.proto := h ▸ rfl
    rcases which with rfl | rfl
    · obtain ⟨configured, awake⟩ := admitted
      exact ⟨nofun, nofun, nofun, fun _ => ⟨proto_ready_or_refreshing clean configured awake, same⟩, False.elim, nofun, nofun,
        nofun, nofun, False.elim, False.elim⟩
    · have before := proto_unconfigured clean admitted
      refine ⟨?_, nofun, nofun, False.elim, False.elim, nofun, nofun, nofun, nofun, False.elim, False.elim⟩
      rintro _ ⟨⟩
      exact ⟨before, .inr ⟨same.trans before, h ▸ rfl⟩⟩
  | waiting which admitted seq block =>
    subst which
    obtain ⟨configured, awake⟩ := admitted
    exact ⟨nofun, nofun, nofun, False.elim, False.elim, nofun,
      fun _ => ⟨proto_ready_or_refreshing clean configured awake, .inr ⟨by rw [seq]; rfl, block.proto⟩⟩, nofun, nofun,
      False.elim, False.elim⟩
  | ended d admitted seq block =>
    have proto := block.proto
    refine ⟨?_, ?_, ?_, fun access => ?_, fun loads => ?_, ?_, ?_, ?_, ?_, fun raw => ?_, fun silent => ?_⟩
    · rintro v rfl
      exact ⟨proto_unconfigured clean admitted, .inl (proto.trans (proto_refreshing clean rfl rfl rfl))⟩
    · rintro rfl
      exact proto.trans (proto_unconfigured clean rfl)
    · rintro rfl
      obtain ⟨_, noInfo⟩ := admitted
      have unconfigured : s.configured = false := by
        by_contra configured
        simp [inv.configured_info (by simpa using configured)] at noInfo
      exact ⟨proto_unconfigured clean unconfigured, noInfo, proto.trans (proto_unconfigured clean unconfigured),
        block.infoValid⟩
    · obtain ⟨configured, awake⟩ := access.admitted admitted
      exact ⟨proto_ready_or_refreshing clean configured awake, by rw [proto, access.doneBlock]⟩
    · obtain ⟨configured, awake, noRefresh⟩ := loads.admitted admitted
      have ready := proto_ready clean configured awake noRefresh
      exact ⟨ready, by rw [proto, loads.doneBlock, ready]⟩
    · rintro x y w h m rfl
      obtain ⟨configured, awake, noRefresh⟩ := admitted
      exact ⟨proto_ready clean configured awake noRefresh, proto.trans (proto_refreshing clean configured awake rfl)⟩
    · rintro rfl
      obtain ⟨configured, awake⟩ := admitted
      exact ⟨proto_ready_or_refreshing clean configured awake,
        .inl ⟨seq, proto.trans (proto_ready clean configured awake rfl)⟩⟩
    · rintro rfl
      obtain ⟨configured, awake, noRefresh⟩ := admitted
      exact ⟨proto_ready clean configured awake noRefresh, proto.trans (proto_sleeping clean configured rfl)⟩
    · rintro rfl
      exact ⟨proto_ne_unconfigured clean admitted, proto.trans (proto_awake clean admitted rfl)⟩
    · rw [raw.doneBlock] at block proto
      exact ⟨block.rma, proto.trans (proto_setRma s)⟩
    · rw [proto, silent.doneBlock]

end Sys2Proof.Machine
end

section
/-! SUPPORT. The host model (49_host_diff_engine.md R261 to R278): the laws of boxes, what the images hold by column and row,
what each drawing procedure issues and ends with, and CONSTRUCT on an unconfigured block. -/

namespace Sys2Proof.Machine

/-! ### Boxes (O54) -/

theorem Box.mem_iff {b : Box} {x y : Int} : b.mem x y = true ↔ (b.minX ≤ x ∧ x < b.maxX) ∧ b.minY ≤ y ∧ y < b.maxY := by
  simp [Box.mem, and_assoc]

theorem Box.round_round {a : Nat} (ha : 1 ≤ a) (b : Box) : (b.round a).round a = b.round a := by
  simp only [Box.round, alignDown_alignDown ha, alignUp_alignUp ha]

theorem Box.mem_round {a : Nat} (ha : 1 ≤ a) {b : Box} {x y : Int} (inside : b.mem x y = true) :
    (b.round a).mem x y = true := by
  obtain ⟨⟨left, right⟩, top, bottom⟩ := Box.mem_iff.1 inside
  exact Box.mem_iff.2 ⟨⟨(alignDown_le ha _).trans left, right.trans_le (le_alignUp ha _)⟩,
    (alignDown_le ha _).trans top, bottom.trans_le (le_alignUp ha _)⟩

/-- Clamping loses only the pixels outside the buffer (R266). -/
theorem Box.mem_clamp {w h : Nat} {b : Box} {x y : Int} (inside : b.mem x y = true) (x0 : 0 ≤ x) (xw : x < w) (y0 : 0 ≤ y)
    (yh : y < h) : (b.clamp w h).mem x y = true := by
  obtain ⟨⟨left, right⟩, top, bottom⟩ := Box.mem_iff.1 inside
  exact Box.mem_iff.2 ⟨⟨max_le left x0, lt_min right xw⟩, max_le top y0, lt_min bottom yh⟩

theorem Box.union_comm (b c : Box) : b.union c = c.union b := by
  simp only [Box.union, min_comm, max_comm]

theorem Box.union_assoc (b c d : Box) : (b.union c).union d = b.union (c.union d) := by
  simp only [Box.union, min_assoc, max_assoc]

theorem mergeBox_none (b : Option Box) : mergeBox b none = b := by cases b <;> rfl

theorem mergeBox_comm (b c : Option Box) : mergeBox b c = mergeBox c b := by
  cases b with
  | none => exact (mergeBox_none c).symm
  | some b =>
    cases c with
    | none => rfl
    | some c => exact congrArg some (b.union_comm c)

theorem mergeBox_assoc (b c d : Option Box) : mergeBox (mergeBox b c) d = mergeBox b (mergeBox c d) := by
  cases b with
  | none => rfl
  | some b =>
    cases c with
    | none => rfl
    | some c =>
      cases d with
      | none => rfl
      | some d => exact congrArg some (b.union_assoc c d)

/-- Settles O54. Law 4 needs no bound on the boxes: clamping commutes with the smallest box that contains both. -/
theorem boxLaws : Obligations.BoxLaws := by
  intro a w h ha
  exact ⟨fun b => ⟨b.round_round ha, b.rc_rc ha w h⟩,
    fun b x y inside => Box.mem_round ha inside,
    fun b x y inside x0 xw y0 yh => Box.mem_clamp (Box.mem_round ha inside) x0 xw y0 yh,
    fun b c d => ⟨mergeBox_comm b c, mergeBox_assoc b c d, rfl, mergeBox_none b⟩,
    fun b c _ _ _ _ _ _ _ _ _ _ _ _ => Box.rc_union ha w h b c⟩

/-! ### Images by column and row (O58) -/

/-- R261, by column and row. -/
theorem view_at (p : Params) {w h : Nat} {fb : List Byte} (size : fb.length = w * h) {x y : Nat} (hx : x < w) (hy : y < h) :
    (view p w h fb)[y * w + x]? = if p.rot180 then fb[(h - 1 - y) * w + (w - 1 - x)]? else fb[y * w + x]? := by
  rw [(view_spec p w h size).2 _ (position_lt hx hy), (position y hx).1, (position y hx).2]

/-- A position that differs is a pixel of the buffer that differs. -/
theorem exists_pixel_of_mem_differing {w h k : Nat} {a b : List Byte} {side : Nat → Nat → Prop}
    (hk : k ∈ differing w h a b) (touched : side (k % w) (k / w)) :
    ∃ x y, x < w ∧ y < h ∧ a[y * w + x]? ≠ b[y * w + x]? ∧ side x y := by
  obtain ⟨inBuffer, differs⟩ := mem_differing.1 hk
  obtain ⟨hx, hy, same⟩ := exists_position inBuffer
  exact ⟨k % w, k / w, hx, hy, by rwa [same], touched⟩

/-- R264, by column and row: the box holds every pixel that differs, and each side touches one. -/
theorem bboxdiff_pixels {w h : Nat} {a b : List Byte} {box : Box} (hb : bboxdiff w h a b = some box) :
    (∀ x y, x < w → y < h → a[y * w + x]? ≠ b[y * w + x]? → box.mem x y = true) ∧
      (∃ x y, x < w ∧ y < h ∧ a[y * w + x]? ≠ b[y * w + x]? ∧ (x : Int) = box.minX) ∧
      (∃ x y, x < w ∧ y < h ∧ a[y * w + x]? ≠ b[y * w + x]? ∧ (x : Int) + 1 = box.maxX) ∧
      (∃ x y, x < w ∧ y < h ∧ a[y * w + x]? ≠ b[y * w + x]? ∧ (y : Int) = box.minY) ∧
      (∃ x y, x < w ∧ y < h ∧ a[y * w + x]? ≠ b[y * w + x]? ∧ (y : Int) + 1 = box.maxY) := by
  obtain ⟨inBox, ⟨i, hi, left⟩, ⟨j, hj, right⟩, ⟨k, hk, top⟩, ⟨l, hl, bottom⟩⟩ := bboxdiff_some hb
  refine ⟨fun x y hx hy differs => ?_, exists_pixel_of_mem_differing hi left, exists_pixel_of_mem_differing hj right,
    exists_pixel_of_mem_differing hk top, exists_pixel_of_mem_differing hl bottom⟩
  have := inBox _ (mem_differing.2 ⟨position_lt hx hy, differs⟩)
  rwa [(position y hx).1, (position y hx).2] at this

/-- R264: the box lies in the buffer and is not empty. -/
theorem bboxdiff_inside {w h : Nat} {a b : List Byte} {box : Box} (hb : bboxdiff w h a b = some box) :
    0 ≤ box.minX ∧ box.minX < box.maxX ∧ box.maxX ≤ w ∧ 0 ≤ box.minY ∧ box.minY < box.maxY ∧ box.maxY ≤ h := by
  obtain ⟨inBox, ⟨x, y, hx, hy, differs, left⟩, ⟨_, _, _, _, _, right⟩, ⟨_, _, _, _, _, top⟩, ⟨_, _, _, _, _, bottom⟩⟩ :=
    bboxdiff_pixels hb
  have := Box.mem_iff.1 (inBox x y hx hy differs)
  omega

/-- Settles O58. -/
theorem hostImages : Obligations.HostImages := by
  intro p w h
  exact ⟨fun fb size => ⟨view_length p w h size, fun x y hx hy => view_at p size hx hy⟩,
    fun a b ha hb => ⟨bboxdiff_none ha hb, fun box hbox => ⟨bboxdiff_inside hbox, bboxdiff_pixels hbox⟩⟩,
    fun v x0 y0 cw ch size hx hy => crop_spec size hx hy⟩

/-! ### The drawing procedures (O55, O59) -/

/-- Pixels as they are sent: flattened in the fast mode, then as an operand (R269, R271). -/
theorem pixOperand_flatten (p : Params) (mode : Int) (v : List Byte) :
    pixOperand (flatten p mode v) = v.map (sentPixel p mode) := by
  unfold pixOperand flatten
  split
  next fast =>
    rw [List.map_map]
    refine List.map_congr_left fun px _ => ?_
    simp only [Function.comp, quantise, sentPixel, if_pos fast, ge_iff_le]
    split <;> simp
  next other => exact List.map_congr_left fun px _ => (if_neg other).symm

/-- Outside the fast mode a pixel is sent as it is. -/
theorem sentPixel_other {p : Params} {mode : Int} (other : mode ≠ p.modeFast) (px : Byte) :
    sentPixel p mode px = px.toNat := if_neg other

/-- What DRAWFULL issues (R271). -/
theorem drawFull_ops (p : Params) (mode : Int) (hs : HostState) :
    (drawFull p mode hs).1 =
      [.waitdpy, .loadimgFull p.hostFmt 0 ((view p hs.w hs.h hs.fb).map (sentPixel p mode)),
        .dpyarea 0 0 hs.w hs.h mode] := by
  rw [← pixOperand_flatten]
  rfl

/-- What DRAWFULL ends with outside the fast mode (R271). -/
theorem drawFull_state_other {p : Params} {mode : Int} (other : mode ≠ p.modeFast) (hs : HostState) :
    (drawFull p mode hs).2 = { hs with prev := some (view p hs.w hs.h hs.fb), acc := none } := by
  simp [drawFull, other]

/-- What the fast DRAWFULL ends with when there is no previous frame: the full box counts as changed (R271). -/
theorem drawFull_state_fast_first (p : Params) {hs : HostState} (first : hs.prev = none) :
    (drawFull p p.modeFast hs).2 =
      { hs with prev := some (view p hs.w hs.h hs.fb), acc := mergeBox hs.acc (some ⟨0, 0, hs.w, hs.h⟩) } := by
  simp only [drawFull, first, if_true]

/-- What the fast DRAWFULL ends with after a previous frame: the changed box is merged, if any (R271). -/
theorem drawFull_state_fast (p : Params) {hs : HostState} {q : List Byte} (prev : hs.prev = some q) :
    (drawFull p p.modeFast hs).2 =
      { hs with
        prev := some (view p hs.w hs.h hs.fb)
        acc := mergeBox hs.acc
          ((bboxdiff hs.w hs.h q (view p hs.w hs.h hs.fb)).map (Box.rc p.align hs.w hs.h)) } := by
  simp only [drawFull, prev, if_true]

/-- R275: an array of the buffer's size is drawn. -/
theorem drawExternally_of_length {fb : List Byte} {hs : HostState} (size : fb.length = hs.w * hs.h) :
    drawExternally fb hs = { hs with fb := fb } := if_pos size

theorem bboxdiff_self (w h : Nat) (a : List Byte) : bboxdiff w h a a = none := by
  simp [bboxdiff, differing]

/-- R272 with nothing changed. -/
theorem drawPartial_unchanged (p : Params) (mode : Int) {hs : HostState}
    (same : hs.prev = some (view p hs.w hs.h hs.fb)) : drawPartial p mode hs = ([], hs) := by
  simp only [drawPartial, same, bboxdiff_self, Option.map_none]
  rw [← same]

/-- R272 with no previous frame. -/
theorem drawPartial_first (p : Params) (mode : Int) {hs : HostState} (first : hs.prev = none) :
    drawPartial p mode hs = drawFull p mode hs := by
  simp only [drawPartial, first]

/-- R272 with a change: the part that sends a region. -/
theorem drawPartial_changed (p : Params) (mode : Int) {hs : HostState} {q : List Byte} {b : Box} (prev : hs.prev = some q)
    (changed : bboxdiff hs.w hs.h q (view p hs.w hs.h hs.fb) = some b) :
    drawPartial p mode hs = drawRegion p mode (view p hs.w hs.h hs.fb) (b.rc p.align hs.w hs.h) hs := by
  simp only [drawPartial, prev, changed, Option.map_some]

/-- The fast mode sends the changed box, and keeps it in the accumulator. -/
theorem drawRegion_fast (p : Params) (v : List Byte) (d : Box) (hs : HostState) :
    drawRegion p p.modeFast v d hs =
      (sendsBox p p.modeFast hs.w v d, { hs with prev := some v, acc := mergeBox hs.acc (some d) }) := by
  simp only [drawRegion, pixOperand_flatten, sendsBox, if_true]

/-- What a mode other than the fast one sends (R272): the changed box, already rounded, or the accumulated box with it. -/
def accumulated (a w h : Nat) (acc : Option Box) (d : Box) : Box :=
  match acc with
  | none => d
  | some c => (c.union d).rc a w h

/-- Any other mode sends the accumulated region and empties the accumulator; where nothing had accumulated, one more
rounding of the changed box changes nothing (R268). -/
theorem drawRegion_other {p : Params} (ha : 1 ≤ p.align) {mode : Int} (other : mode ≠ p.modeFast) (v : List Byte) (b : Box)
    (hs : HostState) :
    drawRegion p mode v (b.rc p.align hs.w hs.h) hs =
      (sendsBox p mode hs.w v (accumulated p.align hs.w hs.h hs.acc (b.rc p.align hs.w hs.h)),
        { hs with prev := some v, acc := none }) := by
  simp only [drawRegion, pixOperand_flatten, sendsBox, if_neg other]
  cases hs.acc with
  | none => simp only [mergeBox, accumulated, Option.map_some, Option.getD_some, Box.rc_rc ha]
  | some c => simp only [mergeBox, accumulated, Option.map_some, Option.getD_some]

/-- R277: after a fast draw of `a`, a draw of `b` in another mode sends the box of both. -/
theorem drawPartial_other_after_fast {p : Params} (ha : 1 ≤ p.align) {mode : Int} (other : mode ≠ p.modeFast)
    {hs : HostState} {q fa fb : List Byte} {a b : Box} (prev : hs.prev = some q) (acc : hs.acc = none)
    (sizeA : fa.length = hs.w * hs.h) (sizeB : fb.length = hs.w * hs.h)
    (changedA : bboxdiff hs.w hs.h q (view p hs.w hs.h fa) = some a)
    (changedB : bboxdiff hs.w hs.h (view p hs.w hs.h fa) (view p hs.w hs.h fb) = some b) :
    (drawPartial p mode (drawExternally fb (drawPartial p p.modeFast (drawExternally fa hs)).2)).1 =
      sendsBox p mode hs.w (view p hs.w hs.h fb) ((a.union b).rc p.align hs.w hs.h) := by
  have afterA : (drawPartial p p.modeFast (drawExternally fa hs)).2 =
      { hs with fb := fa, prev := some (view p hs.w hs.h fa), acc := some (a.rc p.align hs.w hs.h) } := by
    rw [drawExternally_of_length sizeA, drawPartial_changed (hs := { hs with fb := fa }) p p.modeFast prev changedA,
      drawRegion_fast, acc]
    rfl
  have both : ((a.rc p.align hs.w hs.h).union (b.rc p.align hs.w hs.h)).rc p.align hs.w hs.h =
      (a.union b).rc p.align hs.w hs.h := by rw [Box.rc_union ha, Box.rc_rc ha]
  rw [afterA, drawExternally_of_length (by exact sizeB), drawPartial_changed p mode rfl changedB, drawRegion_other ha other,
    accumulated, both]

/-- The view of a uniform buffer is uniform (R273). -/
theorem view_replicate (p : Params) (w h : Nat) (px : Byte) :
    view p w h (List.replicate (w * h) px) = List.replicate (w * h) px := by
  have size : (List.replicate (w * h) px).length = w * h := List.length_replicate
  refine List.eq_replicate_iff.2 ⟨view_length p w h size, fun q hq => ?_⟩
  obtain ⟨k, _, found⟩ := List.mem_filterMap.1 hq
  split at found <;> exact List.eq_of_mem_replicate (List.mem_of_getElem? found)

/-- Settles O55. -/
theorem hostDrawing : Obligations.HostDrawing := by
  intro p mode hs
  refine ⟨drawPartial_unchanged p mode, drawPartial_first p mode, fun distinct => ?_⟩
  have ops := drawFull_ops p p.modeInit { hs with fb := List.replicate (hs.w * hs.h) p.white }
  simp only [view_replicate, List.map_replicate, sentPixel_other distinct] at ops
  have ends := drawFull_state_other distinct { hs with fb := List.replicate (hs.w * hs.h) p.white }
  simp only [view_replicate] at ends
  simp only [clear, ops, ends, and_self]

/-- Settles O59. -/
theorem hostSendsRegions : Obligations.HostSendsRegions := by
  intro p hs _ ha
  refine ⟨fun mode => ⟨drawFull_ops p mode hs, ?_⟩, fun mode q b prev changed => ?_,
    fun mode q fa fb a b prev acc other sizeA sizeB changedA changedB =>
      drawPartial_other_after_fast ha other prev acc sizeA sizeB changedA changedB⟩
  · by_cases other : mode ≠ p.modeFast
    · rw [if_pos other, drawFull_state_other other]
    · obtain rfl := not_not.1 other
      rw [if_neg other]
      cases prev : hs.prev with
      | none => exact drawFull_state_fast_first p prev
      | some q => exact drawFull_state_fast p prev
  · rw [drawPartial_changed p mode prev changed]
    split
    · next fast =>
      subst fast
      exact drawRegion_fast p _ _ hs
    · next other => exact drawRegion_other ha other _ b hs

/-! ### Construction and the arrays' size (O60) -/

/-- CONSTRUCT with a legal voltage (R274): the panel's size is that of the DeviceInfo INIT read (R262). -/
theorem runConstruct_legal {s : State} {vcom : Rat} (idle : s.seq = .idle) (unconfigured : s.configured = false)
    (low : -5 < vcom) (high : vcom < 0) :
    ∃ t d, exec (.init vcom) s = .next t ∧ t.info = some d ∧ runConstruct vcom s = some (construct s.params d) := by
  obtain ⟨t, _, _, d, next, _, _, _, _, answer, block⟩ := (initConfigures s vcom idle unconfigured).1 low high
  have info : t.info = some d := block.info
  have read : t.readInfo = some d := by rw [State.readInfo, if_pos block.infoValid, info]
  refine ⟨t, d, next, info, ?_⟩
  rw [runConstruct, next]
  show constructed t = _
  rw [constructed, show t.resp = some ⟨.ok, .none⟩ from answer, read, block.params]
  rfl

/-- E_CONFIG ends construction with no state (R274). -/
theorem runConstruct_illegal {s : State} {vcom : Rat} (idle : s.seq = .idle) (unconfigured : s.configured = false)
    (out : vcom ≤ -5 ∨ 0 ≤ vcom) : runConstruct vcom s = none := by
  have rejected : exec (.init vcom) s = _ := (initConfigures s vcom idle unconfigured).2 out
  rw [runConstruct, rejected]
  rfl

/-- Settles O60. -/
theorem hostStateIsThePanels : Obligations.HostStateIsThePanels := by
  exact ⟨fun s vcom idle unconfigured =>
      ⟨runConstruct_legal idle unconfigured, runConstruct_illegal idle unconfigured⟩,
    construct_wf,
    fun p hs mode fb wf => ⟨drawFull_wf wf p mode, drawPartial_wf wf p mode, clear_wf wf p, drawExternally_wf wf fb,
      drawExternally_of_length⟩⟩

end Sys2Proof.Machine
end
section
/-! SUPPORT. Faults and the edge agent (60_exceptions.md R303 to R305): an operation found HALTED faulted at its checks, and one
step of the edge agent as the interleaving point of an IDLE block. -/

namespace Sys2Proof.Machine

/-! ### Faults before traffic (O7) -/

/-- Of what an operation can do, only the fault of a check leaves the block HALTED: it is over before the first leg (R305). -/
theorem HostOutcome.faulted_of_halted {i : Instr} {s t : State} (h : HostOutcome i s t) (halted : t.seq = .halted) :
    ∃ c, t = takeFault i.opc c (accept i s) := by
  cases h with
  | faulted c faulted => exact ⟨c, faulted⟩
  | rejected v _ _ rejected => rw [rejected, configError_seq] at halted; nomatch halted
  | ended _ _ idle _ => rw [idle] at halted; nomatch halted
  | waiting _ _ busy _ => rw [busy] at halted; nomatch halted

/-- Settles O7, by the cases of a host operation. -/
theorem faultsComeBeforeTraffic : Obligations.FaultsComeBeforeTraffic := by
  intro i s t host next halted
  obtain ⟨c, rfl⟩ := (host_outcome host next).faulted_of_halted halted
  exact ⟨c, by rw [FaultsWith, next, takeFault_accept]⟩

/-! ### The edge agent's step (O21) -/

/-- A sample of 1 with HPREV 0 sets RDY and is one edge seen (R304). -/
theorem edgeStep_rising {r : ReadyPath} (high : r.hrdy = true) (low : r.hprev = false) :
    edgeStep r = { r with rdy := true, edges := r.edges + 1, hprev := r.hrdy } := by
  simp [edgeStep, high, low]

/-- Any other sample writes HPREV alone (R304). -/
theorem edgeStep_flat {r : ReadyPath} (flat : ¬(r.hrdy = true ∧ r.hprev = false)) :
    edgeStep r = { r with hprev := r.hrdy } := by
  have level : (r.hrdy && !r.hprev) = false := by simpa using flat
  simp [edgeStep, level]

/-- A slot with one step of the edge agent. -/
theorem readyAfter_edge {s : State} {e : Bool} (slot : nextSlot s = ⟨[.edge], e⟩) :
    readyAfter s = edgeStep ⟨s.hrdy, s.hprev, s.rdy, 0⟩ := by
  rw [readyAfter, slot, List.foldl_cons, List.foldl_nil, envMove]

/-- A step of an IDLE block with no request is one interleaving point (log 1). -/
theorem step_idle {s : State} (idle : s.seq = .idle) (empty : s.requests = []) : step s = .next (environment s) := by
  simp only [step, idle, empty]

/-- Settles O21: the step is one interleaving point, whose one move is the edge agent's, rising or flat. -/
theorem edgeStepRule : Obligations.EdgeStepRule := by
  intro s e idle empty slot
  have after := readyAfter_edge slot
  refine ⟨environment s, step_idle idle empty, ?_, ?_, fun high low => ?_, fun flat => ?_⟩
  · rw [environment_hprev, after]; rfl
  · rw [environment_hrdy, after]; rfl
  · rw [environment_rdy, environment_trace, after, edgeStep_rising high low]
    exact ⟨rfl, rfl⟩
  · rw [environment_rdy, environment_trace, after, edgeStep_flat flat]
    exact ⟨rfl, List.append_nil _⟩

end Sys2Proof.Machine
end
section
/-! SUPPORT. An IDLE block with no request (10_state.md R53; 60_exceptions.md R304, R343): what one interleaving point adds to
TRACE, and RDY as that makes it. -/

namespace Sys2Proof.Machine

/-- An interleaving point emits the edges it saw and nothing else (R304). -/
theorem newEvents_environment (s : State) :
    newEvents s (environment s) = List.replicate (readyAfter s).edges Event.edge :=
  newEvents_of_append (environment_trace s)

/-- Settles O10: the step is one interleaving point, whose events are the edges seen. -/
theorem idleWithoutRequest : Obligations.IdleWithoutRequest := by
  intro s idle empty
  have onlyEdges : newEvents s (environment s) =
      List.replicate (newEvents s (environment s)).length Event.edge := by
    rw [newEvents_environment, List.length_replicate]
  have lines : ((environment s).hrdy, (environment s).hprev) = linesAfter 1 s := (linesAfter_one s).symm
  exact ⟨environment s, step_idle idle empty, environment_sameBlock s, idle, environment_tmo s, environment_resp s,
    onlyEdges, (environment_readyBy s).ready, lines⟩

end Sys2Proof.Machine
end
